-- ==== Sys2Proof/Word.lean ====
section
/-! DEFINITION. The machine word (spec/20_memory.md R64, R65): every sample, coefficient, operand, result and command
word is one whole 32-bit word, bit 31 the most significant. A byte exists only on a byte transport (R65). -/

namespace Sys2Proof

/-- One 32-bit word; an f32 word has the IEEE 754 binary32 layout (R65). -/
abbrev Word := BitVec 32

/-- One byte of a byte transport (R65). -/
abbrev Byte := BitVec 8

end Sys2Proof
end

