-- ==== Sys2Proof/Syntax.lean ====
section
/-! DEFINITION. The commands of the block (spec/30_encoding.md R80 to R84): one constructor of `Instr` per row of
spec/opcode_table.json. Operands are whole words (R83). Unit numbers are kept as the command word's fields give them;
which of them name a unit is WellFormed's matter (R82). -/

namespace Sys2Proof

/-- CH: channel 0 is left, channel 1 is right (R81). -/
inductive Channel where
  | left
  | right
  deriving DecidableEq, Repr

/-- SEL: which delay of a pair or DFD, `.d0` or `.d1` (R81, R15). -/
inductive DelaySel where
  | primary
  | secondary
  deriving DecidableEq, Repr

/-- K: what hosts the circular delay, an allpass's pair or a DFD (R81). -/
inductive HostKind where
  | allpass
  | degraded
  deriving DecidableEq, Repr

/-- The unit of a format U command: `AP[CH][IDX]` or `DFD[CH][IDX]`, by opcode (R81). -/
structure UnitAddr where
  ch  : Channel
  idx : Nat
  deriving DecidableEq, Repr

/-- The unit of a format C command: `AP[CH][IDX].pair.d<SEL>` or `DFD[CH][IDX].d<SEL>`, by K (R81). -/
structure DelayAddr where
  ch   : Channel
  idx  : Nat
  sel  : DelaySel
  kind : HostKind
  deriving DecidableEq, Repr

/-- The nineteen commands with their operands in the order of R84. -/
inductive Instr where
  | nop
  | engInit (sr : Word)
  | engFrame (leftIn rightIn g damping intensity speed selector : Word)
  | rdStatus
  | cdSetTime (d : DelayAddr) (time : Word)
  | cdProcess (d : DelayAddr) (x : Word)
  | apSetG (u : UnitAddr) (g : Word)
  | apSetTime (u : UnitAddr) (time : Word)
  | apProcess (u : UnitAddr) (x : Word)
  | apFdpProcess (u : UnitAddr) (x : Word)
  | dfdSetFeedback (u : UnitAddr) (fb : Word)
  | dfdSetA (u : UnitAddr) (a : Word)
  | dfdSetAmount (u : UnitAddr) (amount : Word)
  | dfdSetRatio (u : UnitAddr) (ratio : Word)
  | dfdSetTime (u : UnitAddr) (time : Word)
  | dfdProcess (u : UnitAddr) (x : Word)
  | dsProcess (u : UnitAddr) (x ratio : Word)
  | lfoSetFreq (freq : Word)
  | lfoNext
  deriving DecidableEq, Repr

/-- The opcodes without their operands: the rows of R84's table. -/
inductive Opcode where
  | nop | engInit | engFrame | rdStatus
  | cdSetTime | cdProcess
  | apSetG | apSetTime | apProcess | apFdpProcess
  | dfdSetFeedback | dfdSetA | dfdSetAmount | dfdSetRatio | dfdSetTime | dfdProcess
  | dsProcess
  | lfoSetFreq | lfoNext
  deriving DecidableEq, Repr

/-- The three formats of the command word (R81). -/
inductive Format where
  | n
  | u
  | c
  deriving DecidableEq, Repr

/-- A command as the host sends it: the command word and the operand words (R80). -/
structure Command where
  word : Word
  ops  : List Word
  deriving DecidableEq, Repr

/-- The pseudo-instructions of the assembly syntax (R91). -/
inductive Pseudo where
  | apConfig (u : UnitAddr) (g time : Word)
  | dfdConfig (u : UnitAddr) (fb a amount ratio : Word)
  | frameDefault (l r : Word)
  deriving DecidableEq, Repr

end Sys2Proof
end

