-- ==== Sys2Proof/WellFormed.lean ====
section
/-! DEFINITION. Which instructions name a unit that exists (spec/30_encoding.md R82). Every operand word is legal in
every position (R8, R83), so the unit number is the whole of it. -/

namespace Sys2Proof

/-- An allpass command's unit: `IDX <= 2` (R82). -/
abbrev UnitAddr.namesAllpass (u : UnitAddr) : Prop := u.idx ≤ 2

/-- A DFD or DS command's unit: `IDX <= 3` (R82). -/
abbrev UnitAddr.namesDegraded (u : UnitAddr) : Prop := u.idx ≤ 3

/-- A circular-delay command's unit: `IDX <= 2` when K = 0 and `IDX <= 3` when K = 1 (R82). -/
def DelayAddr.namesDelay (d : DelayAddr) : Bool :=
  match d.kind with
  | .allpass  => d.idx ≤ 2
  | .degraded => d.idx ≤ 3

/-- R82 for every instruction. -/
def Instr.wf : Instr → Bool
  | .nop                => true
  | .engInit _          => true
  | .engFrame ..        => true
  | .rdStatus           => true
  | .cdSetTime d _      => d.namesDelay
  | .cdProcess d _      => d.namesDelay
  | .apSetG u _         => u.namesAllpass
  | .apSetTime u _      => u.namesAllpass
  | .apProcess u _      => u.namesAllpass
  | .apFdpProcess u _   => u.namesAllpass
  | .dfdSetFeedback u _ => u.namesDegraded
  | .dfdSetA u _        => u.namesDegraded
  | .dfdSetAmount u _   => u.namesDegraded
  | .dfdSetRatio u _    => u.namesDegraded
  | .dfdSetTime u _     => u.namesDegraded
  | .dfdProcess u _     => u.namesDegraded
  | .dsProcess u _ _    => u.namesDegraded
  | .lfoSetFreq _       => true
  | .lfoNext            => true

end Sys2Proof
end

