-- ==== Sys2Proof/Decode.lean ====
section
/-! DEFINITION. The decoder of spec/30_encoding.md R89, total on any command word and operand list and rejecting by
name, the encoder written from the same tables (R81, R84), and the byte transport of spec/20_memory.md R65. -/

namespace Sys2Proof

/-- Why a command is not a legal encoding; each is the cause of E_ILLEGAL (R274). -/
inductive DecodeError where
  /-- An opcode that is no row of R84 (R86). -/
  | reservedOpcode
  /-- A 1 in a bit the format marks "must be 0" (R82). -/
  | mustBeZero
  /-- An IDX beyond the unit count (R82). -/
  | unitIndex
  /-- An operand-word count other than R84's (R87). -/
  | operandCount
  /-- Bytes of a transport that are no whole number of words, or no command word at all (R65; log entry 10). -/
  | partialWord
  deriving DecidableEq, Repr

/-! ### The opcode table (R84) -/

/-- The rows of R84, in order. -/
def Opcode.all : List Opcode :=
  [.nop, .engInit, .engFrame, .rdStatus, .cdSetTime, .cdProcess, .apSetG, .apSetTime, .apProcess, .apFdpProcess]
  ++ [.dfdSetFeedback, .dfdSetA, .dfdSetAmount, .dfdSetRatio, .dfdSetTime, .dfdProcess, .dsProcess, .lfoSetFreq, .lfoNext]

/-- OPC (R84). -/
def Opcode.code : Opcode → BitVec 8
  | .nop            => 0x00#8
  | .engInit        => 0x01#8
  | .engFrame       => 0x02#8
  | .rdStatus       => 0x03#8
  | .cdSetTime      => 0x10#8
  | .cdProcess      => 0x11#8
  | .apSetG         => 0x20#8
  | .apSetTime      => 0x21#8
  | .apProcess      => 0x22#8
  | .apFdpProcess   => 0x23#8
  | .dfdSetFeedback => 0x30#8
  | .dfdSetA        => 0x31#8
  | .dfdSetAmount   => 0x32#8
  | .dfdSetRatio    => 0x33#8
  | .dfdSetTime     => 0x34#8
  | .dfdProcess     => 0x35#8
  | .dsProcess      => 0x38#8
  | .lfoSetFreq     => 0x40#8
  | .lfoNext        => 0x41#8

/-- The format column of R84. -/
def Opcode.format : Opcode → Format
  | .nop            => .n
  | .engInit        => .n
  | .engFrame       => .n
  | .rdStatus       => .n
  | .cdSetTime      => .c
  | .cdProcess      => .c
  | .apSetG         => .u
  | .apSetTime      => .u
  | .apProcess      => .u
  | .apFdpProcess   => .u
  | .dfdSetFeedback => .u
  | .dfdSetA        => .u
  | .dfdSetAmount   => .u
  | .dfdSetRatio    => .u
  | .dfdSetTime     => .u
  | .dfdProcess     => .u
  | .dsProcess      => .u
  | .lfoSetFreq     => .n
  | .lfoNext        => .n

/-- The number of operand words (R84). -/
def Opcode.operandCount : Opcode → Nat
  | .nop            => 0
  | .engInit        => 1
  | .engFrame       => 7
  | .rdStatus       => 0
  | .cdSetTime      => 1
  | .cdProcess      => 1
  | .apSetG         => 1
  | .apSetTime      => 1
  | .apProcess      => 1
  | .apFdpProcess   => 1
  | .dfdSetFeedback => 1
  | .dfdSetA        => 1
  | .dfdSetAmount   => 1
  | .dfdSetRatio    => 1
  | .dfdSetTime     => 1
  | .dfdProcess     => 1
  | .dsProcess      => 2
  | .lfoSetFreq     => 1
  | .lfoNext        => 0

/-- The row of R84 with OPC = b, if there is one. -/
def Opcode.ofCode? (b : BitVec 8) : Option Opcode :=
  Opcode.all.find? fun op => op.code == b

/-- The mask of a format (R85). -/
def Format.mask : Format → Word
  | .n => 0xFFFFFFFF#32
  | .u => 0xFF0FFFFF#32
  | .c => 0xFF03FFFF#32

/-- `OPC << 24`, the match value of a row (R85). -/
def Opcode.matchWord (op : Opcode) : Word := op.code.setWidth 32 <<< 24

/-! ### The fields of a command word (R81) -/

def opcField (w : Word) : BitVec 8 := w.extractLsb' 24 8
def chField (w : Word) : Channel := if w.getLsbD 23 then .right else .left
def idxField (w : Word) : Nat := (w.extractLsb' 20 3).toNat
def selField (w : Word) : DelaySel := if w.getLsbD 19 then .secondary else .primary
def kindField (w : Word) : HostKind := if w.getLsbD 18 then .degraded else .allpass

/-- The unit a format U word names (R81). -/
def unitField (w : Word) : UnitAddr := ⟨chField w, idxField w⟩

/-- The delay a format C word names (R81). -/
def delayField (w : Word) : DelayAddr := ⟨chField w, idxField w, selField w, kindField w⟩

/-- The IDX limit of a row (R82, R89's three unit checks). -/
def unitLegal (op : Opcode) (w : Word) : Bool :=
  match op with
  | .nop | .engInit | .engFrame | .rdStatus | .lfoSetFreq | .lfoNext => true
  | .cdSetTime | .cdProcess => (delayField w).namesDelay
  | .apSetG | .apSetTime | .apProcess | .apFdpProcess => (unitField w).namesAllpass
  | .dfdSetFeedback | .dfdSetA | .dfdSetAmount | .dfdSetRatio | .dfdSetTime | .dfdProcess | .dsProcess =>
    (unitField w).namesDegraded

/-! ### Decoding (R89) -/

/-- No operand word. -/
def operands0 (ops : List Word) (i : Instr) : Except DecodeError Instr :=
  match ops with
  | [] => .ok i
  | _  => .error .operandCount

/-- Exactly one operand word. -/
def operands1 (ops : List Word) (f : Word → Instr) : Except DecodeError Instr :=
  match ops with
  | [a] => .ok (f a)
  | _   => .error .operandCount

/-- Exactly two operand words. -/
def operands2 (ops : List Word) (f : Word → Word → Instr) : Except DecodeError Instr :=
  match ops with
  | [a, b] => .ok (f a b)
  | _      => .error .operandCount

/-- The seven operand words of ENG_FRAME. -/
def operands7 (ops : List Word) (f : Word → Word → Word → Word → Word → Word → Word → Instr) :
    Except DecodeError Instr :=
  match ops with
  | [a, b, c, d, e, g, h] => .ok (f a b c d e g h)
  | _                     => .error .operandCount

/-- The instruction of a row, from the word's fields and the operand words (the last two steps of R89). -/
def buildInstr (op : Opcode) (w : Word) (ops : List Word) : Except DecodeError Instr :=
  match op with
  | .nop            => operands0 ops .nop
  | .engInit        => operands1 ops .engInit
  | .engFrame       => operands7 ops .engFrame
  | .rdStatus       => operands0 ops .rdStatus
  | .cdSetTime      => operands1 ops (.cdSetTime (delayField w))
  | .cdProcess      => operands1 ops (.cdProcess (delayField w))
  | .apSetG         => operands1 ops (.apSetG (unitField w))
  | .apSetTime      => operands1 ops (.apSetTime (unitField w))
  | .apProcess      => operands1 ops (.apProcess (unitField w))
  | .apFdpProcess   => operands1 ops (.apFdpProcess (unitField w))
  | .dfdSetFeedback => operands1 ops (.dfdSetFeedback (unitField w))
  | .dfdSetA        => operands1 ops (.dfdSetA (unitField w))
  | .dfdSetAmount   => operands1 ops (.dfdSetAmount (unitField w))
  | .dfdSetRatio    => operands1 ops (.dfdSetRatio (unitField w))
  | .dfdSetTime     => operands1 ops (.dfdSetTime (unitField w))
  | .dfdProcess     => operands1 ops (.dfdProcess (unitField w))
  | .dsProcess      => operands2 ops (.dsProcess (unitField w))
  | .lfoSetFreq     => operands1 ops .lfoSetFreq
  | .lfoNext        => operands0 ops .lfoNext

/-- R89, check by check in its order. -/
def decode (c : Command) : Except DecodeError Instr :=
  match Opcode.ofCode? (opcField c.word) with
  | none => .error .reservedOpcode
  | some op =>
    if c.word &&& op.format.mask ≠ op.matchWord then .error .mustBeZero
    else if unitLegal op c.word = false then .error .unitIndex
    else buildInstr op c.word c.ops

/-! ### Encoding (R81, R84) -/

def Channel.bit : Channel → Word
  | .left  => 0x00000000#32
  | .right => 0x00800000#32

def DelaySel.bit : DelaySel → Word
  | .primary   => 0x00000000#32
  | .secondary => 0x00080000#32

def HostKind.bit : HostKind → Word
  | .allpass  => 0x00000000#32
  | .degraded => 0x00040000#32

/-- IDX in bits 22:20. -/
def idxBits (k : Nat) : Word := BitVec.ofNat 32 k <<< 20

/-- A format U command word. -/
def encodeUnit (op : Opcode) (u : UnitAddr) : Word := op.matchWord ||| u.ch.bit ||| idxBits u.idx

/-- A format C command word. -/
def encodeDelay (op : Opcode) (d : DelayAddr) : Word :=
  op.matchWord ||| d.ch.bit ||| idxBits d.idx ||| d.sel.bit ||| d.kind.bit

/-- The words of an instruction: its command word and its operand words in the order of R84. -/
def encode : Instr → Command
  | .nop                    => ⟨Opcode.nop.matchWord, []⟩
  | .engInit sr             => ⟨Opcode.engInit.matchWord, [sr]⟩
  | .engFrame l r g da di sp se => ⟨Opcode.engFrame.matchWord, [l, r, g, da, di, sp, se]⟩
  | .rdStatus               => ⟨Opcode.rdStatus.matchWord, []⟩
  | .cdSetTime d t          => ⟨encodeDelay .cdSetTime d, [t]⟩
  | .cdProcess d x          => ⟨encodeDelay .cdProcess d, [x]⟩
  | .apSetG u g             => ⟨encodeUnit .apSetG u, [g]⟩
  | .apSetTime u t          => ⟨encodeUnit .apSetTime u, [t]⟩
  | .apProcess u x          => ⟨encodeUnit .apProcess u, [x]⟩
  | .apFdpProcess u x       => ⟨encodeUnit .apFdpProcess u, [x]⟩
  | .dfdSetFeedback u fb    => ⟨encodeUnit .dfdSetFeedback u, [fb]⟩
  | .dfdSetA u a            => ⟨encodeUnit .dfdSetA u, [a]⟩
  | .dfdSetAmount u n       => ⟨encodeUnit .dfdSetAmount u, [n]⟩
  | .dfdSetRatio u r        => ⟨encodeUnit .dfdSetRatio u, [r]⟩
  | .dfdSetTime u t         => ⟨encodeUnit .dfdSetTime u, [t]⟩
  | .dfdProcess u x         => ⟨encodeUnit .dfdProcess u, [x]⟩
  | .dsProcess u x r        => ⟨encodeUnit .dsProcess u, [x, r]⟩
  | .lfoSetFreq f           => ⟨Opcode.lfoSetFreq.matchWord, [f]⟩
  | .lfoNext                => ⟨Opcode.lfoNext.matchWord, []⟩

/-- The row of R84 an instruction belongs to. -/
def Instr.opcode : Instr → Opcode
  | .nop                => .nop
  | .engInit _          => .engInit
  | .engFrame ..        => .engFrame
  | .rdStatus           => .rdStatus
  | .cdSetTime _ _      => .cdSetTime
  | .cdProcess _ _      => .cdProcess
  | .apSetG _ _         => .apSetG
  | .apSetTime _ _      => .apSetTime
  | .apProcess _ _      => .apProcess
  | .apFdpProcess _ _   => .apFdpProcess
  | .dfdSetFeedback _ _ => .dfdSetFeedback
  | .dfdSetA _ _        => .dfdSetA
  | .dfdSetAmount _ _   => .dfdSetAmount
  | .dfdSetRatio _ _    => .dfdSetRatio
  | .dfdSetTime _ _     => .dfdSetTime
  | .dfdProcess _ _     => .dfdProcess
  | .dsProcess _ _ _    => .dsProcess
  | .lfoSetFreq _       => .lfoSetFreq
  | .lfoNext            => .lfoNext

/-! ### The byte transport (R65) -/

/-- The four bytes of a word, least significant first (R65). -/
def wordToBytes (w : Word) : List Byte :=
  [w.extractLsb' 0 8, w.extractLsb' 8 8, w.extractLsb' 16 8, w.extractLsb' 24 8]

/-- The words a list of bytes carries, least significant byte first (R65); `none` for a rest that is no whole word. -/
def bytesToWords : List Byte → Option (List Word)
  | [] => some []
  | b0 :: b1 :: b2 :: b3 :: rest => (bytesToWords rest).map fun ws => (b3 ++ b2 ++ b1 ++ b0) :: ws
  | _ => none

/-- A command transaction as bytes: the command word, then the operand words (R65, R80). -/
def Command.toBytes (c : Command) : List Byte := (c.word :: c.ops).flatMap wordToBytes

/-- The decoder on any bytes of a transport. DESIGN CHOICE (log entry 10): bytes that are no whole number of words, or
no word at all, are rejected by name. -/
def decodeBytes (bs : List Byte) : Except DecodeError Instr :=
  match bytesToWords bs with
  | some (w :: ops) => decode ⟨w, ops⟩
  | _               => .error .partialWord

/-! ### The table's numbering of an instruction's bits -/

/-- Word `k` of an instruction whose bits are numbered from bit 0 of its first word. -/
def tableWordAt (bits k : Nat) : Word := BitVec.ofNat 32 (bits / 2 ^ (32 * k))

/-- The command whose bits are the low `nbits` bits of `w`, the bits above 0: the command word, and as many operand
words as its opcode requires (R84, R88). -/
def commandOfTable (nbits w : Nat) : Command :=
  let bits := w % 2 ^ nbits
  let word := tableWordAt bits 0
  let count := match Opcode.ofCode? (opcField word) with
    | some op => op.operandCount
    | none    => 0
  ⟨word, (List.range count).map fun k => tableWordAt bits (k + 1)⟩

/-- The instruction the decoder reads from an instruction whose bits are `w`, numbered as spec/opcode_table.json numbers
them, laid out on the byte transport of R65. -/
def decodeTableWord (nbits w : Nat) : Option Instr :=
  match decodeBytes (commandOfTable nbits w).toBytes with
  | .ok i    => some i
  | .error _ => none

end Sys2Proof
end

