-- ==== Sys2Proof/Config.lean ====
section
/-! DEFINITION. What an implementation fixes and the spec leaves OPEN (spec/00_scope.md R7), and the free values.
`Params` is data that the model takes as an argument (it stands in `State.cfg`, so every statement about every state
is a statement about every value of it); `sinRaw` and `freeNanBits` are uninterpreted: nothing can evaluate them. -/

namespace Sys2Proof.Config

/-- The OPEN parameters of R7 that are data. DESIGN CHOICE (log entry 6): they are held as an argument of the
model, with the spec's reference values at reset. -/
structure Params where
  /-- MAX_LEN, the largest buffer length; `none` is unbounded (R7, D6). -/
  maxLen : Option Nat
  /-- AP_TIME[0], AP_TIME[1], AP_TIME[2] (R7, D8). -/
  apTime0 : Nat
  apTime1 : Nat
  apTime2 : Nat
  /-- BANK_TIME[0..3] at sample rates other than 44100 (R7, D7; at 44100 the source's counts hold, log entry 13). -/
  bankTime0 : Nat
  bankTime1 : Nat
  bankTime2 : Nat
  bankTime3 : Nat
  /-- LFO_FREQ, the frequency ENG_INIT loads (R7, D10). -/
  lfoFreq : Word
  deriving DecidableEq, Repr

/-- The reference values of R7's table: AP_TIME 556, 441, 341; BANK_TIME 1323, 1499, 1676, 1852; LFO_FREQ 1.0;
MAX_LEN unbounded. Used for `State.reset` and tests only; no statement rests on them (log entry 6). -/
def reference : Params where
  maxLen := none
  apTime0 := 556
  apTime1 := 441
  apTime2 := 341
  bankTime0 := 1323
  bankTime1 := 1499
  bankTime2 := 1676
  bankTime3 := 1852
  lfoFreq := 0x3F800000#32

/-- The raw configuration function behind SIN (R7, R200, D4): uninterpreted. The two assumptions the spec makes of
SIN are built around it by `Machine.F32.sin` (log entry 5). -/
opaque sinRaw : Word → Word

/-- The free bits of the n-th NaN drawn (R14, D3, U4): uninterpreted. `Machine.F32.nanOf` makes a NaN of them; every
NaN pattern is the image of itself (log entry 4). -/
opaque freeNanBits : Nat → Word

end Sys2Proof.Config
end

