-- ==== Sys2Proof/Machine/State.lean ====
section
/-! DEFINITION. The state of the block (spec/10_state.md), as plain data. What the spec says does not exist before
ENG_INIT is absent (R46): `State.engine` is `none` then. -/

namespace Sys2Proof.Machine

/-- One delay-line buffer (spec/20_memory.md R60): the words at its indices, as a list of (index, word) pairs in one
canonical form, indices strictly rising and no word equal to what an unlisted index reads as, 0x00000000, the zero
fill of ENG_INIT (R45, R70). The smallest unit a rule addresses is a word, so a cell is a word (log entry 8). -/
abbrev Memory := List (Nat × Word)

/-- A CircularDelay (R36). -/
structure Delay where
  /-- `d.buf`. -/
  buf  : Memory
  /-- `d.w`, the write cursor. -/
  w    : Nat
  /-- `d.r`, the read cursor. -/
  r    : Nat
  /-- `d.last`, the last emitted sample. -/
  last : Word
  deriving DecidableEq, Repr

/-- A FeedbackDelayPair (R37). Its feedback coefficient is its allpass's `g` (R38). -/
structure Pair where
  d0 : Delay
  d1 : Delay
  ly : Word
  lf : Word
  deriving DecidableEq, Repr

/-- An AllpassFilter (R38). -/
structure Allpass where
  g    : Word
  pair : Pair
  deriving DecidableEq, Repr

/-- A Downsampler (R39). -/
structure Downsampler where
  amount : Nat
  cnt    : Nat
  held   : Word
  deriving DecidableEq, Repr

/-- A DegradedFeedbackDelay (R40). -/
structure Degraded where
  fb    : Word
  a     : Word
  ratio : Word
  ds    : Downsampler
  d0    : Delay
  d1    : Delay
  ly    : Word
  lf    : Word
  deriving DecidableEq, Repr

/-- The Lfo (R41). -/
structure Lfo where
  freq  : Word
  phase : Word
  deriving DecidableEq, Repr

/-- The units of one channel (R42): three allpasses and four degraded feedback delays. -/
structure Units where
  ap0  : Allpass
  ap1  : Allpass
  ap2  : Allpass
  dfd0 : Degraded
  dfd1 : Degraded
  dfd2 : Degraded
  dfd3 : Degraded
  deriving DecidableEq, Repr

/-- Everything ENG_INIT constructs (R34, R42). -/
structure Engine where
  /-- `ENG.sr`. -/
  sr    : Word
  /-- `ENG.L`. -/
  len   : Nat
  lfo   : Lfo
  left  : Units
  right : Units
  deriving DecidableEq, Repr

/-- The status codes a response carries (spec/60_exceptions.md R270); codes 7 to 15 are never produced. -/
inductive Code where
  | ok
  | illegal
  | faulted
  | notInit
  | rate
  | amount
  | lfoFreq
  deriving DecidableEq, Repr

/-- A response: a status code and result words (R80). -/
structure Response where
  code    : Code
  results : List Word
  deriving DecidableEq, Repr

/-- The whole state. `cfg`, `pending`, `response` and `nanDraws` are the model's own fields. -/
structure State where
  /-- The OPEN parameters (R7), an argument of the model; no command writes it (log entry 6). -/
  cfg      : Config.Params
  /-- STATUS (R35). -/
  status   : Word
  /-- The engine; absent before the first successful ENG_INIT, as R46 says a model holds it (log entry 7). -/
  engine   : Option Engine
  /-- The commands the host has sent and the block has not executed, oldest first (R80, R303; log entry 1). -/
  pending  : List Command
  /-- The response of the last command, if there was one (R80; log entry 2). -/
  response : Option Response
  /-- How many NaN bit patterns have been drawn (R14; log entry 4). -/
  nanDraws : Nat
  deriving DecidableEq, Repr

/-- The states in which the model stops. No run reaches one (log entry 9); every error of spec/60_exceptions.md is a
next state with an error response instead. -/
inductive Fault where
  /-- STATUS says INIT = 1 and ERR = 0 but there is no engine. Raised by every unit command and ENG_FRAME; safe: R35 and
  R251 give such a state no meaning, and Safety.lean's invariant rules it out. -/
  | engineAbsent
  /-- The buffer length is 0, where "the modulo operations are undefined" (R105). Raised by the commands that set a
  delay time; safe: R105 makes it unreachable. -/
  | zeroLength
  /-- A cursor lies outside its buffer, so an access would name an index that does not exist (R60). Raised by the process
  commands and ENG_FRAME; safe: R61 makes it unreachable. -/
  | cursorOutOfRange
  deriving DecidableEq, Repr

/-- Why the model has no meaning for an instruction. -/
inductive Refusal where
  /-- The instruction has no meaning yet. Raised by no arm of `exec`: every instruction is modelled; safe. -/
  | notModelled (mnemonic : String)
  deriving DecidableEq, Repr

/-- Power-on (R46, R300): STATUS = 0x00000000 and everything else absent. The model's own fields: the reference
parameters (log entry 6), no command sent (log entry 1), no response (log entry 2), no NaN drawn (log entry 4). -/
def State.reset : State where
  cfg      := Config.reference
  status   := 0x00000000#32
  engine   := none
  pending  := []
  response := none
  nanDraws := 0

end Sys2Proof.Machine
end

