-- ==== Sys2Proof/Machine/Flags.lean ====
section
/-! DEFINITION. STATUS (spec/10_state.md R35), the block's only flags (R33), and how an error changes it
(spec/60_exceptions.md R270, R273). -/

namespace Sys2Proof.Machine

/-- The number of a status code (R270). -/
def Code.number : Code → BitVec 4
  | .ok      => 0#4
  | .illegal => 1#4
  | .faulted => 2#4
  | .notInit => 3#4
  | .rate    => 4#4
  | .amount  => 5#4
  | .lfoFreq => 6#4

/-- STATUS.INIT, bit 0. -/
def statusInit (st : Word) : Bool := st.getLsbD 0

/-- STATUS.ERR, bit 1. -/
def statusErr (st : Word) : Bool := st.getLsbD 1

/-- STATUS.CAUSE, bits 7:4. -/
def statusCause (st : Word) : BitVec 4 := st.extractLsb' 4 4

/-- STATUS as a read gives it: the reserved bits 3:2 and 31:8 read 0 (R35, R252). -/
def statusRead (st : Word) : Word := st &&& 0x000000F3#32

/-- The word with these fields and every reserved bit 0. -/
def statusOf (init err : Bool) (cause : BitVec 4) : Word :=
  (BitVec.ofBool init).setWidth 32 ||| ((BitVec.ofBool err).setWidth 32 <<< 1) ||| (cause.setWidth 32 <<< 4)

/-- STATUS after a successful ENG_INIT: INIT = 1, ERR = 0, CAUSE = 0 (R251). -/
def statusRunning : Word := statusOf true false 0#4

/-- R273's general branch: ERR <- 1, and CAUSE <- code if CAUSE was 0, keeping the first cause. -/
def statusAfterError (c : Code) (st : Word) : Word :=
  statusOf (statusInit st) true (if statusCause st = 0#4 then c.number else statusCause st)

/-- R273's ENG_INIT branch: INIT <- 0, ERR <- 1, CAUSE <- code. -/
def statusAfterInitError (c : Code) : Word := statusOf false true c.number

end Sys2Proof.Machine
end

