-- ==== Sys2Proof/Machine/Float.lean ====
section
/-! DEFINITION. IEEE 754 binary32 (spec/00_scope.md R12 to R14, decisions D2 and D3): each operation computes the exact
result on integers and rounds it once, to nearest, ties to even; subnormals are kept and nothing is fused. An operation
whose result is a NaN answers `none`, and `settle` draws the bits. -/

namespace Sys2Proof.Machine.F32

/-! ### Constants (R7) -/

def posZero : Word := 0x00000000#32
def negZero : Word := 0x80000000#32
def one     : Word := 0x3F800000#32
def negOne  : Word := 0xBF800000#32
def half    : Word := 0x3F000000#32
def quarter : Word := 0x3E800000#32
def four    : Word := 0x40800000#32
def posInf  : Word := 0x7F800000#32
/-- 0.7, the wacky threshold. -/
def wackyAbove : Word := 0x3F333333#32
/-- 0.3, the forced threshold. -/
def forcedAbove : Word := 0x3E99999A#32
/-- 0.1, the LFO depth. -/
def lfoDepth : Word := 0x3DCCCCCD#32
/-- TAU, the binary32 nearest 2π. -/
def tau : Word := 0x40C90FDB#32
/-- 2147483648.0, the bound of R220. -/
def twoPow31 : Word := 0x4F000000#32
/-- 44100.0, the one rate at which the source gives the bank times (R7, R9). -/
def rate44100 : Word := 0x472C4400#32

/-! ### Layout (R65) -/

/-- The bits 30:0, which order the non-NaN values of one sign. -/
def magBits (v : Word) : Nat := v.toNat % 2 ^ 31

/-- Bit 31. -/
def isNeg (v : Word) : Bool := v.msb

def isNaN (v : Word) : Bool := decide (0x7F800000 < magBits v)
def isInf (v : Word) : Bool := decide (magBits v = 0x7F800000)
def isFinite (v : Word) : Bool := decide (magBits v < 0x7F800000)
def isZero (v : Word) : Bool := decide (magBits v = 0)

/-- The magnitude of a finite value with bits 30:0 equal to `m`, in units of 2^-149, the least subnormal. -/
def unitsOfBits (m : Nat) : Nat :=
  if m < 2 ^ 23 then m else (2 ^ 23 + m % 2 ^ 23) * 2 ^ (m / 2 ^ 23 - 1)

/-- The magnitude of a finite value, in units of 2^-149. -/
def units (v : Word) : Nat := unitsOfBits (magBits v)

/-- A finite value, in units of 2^-149. -/
def signedUnits (v : Word) : Int := if isNeg v then -(units v : Int) else (units v : Int)

/-! ### Rounding (R12) -/

/-- The integer nearest `a / b`, the even one of two equally near. -/
def roundDiv (a b : Nat) : Nat :=
  let q := a / b
  let rem := a % b
  if 2 * rem < b then q else if b < 2 * rem then q + 1 else q + q % 2

/-- Bits 30:0 of the binary32 value nearest `a / b` units of 2^-149, ties to even. With `k` the exponent of the last kept
place, the significand `roundDiv a (b * 2^k)` is added to `k * 2^23`: its leading bit, when there is one, completes the
exponent field, and a carry out of it moves to the next binade. A result beyond the largest finite value is infinity. -/
def roundBits (a b : Nat) : Nat :=
  let k := (a / b).log2 - 23
  min (k * 2 ^ 23 + roundDiv a (b * 2 ^ k)) 0x7F800000

/-- The word with a given sign and bits 30:0. -/
def pack (neg : Bool) (m : Nat) : Word := BitVec.ofNat 32 ((if neg then 2 ^ 31 else 0) + m)

/-! ### Arithmetic (R12); `none` is a NaN result -/

/-- Unary minus flips the sign bit (R12), of a NaN too (log entry 11). -/
def neg (v : Word) : Word := v ^^^ 0x80000000#32

/-- `x + y`. -/
def addNum (x y : Word) : Option Word :=
  if isNaN x || isNaN y then none
  else if isInf x then (if isInf y && isNeg x != isNeg y then none else some x)
  else if isInf y then some y
  else
    let z := signedUnits x + signedUnits y
    if z = 0 then some (if isNeg x && isNeg y then negZero else posZero)
    else some (pack (decide (z < 0)) (roundBits z.natAbs 1))

/-- `x - y`. -/
def subNum (x y : Word) : Option Word := addNum x (neg y)

/-- `x * y`. -/
def mulNum (x y : Word) : Option Word :=
  let s := isNeg x != isNeg y
  if isNaN x || isNaN y then none
  else if isInf x || isInf y then (if isZero x || isZero y then none else some (pack s 0x7F800000))
  else some (pack s (roundBits (units x * units y) (2 ^ 149)))

/-- `x / y`. -/
def divNum (x y : Word) : Option Word :=
  let s := isNeg x != isNeg y
  if isNaN x || isNaN y then none
  else if isInf x then (if isInf y then none else some (pack s 0x7F800000))
  else if isInf y then some (pack s 0)
  else if isZero y then (if isZero x then none else some (pack s 0x7F800000))
  else some (pack s (roundBits (units x * 2 ^ 149) (units y)))

/-! ### Comparisons (R13) -/

/-- An integer that orders the non-NaN values; both zeros have key 0. -/
def orderKey (v : Word) : Int := if isNeg v then -(magBits v : Int) else (magBits v : Int)

/-- `x < y`; false with a NaN operand. -/
def lt (x y : Word) : Bool := !isNaN x && !isNaN y && decide (orderKey x < orderKey y)

/-- `x <= y`; false with a NaN operand. -/
def le (x y : Word) : Bool := !isNaN x && !isNaN y && decide (orderKey x ≤ orderKey y)

/-! ### Conversion to an integer (R10) -/

/-- The magnitude of a finite value rounded toward zero; the floor of a non-negative one. -/
def truncNat (v : Word) : Nat := units v / 2 ^ 149

/-! ### NaN results (R14, D3, U4) -/

/-- A NaN made of free bits: the exponent field all ones, and a fraction that is not 0. -/
def nanOf (b : Word) : Word :=
  let v := b ||| 0x7F800000#32
  if magBits v = 0x7F800000 then v ||| 0x00000001#32 else v

/-- A computation that may draw NaN bits: it reads and advances the count of draws (R14). -/
abbrev Drawn (α : Type) := StateM Nat α

/-- The next NaN: the free bits of this draw, and the count advanced by one. -/
def drawNaN : Drawn Word := do
  let n ← get
  set (n + 1)
  pure (nanOf (Config.freeNanBits n))

/-- The word of a result: itself, or a NaN drawn afresh (log entry 12). -/
def settle : Option Word → Drawn Word
  | some w => pure w
  | none   => drawNaN

def add (x y : Word) : Drawn Word := settle (addNum x y)
def sub (x y : Word) : Drawn Word := settle (subNum x y)
def mul (x y : Word) : Drawn Word := settle (mulNum x y)
def div (x y : Word) : Drawn Word := settle (divNum x y)

/-! ### The configuration function SIN (R7, R200, D4) -/

/-- SIN: any function with `SIN(+0.0) = +0.0` and `-1.0 <= SIN(v) <= 1.0` for finite `v`. A raw value that breaks the
second is replaced by +0.0, so that every such function, and no other, is a value of this one (log entry 5). -/
def sin (v : Word) : Word :=
  let y := Config.sinRaw v
  if v = posZero then posZero
  else if isFinite v && !(le negOne y && le y one) then posZero
  else y

/-- The result of SIN; a NaN is one of R14's. -/
def sinNum (v : Word) : Option Word := if isNaN (sin v) then none else some (sin v)

/-- SIN in a rule: its value, or a NaN drawn afresh. -/
def sine (v : Word) : Drawn Word := settle (sinNum v)

end Sys2Proof.Machine.F32
end

