-- ==== Sys2Proof/Machine/Operands.lean ====
section
/-! DEFINITION. The operand types (spec/30_encoding.md R83) and the units that command words name (R81, R82). -/

namespace Sys2Proof.Machine

/-- A u32 operand: the unsigned integer of the 32 bits (R83). An f32 operand is the word itself. -/
def u32 (w : Word) : Nat := w.toNat

/-- An i32 operand: the two's-complement integer of the 32 bits (R83). -/
def i32 (w : Word) : Int := w.toInt

/-- The allpass number of a unit address, if it names one (R82). -/
def apNumber? (u : UnitAddr) : Option (Fin 3) :=
  if h : u.idx < 3 then some ⟨u.idx, h⟩ else none

/-- The DFD number of a unit address, if it names one (R82). -/
def dfdNumber? (u : UnitAddr) : Option (Fin 4) :=
  if h : u.idx < 4 then some ⟨u.idx, h⟩ else none

/-- The 28 circular delays of R42, by the path of R15. -/
inductive Slot where
  /-- `AP[c][k].pair.d0` or `.d1`. -/
  | ap (c : Channel) (k : Fin 3) (sel : DelaySel)
  /-- `DFD[c][k].d0` or `.d1`. -/
  | dfd (c : Channel) (k : Fin 4) (sel : DelaySel)
  deriving DecidableEq, Repr

/-- The circular delay a delay address names, if it names one (R81, R82). -/
def slot? (d : DelayAddr) : Option Slot :=
  match d.kind with
  | .allpass  => (apNumber? ⟨d.ch, d.idx⟩).map fun k => .ap d.ch k d.sel
  | .degraded => (dfdNumber? ⟨d.ch, d.idx⟩).map fun k => .dfd d.ch k d.sel

end Sys2Proof.Machine
end

