-- ==== Sys2Proof/Machine/Ops.lean ====
section
/-! DEFINITION. The named operations over buffers, units, responses and errors that every meaning is built from. -/

namespace Sys2Proof.Machine

/-! ### Buffers (spec/20_memory.md R60 to R64) -/

/-- MemRead: the word at an index; an unlisted index reads as the zero fill (R16, R45, R70). -/
def Memory.read : Memory → Nat → Word
  | [], _ => 0x00000000#32
  | (j, v) :: m, i => if i = j then v else Memory.read m i

/-- MemWrite: store one whole word (R16, R64), keeping the canonical form. -/
def Memory.write : Memory → Nat → Word → Memory
  | [], i, v => if v = 0x00000000#32 then [] else [(i, v)]
  | (j, u) :: m, i, v =>
    if i < j then (if v = 0x00000000#32 then (j, u) :: m else (i, v) :: (j, u) :: m)
    else if i = j then (if v = 0x00000000#32 then m else (i, v) :: m)
    else (j, u) :: Memory.write m i v

/-- The zero fill of ENG_INIT (R251). -/
def Memory.zeroFill : Memory := []

/-- Every listed index is at least `lo` and rising, and no listed word is 0x00000000. -/
def Memory.wfFrom : Nat → Memory → Bool
  | _, [] => true
  | lo, (j, v) :: m => decide (lo ≤ j) && decide (v ≠ 0x00000000#32) && Memory.wfFrom (j + 1) m

/-- The canonical form of a buffer (log entry 8). -/
def Memory.wf (m : Memory) : Bool := Memory.wfFrom 0 m

/-- Every listed index lies in `[0, len)` (R60). -/
def Memory.within (len : Nat) (m : Memory) : Bool := m.all fun c => decide (c.1 < len)

/-! ### Circular delays -/

/-- Both cursors lie in `[0, L)` (R36), so that both accesses of CD_PROCESS name an index that exists (R61). -/
def Delay.inRange (len : Nat) (d : Delay) : Bool := decide (d.w < len) && decide (d.r < len)

def Pair.inRange (len : Nat) (p : Pair) : Bool := p.d0.inRange len && p.d1.inRange len

def Degraded.inRange (len : Nat) (q : Degraded) : Bool := q.d0.inRange len && q.d1.inRange len

def Units.inRange (len : Nat) (u : Units) : Bool :=
  u.ap0.pair.inRange len && u.ap1.pair.inRange len && u.ap2.pair.inRange len
    && u.dfd0.inRange len && u.dfd1.inRange len && u.dfd2.inRange len && u.dfd3.inRange len

def Engine.inRange (e : Engine) : Bool := e.left.inRange e.len && e.right.inRange e.len

/-- `place(d, T)`: the read cursor goes T samples behind the write cursor, modulo L (R100). -/
def Delay.place (len : Nat) (d : Delay) (t : Nat) : Delay :=
  { d with r := (d.w + len - t % len) % len }

/-- The delay CD_PROCESS leaves and the word it returns: write, then read, then advance both cursors (R102). -/
def cdProc (len : Nat) (d : Delay) (x : Word) : Word × Delay :=
  let buf := d.buf.write d.w x
  let y := buf.read d.r
  (y, { buf := buf, w := (d.w + 1) % len, r := (d.r + 1) % len, last := y })

/-! ### Units (R15, R42) -/

def Units.ap (u : Units) : Fin 3 → Allpass
  | 0 => u.ap0
  | 1 => u.ap1
  | 2 => u.ap2

def Units.setAp (u : Units) (k : Fin 3) (a : Allpass) : Units :=
  match k with
  | 0 => { u with ap0 := a }
  | 1 => { u with ap1 := a }
  | 2 => { u with ap2 := a }

def Units.dfd (u : Units) : Fin 4 → Degraded
  | 0 => u.dfd0
  | 1 => u.dfd1
  | 2 => u.dfd2
  | 3 => u.dfd3

def Units.setDfd (u : Units) (k : Fin 4) (q : Degraded) : Units :=
  match k with
  | 0 => { u with dfd0 := q }
  | 1 => { u with dfd1 := q }
  | 2 => { u with dfd2 := q }
  | 3 => { u with dfd3 := q }

def Engine.units (e : Engine) : Channel → Units
  | .left  => e.left
  | .right => e.right

def Engine.setUnits (e : Engine) (c : Channel) (u : Units) : Engine :=
  match c with
  | .left  => { e with left := u }
  | .right => { e with right := u }

/-- `AP[c][k]`. -/
def Engine.ap (e : Engine) (c : Channel) (k : Fin 3) : Allpass := (e.units c).ap k

def Engine.setAp (e : Engine) (c : Channel) (k : Fin 3) (a : Allpass) : Engine :=
  e.setUnits c ((e.units c).setAp k a)

/-- `DFD[c][k]`. -/
def Engine.dfd (e : Engine) (c : Channel) (k : Fin 4) : Degraded := (e.units c).dfd k

def Engine.setDfd (e : Engine) (c : Channel) (k : Fin 4) (q : Degraded) : Engine :=
  e.setUnits c ((e.units c).setDfd k q)

def Pair.delay (p : Pair) : DelaySel → Delay
  | .primary   => p.d0
  | .secondary => p.d1

def Pair.setDelay (p : Pair) (sel : DelaySel) (d : Delay) : Pair :=
  match sel with
  | .primary   => { p with d0 := d }
  | .secondary => { p with d1 := d }

def Degraded.delay (q : Degraded) : DelaySel → Delay
  | .primary   => q.d0
  | .secondary => q.d1

def Degraded.setDelay (q : Degraded) (sel : DelaySel) (d : Delay) : Degraded :=
  match sel with
  | .primary   => { q with d0 := d }
  | .secondary => { q with d1 := d }

/-- The circular delay at a slot. -/
def Engine.delay (e : Engine) : Slot → Delay
  | .ap c k sel  => (e.ap c k).pair.delay sel
  | .dfd c k sel => (e.dfd c k).delay sel

def Engine.setDelay (e : Engine) (s : Slot) (d : Delay) : Engine :=
  match s with
  | .ap c k sel  => e.setAp c k { e.ap c k with pair := (e.ap c k).pair.setDelay sel d }
  | .dfd c k sel => e.setDfd c k ((e.dfd c k).setDelay sel d)

/-! ### Responses and errors (spec/60_exceptions.md) -/

/-- The outcome of one command. -/
abbrev Result := Host.Outcome State Fault Refusal

/-- An OK response with the result words, and nothing else (R80). -/
def State.reply (s : State) (results : List Word) : State :=
  { s with response := some ⟨.ok, results⟩ }

/-- A unit command's completion: the new engine, the count of NaN draws, and an OK response. -/
def State.complete (s : State) (e : Engine) (draws : Nat) (results : List Word) : State :=
  { s with engine := some e, nanDraws := draws, response := some ⟨.ok, results⟩ }

/-- TAKING AN ERROR, for any code but OK and E_FAULTED of a command that did not decode as ENG_INIT: STATUS as R273 says,
an error response with no result words (R272), and nothing else. This is fault entry whole (R282). -/
def State.fail (s : State) (c : Code) : State :=
  { s with status := statusAfterError c s.status, response := some ⟨c, []⟩ }

/-- Taking an error of a command that decoded as ENG_INIT (R273, R251). -/
def State.failInit (s : State) (c : Code) : State :=
  { s with status := statusAfterInitError c, response := some ⟨c, []⟩ }

/-- E_FAULTED: the response only; STATUS is unchanged (R273, R275). -/
def State.failFaulted (s : State) : State :=
  { s with response := some ⟨.faulted, []⟩ }

/-- LEAVING AN ERROR: a successful ENG_INIT is the only way (R283); the engine is rebuilt and STATUS is 0x00000001. -/
def State.construct (s : State) (e : Engine) : State :=
  { s with engine := some e, status := statusRunning, response := some ⟨.ok, []⟩ }

/-- Checks 2 and 3 of R271, which every command but NOP, ENG_INIT and RD_STATUS passes before its own. -/
def whenRunning (s : State) (f : Engine → Result) : Result :=
  if statusErr s.status then .next s.failFaulted
  else if statusInit s.status = false then .next (s.fail .notInit)
  else match s.engine with
    | none   => .fault .engineAbsent
    | some e => f e

/-- A command on `AP[CH][IDX]`; an address that names none is illegal before any other check (R271, R274, log entry 14). -/
def onAllpass (u : UnitAddr) (s : State) (f : Engine → Fin 3 → Result) : Result :=
  match apNumber? u with
  | none   => .next (s.fail .illegal)
  | some k => whenRunning s fun e => f e k

/-- A command on `DFD[CH][IDX]` or its downsampler. -/
def onDegraded (u : UnitAddr) (s : State) (f : Engine → Fin 4 → Result) : Result :=
  match dfdNumber? u with
  | none   => .next (s.fail .illegal)
  | some k => whenRunning s fun e => f e k

/-- A command on one circular delay. -/
def onDelay (d : DelayAddr) (s : State) (f : Engine → Slot → Result) : Result :=
  match slot? d with
  | none      => .next (s.fail .illegal)
  | some slot => whenRunning s fun e => f e slot

/-- A process command goes on only when its cursors name indices that exist (R60, R61). -/
def requireRange (ok : Bool) (r : Result) : Result :=
  if ok then r else .fault .cursorOutOfRange

/-- A delay time is set only when the length is not 0 (R105). -/
def requireLength (len : Nat) (r : Result) : Result :=
  if len = 0 then .fault .zeroLength else r

/-- The command at the head of the host's queue, and the state with it taken off (R80, R303). -/
def takeCommand (s : State) : Option (Command × State) :=
  match s.pending with
  | []        => none
  | c :: rest => some (c, { s with pending := rest })

end Sys2Proof.Machine
end

