-- ==== Sys2Proof/Machine/CircularDelay.lean ====
section
/-! DEFINITION. CD_SET_TIME and CD_PROCESS (spec/40_circular_delay.md). -/

namespace Sys2Proof.Machine

/-- CD_SET_TIME (R101): `place(d, time)`. -/
def execCdSetTime (d : DelayAddr) (time : Word) (s : State) : Result :=
  onDelay d s fun e slot =>
    requireLength e.len <|
      .next (s.complete (e.setDelay slot ((e.delay slot).place e.len (u32 time))) s.nanDraws [])

/-- CD_PROCESS (R102). -/
def execCdProcess (d : DelayAddr) (x : Word) (s : State) : Result :=
  onDelay d s fun e slot =>
    requireRange ((e.delay slot).inRange e.len) <|
      let r := cdProc e.len (e.delay slot) x
      .next (s.complete (e.setDelay slot r.2) s.nanDraws [r.1])

end Sys2Proof.Machine
end

