-- ==== Sys2Proof/Machine/Oscillator.lean ====
section
/-! DEFINITION. The Lfo (spec/45_lfo.md). -/

namespace Sys2Proof.Machine

open F32 (Drawn)

/-- The wrap of R200: one conditional subtraction of 1.0 (D11). -/
def wrapPhase (p : Word) : Drawn Word :=
  if F32.le F32.one p then F32.sub p F32.one else pure p

/-- LFO_PROC (R200): the output uses the phase before the advance. -/
def lfoProc (sr : Word) (l : Lfo) : Drawn (Word × Lfo) := do
  let t ← F32.mul l.phase F32.tau
  let arg ← F32.mul t t
  let out ← F32.sine arg
  let inc ← F32.div l.freq sr
  let p ← F32.add l.phase inc
  let phase ← wrapPhase p
  pure (out, { l with phase := phase })

/-- A frequency R279 accepts: in `[0, sr)`, a NaN not; `-0.0` passes. -/
def freqLegal (sr freq : Word) : Bool := F32.le F32.posZero freq && F32.lt freq sr

/-- LFO_SET_FREQ (R202). -/
def execLfoSetFreq (freq : Word) (s : State) : Result :=
  whenRunning s fun e =>
    if freqLegal e.sr freq then .next (s.complete { e with lfo := { e.lfo with freq := freq } } s.nanDraws [])
    else .next (s.fail .lfoFreq)

/-- LFO_NEXT (R201). -/
def execLfoNext (s : State) : Result :=
  whenRunning s fun e =>
    let r := (lfoProc e.sr e.lfo).run s.nanDraws
    .next (s.complete { e with lfo := r.1.2 } r.2 [r.1.1])

end Sys2Proof.Machine
end

