-- ==== Sys2Proof/Machine/Control.lean ====
section
/-! DEFINITION. NOP, ENG_INIT and RD_STATUS (spec/47_control.md), and the values ENG_INIT leaves (spec/10_state.md R45). -/

namespace Sys2Proof.Machine

/-- `floor(sr / 4.0)` (R251, R34); the quotient is an f32. -/
def bufferLength (sr : Word) : Nat :=
  match F32.divNum sr F32.four with
  | some q => F32.truncNat q
  | none   => 0

/-- BANK_TIME[k] at a sample rate: the source's counts at 44100, the parameter elsewhere (R7, D7; log entry 13). -/
def bankTime (cfg : Config.Params) (sr : Word) : Fin 4 → Nat
  | 0 => if sr = F32.rate44100 then 1323 else cfg.bankTime0
  | 1 => if sr = F32.rate44100 then 1499 else cfg.bankTime1
  | 2 => if sr = F32.rate44100 then 1676 else cfg.bankTime2
  | 3 => if sr = F32.rate44100 then 1852 else cfg.bankTime3

/-- AP_TIME[k] (R7, D8). -/
def apTime (cfg : Config.Params) : Fin 3 → Nat
  | 0 => cfg.apTime0
  | 1 => cfg.apTime1
  | 2 => cfg.apTime2

/-- A circular delay as ENG_INIT leaves it: zero filled, `d.w = 0`, `d.r = (-T) mod L` (R45, R251). -/
def freshDelay (len t : Nat) : Delay where
  buf  := Memory.zeroFill
  w    := 0
  r    := (len - t % len) % len
  last := F32.posZero

/-- An allpass as ENG_INIT leaves it (R45); both delays of the pair have one time (D9). -/
def freshAllpass (len t : Nat) : Allpass where
  g    := F32.posZero
  pair := { d0 := freshDelay len t, d1 := freshDelay len t, ly := F32.posZero, lf := F32.posZero }

/-- A degraded feedback delay as ENG_INIT leaves it (R45). -/
def freshDegraded (len t : Nat) : Degraded where
  fb    := F32.posZero
  a     := F32.posZero
  ratio := F32.posZero
  ds    := { amount := 0, cnt := 0, held := F32.posZero }
  d0    := freshDelay len t
  d1    := freshDelay len t
  ly    := F32.posZero
  lf    := F32.posZero

/-- One channel's units as ENG_INIT leaves them (R42, R45). -/
def freshUnits (cfg : Config.Params) (sr : Word) (len : Nat) : Units where
  ap0  := freshAllpass len (apTime cfg 0)
  ap1  := freshAllpass len (apTime cfg 1)
  ap2  := freshAllpass len (apTime cfg 2)
  dfd0 := freshDegraded len (bankTime cfg sr 0)
  dfd1 := freshDegraded len (bankTime cfg sr 1)
  dfd2 := freshDegraded len (bankTime cfg sr 2)
  dfd3 := freshDegraded len (bankTime cfg sr 3)

/-- The engine ENG_INIT constructs for a legal sample rate (R45). -/
def freshEngine (cfg : Config.Params) (sr : Word) : Engine where
  sr    := sr
  len   := bufferLength sr
  lfo   := { freq := cfg.lfoFreq, phase := F32.posZero }
  left  := freshUnits cfg sr (bufferLength sr)
  right := freshUnits cfg sr (bufferLength sr)

/-- `L > MAX_LEN` (R251); nothing exceeds an unbounded MAX_LEN (D6). -/
def exceedsMaxLen (cfg : Config.Params) (len : Nat) : Bool :=
  match cfg.maxLen with
  | none   => false
  | some m => decide (m < len)

/-- A sample rate R277 accepts: `sr >= 4.0 and sr < +inf`, with a length the buffers hold. -/
def rateLegal (cfg : Config.Params) (sr : Word) : Bool :=
  F32.le F32.four sr && F32.lt sr F32.posInf && !exceedsMaxLen cfg (bufferLength sr)

/-- NOP (R250): no state is read or written; the response is OK. -/
def execNop (s : State) : Result := .next (s.reply [])

/-- ENG_INIT (R251): E_RATE is checked before E_LFOFREQ (R271); it is accepted at any time (D39). -/
def execEngInit (sr : Word) (s : State) : Result :=
  if rateLegal s.cfg sr then
    if freqLegal sr s.cfg.lfoFreq then .next (s.construct (freshEngine s.cfg sr))
    else .next (s.failInit .lfoFreq)
  else .next (s.failInit .rate)

/-- RD_STATUS (R252): accepted before ENG_INIT and while faulted; no state is written. -/
def execRdStatus (s : State) : Result := .next (s.reply [statusRead s.status])

end Sys2Proof.Machine
end

