-- ==== Sys2Proof/Machine/Allpass.lean ====
section
/-! DEFINITION. The feedback delay pair (spec/41_feedback_delay_pair.md) and the allpass filter (spec/42_allpass.md). -/

namespace Sys2Proof.Machine

open F32 (Drawn)

/-- FDP_PROCESS (R120): the feedback product reads the previous call's `lf`, the primary delay runs, the secondary runs
on the primary's output, and `lf` is written last (R306). -/
def fdpProc (len : Nat) (fb : Word) (p : Pair) (x : Word) : Drawn (Word × Pair) := do
  let fed ← F32.mul fb p.lf
  let u ← F32.add x fed
  let (y, d0) := cdProc len p.d0 u
  let (s, d1) := cdProc len p.d1 y
  pure (y, { d0 := d0, d1 := d1, ly := y, lf := s })

/-- Pair time (R121): both delays are placed, each against its own write cursor. -/
def Pair.place (len : Nat) (p : Pair) (t : Nat) : Pair :=
  { p with d0 := p.d0.place len t, d1 := p.d1.place len t }

/-- AP_PROC (R140): `((-g) * x) + ((1.0 - g*g) * y)`, with `y` the pair's output under feedback `g`. -/
def apProc (len : Nat) (ap : Allpass) (x : Word) : Drawn (Word × Allpass) := do
  let (y, pair) ← fdpProc len ap.g ap.pair x
  let g2 ← F32.mul ap.g ap.g
  let direct ← F32.mul (F32.neg ap.g) x
  let weight ← F32.sub F32.one g2
  let wet ← F32.mul weight y
  let out ← F32.add direct wet
  pure (out, { ap with pair := pair })

/-- AP_SET_G (R141): one register is the filter's coefficient and the pair's (R38). -/
def execApSetG (u : UnitAddr) (g : Word) (s : State) : Result :=
  onAllpass u s fun e k =>
    .next (s.complete (e.setAp u.ch k { e.ap u.ch k with g := g }) s.nanDraws [])

/-- AP_SET_TIME (R142): the pair time of R121. -/
def execApSetTime (u : UnitAddr) (time : Word) (s : State) : Result :=
  onAllpass u s fun e k =>
    requireLength e.len <|
      let ap := e.ap u.ch k
      .next (s.complete (e.setAp u.ch k { ap with pair := ap.pair.place e.len (u32 time) }) s.nanDraws [])

/-- AP_PROCESS (R143). -/
def execApProcess (u : UnitAddr) (x : Word) (s : State) : Result :=
  onAllpass u s fun e k =>
    requireRange ((e.ap u.ch k).pair.inRange e.len) <|
      let r := (apProc e.len (e.ap u.ch k) x).run s.nanDraws
      .next (s.complete (e.setAp u.ch k r.1.2) r.2 [r.1.1])

/-- AP_FDP_PROCESS (R123): the inner pair alone, under the filter's `g`. -/
def execApFdpProcess (u : UnitAddr) (x : Word) (s : State) : Result :=
  onAllpass u s fun e k =>
    requireRange ((e.ap u.ch k).pair.inRange e.len) <|
      let ap := e.ap u.ch k
      let r := (fdpProc e.len ap.g ap.pair x).run s.nanDraws
      .next (s.complete (e.setAp u.ch k { ap with pair := r.1.2 }) r.2 [r.1.1])

end Sys2Proof.Machine
end

