-- ==== Sys2Proof/Machine/Degraded.lean ====
section
/-! DEFINITION. The downsampler (spec/43_downsampler.md) and the degraded feedback delay
(spec/44_degraded_feedback_delay.md). -/

namespace Sys2Proof.Machine

open F32 (Drawn)

/-- `ratio * p + (1.0 - ratio) * q`: the crossfade of R160 and the blend of R183. -/
def crossfade (ratio p q : Word) : Drawn Word := do
  let first ← F32.mul ratio p
  let rest ← F32.sub F32.one ratio
  let second ← F32.mul rest q
  F32.add first second

/-- The counter and held sample after one call: advance by 2 modulo `amount + 1`, then latch at 0 (R160). -/
def Downsampler.advance (d : Downsampler) (x : Word) : Downsampler :=
  let cnt := (d.cnt + 2) % (d.amount + 1)
  { d with cnt := cnt, held := if cnt = 0 then x else d.held }

/-- DS_PROC (R160): the advance comes before the latch test and the latch before the output. -/
def dsProc (d : Downsampler) (x ratio : Word) : Drawn (Word × Downsampler) := do
  let d' := d.advance x
  let out ← crossfade ratio d'.held x
  pure (out, d')

/-- DFD_PROC (R183): the downsampler runs on the raw feedback, and the blend of the two is what is stored (C2). -/
def dfdProc (len : Nat) (q : Degraded) (x : Word) : Drawn (Word × Degraded) := do
  let fed ← F32.mul q.fb q.lf
  let u ← F32.add x fed
  let (y, d0) := cdProc len q.d0 u
  let (r, d1) := cdProc len q.d1 y
  let (d, ds) ← dsProc q.ds r q.ratio
  let lf ← crossfade q.a d r
  pure (y, { q with ds := ds, d0 := d0, d1 := d1, ly := y, lf := lf })

/-- The time of both delays of the unit (R185, R121). -/
def Degraded.place (len : Nat) (q : Degraded) (t : Nat) : Degraded :=
  { q with d0 := q.d0.place len t, d1 := q.d1.place len t }

/-- DS_PROCESS (R161): the operand ratio is used; the stored one is not read or written. -/
def execDsProcess (u : UnitAddr) (x ratio : Word) (s : State) : Result :=
  onDegraded u s fun e k =>
    let q := e.dfd u.ch k
    let r := (dsProc q.ds x ratio).run s.nanDraws
    .next (s.complete (e.setDfd u.ch k { q with ds := r.1.2 }) r.2 [r.1.1])

/-- DFD_SET_FEEDBACK (R180). -/
def execDfdSetFeedback (u : UnitAddr) (fb : Word) (s : State) : Result :=
  onDegraded u s fun e k =>
    .next (s.complete (e.setDfd u.ch k { e.dfd u.ch k with fb := fb }) s.nanDraws [])

/-- DFD_SET_A (R181). -/
def execDfdSetA (u : UnitAddr) (a : Word) (s : State) : Result :=
  onDegraded u s fun e k =>
    .next (s.complete (e.setDfd u.ch k { e.dfd u.ch k with a := a }) s.nanDraws [])

/-- DFD_SET_AMOUNT (R182): a negative amount is E_AMOUNT (R278); the counter and held sample are kept. -/
def execDfdSetAmount (u : UnitAddr) (amount : Word) (s : State) : Result :=
  onDegraded u s fun e k =>
    if i32 amount < 0 then .next (s.fail .amount)
    else
      let q := e.dfd u.ch k
      .next (s.complete (e.setDfd u.ch k { q with ds := { q.ds with amount := (i32 amount).toNat } }) s.nanDraws [])

/-- DFD_SET_RATIO (R184). -/
def execDfdSetRatio (u : UnitAddr) (ratio : Word) (s : State) : Result :=
  onDegraded u s fun e k =>
    .next (s.complete (e.setDfd u.ch k { e.dfd u.ch k with ratio := ratio }) s.nanDraws [])

/-- DFD_SET_TIME (R185). -/
def execDfdSetTime (u : UnitAddr) (time : Word) (s : State) : Result :=
  onDegraded u s fun e k =>
    requireLength e.len <|
      .next (s.complete (e.setDfd u.ch k ((e.dfd u.ch k).place e.len (u32 time))) s.nanDraws [])

/-- DFD_PROCESS (R186). -/
def execDfdProcess (u : UnitAddr) (x : Word) (s : State) : Result :=
  onDegraded u s fun e k =>
    requireRange ((e.dfd u.ch k).inRange e.len) <|
      let r := (dfdProc e.len (e.dfd u.ch k) x).run s.nanDraws
      .next (s.complete (e.setDfd u.ch k r.1.2) r.2 [r.1.1])

end Sys2Proof.Machine
end

