-- ==== Sys2Proof/Machine/Frame.lean ====
section
/-! DEFINITION. ENG_FRAME (spec/46_engine.md): the whole network, one stereo sample. -/

namespace Sys2Proof.Machine

open F32 (Drawn)

/-- `amount_of` (R220): the truncated intensity, or none where it raises E_AMOUNT. -/
def amountOf (di : Word) : Option Nat :=
  if F32.lt F32.negOne di && F32.lt di F32.twoPow31 then
    some (if F32.isNeg di then 0 else F32.truncNat di)
  else none

/-- Step 1 (R221), once per frame: the resolved `g`, the threshold, and the Lfo, which steps in wacky mode only. -/
def resolveMode (sr : Word) (l : Lfo) (g gs : Word) : Drawn (Word × Word × Lfo) :=
  if F32.lt F32.wackyAbove gs then do
    let (osc, l') ← lfoProc sr l
    let depth ← F32.mul F32.lfoDepth osc
    let g' ← F32.add g depth
    pure (g', F32.quarter, l')
  else if F32.lt F32.forcedAbove gs then pure (F32.one, F32.one, l)
  else pure (g, F32.one, l)

/-- The coefficients of one DFD in step 2 (R222). -/
def Degraded.configure (q : Degraded) (g a : Word) (amount : Nat) (ratio : Word) : Degraded :=
  { q with fb := g, a := a, ratio := ratio, ds := { q.ds with amount := amount } }

/-- Step 2 (R222) for one channel: the sign alternates on the second allpass. -/
def Units.broadcast (u : Units) (g a : Word) (amount : Nat) (ratio : Word) : Units where
  ap0  := { u.ap0 with g := g }
  ap1  := { u.ap1 with g := F32.neg g }
  ap2  := { u.ap2 with g := g }
  dfd0 := u.dfd0.configure g a amount ratio
  dfd1 := u.dfd1.configure g a amount ratio
  dfd2 := u.dfd2.configure g a amount ratio
  dfd3 := u.dfd3.configure g a amount ratio

/-- Step 3 (R223) for one channel: the bank on one input, summed left to right and scaled by 0.5. -/
def Units.bank (len : Nat) (u : Units) (b : Word) : Drawn (Word × Units) := do
  let (o0, q0) ← dfdProc len u.dfd0 b
  let (o1, q1) ← dfdProc len u.dfd1 b
  let (o2, q2) ← dfdProc len u.dfd2 b
  let (o3, q3) ← dfdProc len u.dfd3 b
  let s1 ← F32.add o0 o1
  let s2 ← F32.add s1 o2
  let s3 ← F32.add s2 o3
  let w ← F32.mul s3 F32.half
  pure (w, { u with dfd0 := q0, dfd1 := q1, dfd2 := q2, dfd3 := q3 })

/-- Step 4 (R224) for one channel: the three allpasses in series. -/
def Units.cascade (len : Nat) (u : Units) (w : Word) : Drawn (Word × Units) := do
  let (c1, a0) ← apProc len u.ap0 w
  let (c2, a1) ← apProc len u.ap1 c1
  let (c3, a2) ← apProc len u.ap2 c2
  pure (c3, { u with ap0 := a0, ap1 := a1, ap2 := a2 })

/-- `clamp(v, th)` (R226): a NaN and a value inside the range pass bit for bit. -/
def clamp (v th : Word) : Word :=
  if F32.lt v (F32.neg th) then F32.neg th
  else if F32.lt th v then th
  else v

/-- Step 5 (R225) for one channel: the mix with the dry input, clamped. -/
def mix (g c3 dry th : Word) : Drawn Word := do
  let wet ← F32.mul g c3
  let v ← F32.add wet dry
  pure (clamp v th)

/-- The coefficients of one frame, as steps 1 and 2 resolve them for both channels. -/
structure Coeffs where
  g      : Word
  th     : Word
  a      : Word
  amount : Nat
  ratio  : Word
  deriving DecidableEq, Repr

/-- Steps 2 to 5 for one channel: `b` feeds the bank and `dry` the dry path (R227). -/
def Units.frame (len : Nat) (u : Units) (k : Coeffs) (b dry : Word) : Drawn (Word × Units) := do
  let (w, u1) ← (u.broadcast k.g k.a k.amount k.ratio).bank len b
  let (c3, u2) ← u1.cascade len w
  let out ← mix k.g c3 dry k.th
  pure (out, u2)

/-- The frame once its amount is known (R228): step 1, then the left channel, then the right; both banks take the left
input (R227), and `a = 1.0 - damping` is computed once (R222). -/
def engineFrame (e : Engine) (amount : Nat) (leftIn rightIn g damping speed selector : Word) :
    Drawn ((Word × Word) × Engine) := do
  let (g', th, lfo) ← resolveMode e.sr e.lfo g selector
  let a ← F32.sub F32.one damping
  let k : Coeffs := { g := g', th := th, a := a, amount := amount, ratio := speed }
  let (outL, left) ← e.left.frame e.len k leftIn leftIn
  let (outR, right) ← e.right.frame e.len k leftIn rightIn
  pure ((outL, outR), { e with lfo := lfo, left := left, right := right })

/-- ENG_FRAME (R228): the amount is checked before anything is written (R220, R272). -/
def execEngFrame (leftIn rightIn g damping intensity speed selector : Word) (s : State) : Result :=
  whenRunning s fun e =>
    match amountOf intensity with
    | none => .next (s.fail .amount)
    | some amount =>
      requireRange e.inRange <|
        let r := (engineFrame e amount leftIn rightIn g damping speed selector).run s.nanDraws
        .next (s.complete r.1.2 r.2 [r.1.1.1, r.1.1.2])

end Sys2Proof.Machine
end

