-- ==== Sys2Proof/Machine/Dispatch.lean ====
section
/-! DEFINITION. One arm per command (spec/30_encoding.md R84). -/

namespace Sys2Proof.Machine

def exec (i : Instr) (s : State) : Host.Outcome State Fault Refusal :=
  match i with
  | .nop => Sys2Proof.Machine.execNop s
  | .engInit sr => Sys2Proof.Machine.execEngInit sr s
  | .engFrame l r g da di sp se => Sys2Proof.Machine.execEngFrame l r g da di sp se s
  | .rdStatus => Sys2Proof.Machine.execRdStatus s
  | .cdSetTime d t => Sys2Proof.Machine.execCdSetTime d t s
  | .cdProcess d x => Sys2Proof.Machine.execCdProcess d x s
  | .apSetG u g => Sys2Proof.Machine.execApSetG u g s
  | .apSetTime u t => Sys2Proof.Machine.execApSetTime u t s
  | .apProcess u x => Sys2Proof.Machine.execApProcess u x s
  | .apFdpProcess u x => Sys2Proof.Machine.execApFdpProcess u x s
  | .dfdSetFeedback u fb => Sys2Proof.Machine.execDfdSetFeedback u fb s
  | .dfdSetA u a => Sys2Proof.Machine.execDfdSetA u a s
  | .dfdSetAmount u n => Sys2Proof.Machine.execDfdSetAmount u n s
  | .dfdSetRatio u r => Sys2Proof.Machine.execDfdSetRatio u r s
  | .dfdSetTime u t => Sys2Proof.Machine.execDfdSetTime u t s
  | .dfdProcess u x => Sys2Proof.Machine.execDfdProcess u x s
  | .dsProcess u x r => Sys2Proof.Machine.execDsProcess u x r s
  | .lfoSetFreq f => Sys2Proof.Machine.execLfoSetFreq f s
  | .lfoNext => Sys2Proof.Machine.execLfoNext s

end Sys2Proof.Machine
end

