-- ==== Sys2Proof/Machine/Step.lean ====
section
/-! DEFINITION. One step: the oldest command the host has sent is decoded and executed to completion (spec/30_encoding.md
R80, R89; spec/70_reset_and_hazards.md R303, R310). There is no program counter and no fetch from memory (R32, R74). -/

namespace Sys2Proof.Machine

/-- Decoding comes before every other check (R271); a command that does not decode is E_ILLEGAL (R274). -/
def runCommand (c : Command) (s : State) : Host.Outcome State Fault Refusal :=
  match decode c with
  | .ok i    => exec i s
  | .error _ => .next (s.fail .illegal)

/-- With no command sent the block is idle and all state is kept (R289; log entry 3). -/
def step (s : State) : Host.Outcome State Fault Refusal :=
  match takeCommand s with
  | none         => .next s
  | some (c, s') => runCommand c s'

/-- The state with one instruction placed where the step takes its next command (log entry 1). -/
def State.withFetchWord (s : State) (nbits w : Nat) : State :=
  { s with pending := commandOfTable nbits w :: s.pending }

end Sys2Proof.Machine
end

