-- ==== Sys2Proof/Machine/Assembly.lean ====
section
/-! DEFINITION. The assembly syntax and the pseudo-instructions (spec/30_encoding.md R90, R91). A line of a program is a
command or a pseudo-instruction; `assemble` gives the commands the host sends, `parseProgram` reads a program's text, and
`asm` writes a command in R90's syntax with exact bit patterns. -/

namespace Sys2Proof.Machine

/-- An f32 operand as R90 writes it. -/
inductive AsmFloat where
  /-- A decimal literal: a sign, and `digits / 10^scale`. -/
  | decimal (neg : Bool) (digits scale : Nat)
  /-- `f:0x<8 hex digits>`, an exact bit pattern. -/
  | bits (w : Word)
  deriving DecidableEq, Repr

/-- The word of an f32 operand: a decimal literal is the nearest binary32 value (R90, R12). -/
def AsmFloat.word : AsmFloat → Word
  | .decimal neg digits scale => F32.pack neg (F32.roundBits (digits * 2 ^ 149) (10 ^ scale))
  | .bits w => w

/-- The word of a u32 or i32 operand, a decimal integer (R90, R83). -/
def asmInteger (z : Int) : Word := BitVec.ofInt 32 z

/-- The expansion of a pseudo-instruction, in R91's order. -/
def expandPseudo : Pseudo → List Instr
  | .apConfig u g time => [.apSetG u g, .apSetTime u time]
  | .dfdConfig u fb a amount ratio =>
    [.dfdSetFeedback u fb, .dfdSetA u a, .dfdSetAmount u amount, .dfdSetRatio u ratio]
  | .frameDefault l r =>
    [.engFrame l r F32.wackyAbove F32.posZero F32.posZero F32.posZero F32.posZero]

/-- A line of a program. -/
inductive AsmLine where
  | command (i : Instr)
  | pseudo (p : Pseudo)
  deriving DecidableEq, Repr

/-- The commands of a program, in order (R90, R91). -/
def assemble : List AsmLine → List Command
  | [] => []
  | .command i :: rest => encode i :: assemble rest
  | .pseudo p :: rest  => (expandPseudo p).map encode ++ assemble rest

/-! ### Reading a program (R90) -/

/-- The operand types of R83. -/
inductive OperandKind where
  | f32
  | u32
  | i32
  deriving DecidableEq, Repr

/-- The operand types of a row of R84, in order. -/
def Opcode.operandKinds : Opcode → List OperandKind
  | .nop            => []
  | .engInit        => [.f32]
  | .engFrame       => [.f32, .f32, .f32, .f32, .f32, .f32, .f32]
  | .rdStatus       => []
  | .cdSetTime      => [.u32]
  | .cdProcess      => [.f32]
  | .apSetG         => [.f32]
  | .apSetTime      => [.u32]
  | .apProcess      => [.f32]
  | .apFdpProcess   => [.f32]
  | .dfdSetFeedback => [.f32]
  | .dfdSetA        => [.f32]
  | .dfdSetAmount   => [.i32]
  | .dfdSetRatio    => [.f32]
  | .dfdSetTime     => [.u32]
  | .dfdProcess     => [.f32]
  | .dsProcess      => [.f32, .f32]
  | .lfoSetFreq     => [.f32]
  | .lfoNext        => []

/-- The mnemonic of a row of R84. -/
def Opcode.mnemonic : Opcode → String
  | .nop            => "NOP"
  | .engInit        => "ENG_INIT"
  | .engFrame       => "ENG_FRAME"
  | .rdStatus       => "RD_STATUS"
  | .cdSetTime      => "CD_SET_TIME"
  | .cdProcess      => "CD_PROCESS"
  | .apSetG         => "AP_SET_G"
  | .apSetTime      => "AP_SET_TIME"
  | .apProcess      => "AP_PROCESS"
  | .apFdpProcess   => "AP_FDP_PROCESS"
  | .dfdSetFeedback => "DFD_SET_FEEDBACK"
  | .dfdSetA        => "DFD_SET_A"
  | .dfdSetAmount   => "DFD_SET_AMOUNT"
  | .dfdSetRatio    => "DFD_SET_RATIO"
  | .dfdSetTime     => "DFD_SET_TIME"
  | .dfdProcess     => "DFD_PROCESS"
  | .dsProcess      => "DS_PROCESS"
  | .lfoSetFreq     => "LFO_SET_FREQ"
  | .lfoNext        => "LFO_NEXT"

/-- Text without the spaces at its ends. -/
def trimSpaces (cs : List Char) : List Char :=
  ((cs.dropWhile (· = ' ')).reverse.dropWhile (· = ' ')).reverse

def decimalDigit? (c : Char) : Option Nat :=
  if '0' ≤ c ∧ c ≤ '9' then some (c.toNat - '0'.toNat) else none

def hexDigit? (c : Char) : Option Nat :=
  if 'a' ≤ c ∧ c ≤ 'f' then some (c.toNat - 'a'.toNat + 10)
  else if 'A' ≤ c ∧ c ≤ 'F' then some (c.toNat - 'A'.toNat + 10)
  else decimalDigit? c

/-- A number written in a base. -/
def number? (digit : Char → Option Nat) (base : Nat) (cs : List Char) : Option Nat :=
  if cs = [] then none else cs.foldlM (fun n c => (digit c).map fun v => n * base + v) 0

def natural? (cs : List Char) : Option Nat := number? decimalDigit? 10 cs

/-- An optional sign, true for minus, and what follows it. -/
def splitSign : List Char → Bool × List Char
  | '-' :: rest => (true, rest)
  | '+' :: rest => (false, rest)
  | cs => (false, cs)

def integer? (cs : List Char) : Option Int :=
  let (neg, rest) := splitSign cs
  (natural? rest).map fun n => if neg then -(n : Int) else n

/-- An unsigned decimal literal `digits[.digits]`: all its digits, and how many stand after the point. -/
def mantissa? (cs : List Char) : Option (Nat × Nat) :=
  match cs.splitOn '.' with
  | [whole] => (natural? whole).map fun n => (n, 0)
  | [whole, fraction] => (natural? (whole ++ fraction)).map fun n => (n, fraction.length)
  | _ => none

/-- An f32 operand: a decimal literal, with an exponent of ten or without (DESIGN CHOICE, log entry 16), or an exact bit
pattern. -/
def float? (cs : List Char) : Option AsmFloat :=
  match cs with
  | 'f' :: ':' :: '0' :: 'x' :: hex =>
    if hex.length = 8 then (number? hexDigit? 16 hex).map fun n => .bits (BitVec.ofNat 32 n) else none
  | _ =>
    let (neg, rest) := splitSign cs
    match rest.splitOn 'e' with
    | [m] => (mantissa? m).map fun (digits, scale) => .decimal neg digits scale
    | [m, e] => do
      let (digits, scale) ← mantissa? m
      let exponent ← integer? e
      pure (.decimal neg (digits * 10 ^ exponent.toNat) (scale + (-exponent).toNat))
    | _ => none

/-- The word of an operand of a type (R83). -/
def operandWord? (kind : OperandKind) (cs : List Char) : Option Word :=
  match kind with
  | .f32 => (float? cs).map AsmFloat.word
  | .u32 => (natural? cs).bind fun n => if n < 2 ^ 32 then some (BitVec.ofNat 32 n) else none
  | .i32 => (integer? cs).bind fun z => if -2 ^ 31 ≤ z ∧ z < 2 ^ 31 then some (asmInteger z) else none

/-- Exactly as many operands as types. -/
def operandWords? : List OperandKind → List (List Char) → Option (List Word)
  | [], [] => some []
  | kind :: kinds, arg :: args => do
    let w ← operandWord? kind arg
    let ws ← operandWords? kinds args
    pure (w :: ws)
  | _, _ => none

/-- `<c>.<k>`, with any number that the three IDX bits hold (log entry 16). -/
def unitNumber? : List Char → Option UnitAddr
  | [c, '.', k] => do
    let ch ← if c = '0' then some Channel.left else if c = '1' then some Channel.right else none
    let idx ← decimalDigit? k
    if idx < 8 then some ⟨ch, idx⟩ else none
  | _ => none

def apUnit? : List Char → Option UnitAddr
  | 'a' :: 'p' :: rest => unitNumber? rest
  | _ => none

def dfdUnit? : List Char → Option UnitAddr
  | 'd' :: 'f' :: 'd' :: rest => unitNumber? rest
  | _ => none

/-- `cd.ap<c>.<k>.d<s>` or `cd.dfd<c>.<k>.d<s>`. -/
def delayUnit? : List Char → Option DelayAddr
  | 'c' :: 'd' :: '.' :: rest =>
    match rest.reverse with
    | s :: 'd' :: '.' :: host => do
      let sel ← if s = '0' then some DelaySel.primary else if s = '1' then some DelaySel.secondary else none
      match apUnit? host.reverse, dfdUnit? host.reverse with
      | some u, _ => some ⟨u.ch, u.idx, sel, .allpass⟩
      | none, some u => some ⟨u.ch, u.idx, sel, .degraded⟩
      | none, none => none
    | _ => none
  | _ => none

/-- The command word of a row from the unit operand's text, and the operands left (R81, R90). -/
def commandWord? (op : Opcode) (args : List (List Char)) : Option (Word × List (List Char)) :=
  match op.format, args with
  | .n, _ => some (op.matchWord, args)
  | .c, unit :: rest => (delayUnit? unit).map fun d => (encodeDelay op d, rest)
  | .u, unit :: rest =>
    match op with
    | .apSetG | .apSetTime | .apProcess | .apFdpProcess => (apUnit? unit).map fun u => (encodeUnit op u, rest)
    | _ => (dfdUnit? unit).map fun u => (encodeUnit op u, rest)
  | _, [] => none

/-- A command line's instruction. -/
def parseCommand? (op : Opcode) (args : List (List Char)) : Option Instr := do
  let (word, rest) ← commandWord? op args
  let ops ← operandWords? (Opcode.operandKinds op) rest
  (buildInstr op word ops).toOption

/-- The pseudo-instructions (R91). -/
def parsePseudo? (name : List Char) (args : List (List Char)) : Option Pseudo :=
  match args with
  | unit :: rest =>
    if name = "AP_CONFIG".toList then do
      match ← operandWords? [.f32, .u32] rest with
      | [g, time] => (apUnit? unit).map fun u => .apConfig u g time
      | _ => none
    else if name = "DFD_CONFIG".toList then do
      match ← operandWords? [.f32, .f32, .i32, .f32] rest with
      | [fb, a, amount, ratio] => (dfdUnit? unit).map fun u => .dfdConfig u fb a amount ratio
      | _ => none
    else if name = "FRAME_DEFAULT".toList then do
      match ← operandWords? [.f32, .f32] args with
      | [l, r] => some (.frameDefault l r)
      | _ => none
    else none
  | [] => none

/-- A line: a comment starts with `;`, and a line without a command gives nothing. -/
def parseLine (cs : List Char) : Option (List AsmLine) :=
  let text := trimSpaces (cs.takeWhile (· ≠ ';'))
  let name := text.takeWhile (· ≠ ' ')
  let rest := trimSpaces (text.dropWhile (· ≠ ' '))
  let args := if rest = [] then [] else (rest.splitOn ',').map trimSpaces
  if text = [] then some []
  else match Opcode.all.find? fun op => (Opcode.mnemonic op).toList = name with
    | some op => (parseCommand? op args).map fun i => [.command i]
    | none    => (parsePseudo? name args).map fun p => [.pseudo p]

/-- A program's text: one command per line. -/
def parseProgram (text : String) : Option (List AsmLine) :=
  ((text.toList.splitOn '\n').mapM parseLine).map List.flatten

/-! ### Writing a command (R90) -/

def channelDigit : Channel → String
  | .left  => "0"
  | .right => "1"

def selDigit : DelaySel → String
  | .primary   => "0"
  | .secondary => "1"

/-- `ap<c>.<k>`. -/
def apName (u : UnitAddr) : String := "ap" ++ channelDigit u.ch ++ "." ++ toString u.idx

/-- `dfd<c>.<k>`. -/
def dfdName (u : UnitAddr) : String := "dfd" ++ channelDigit u.ch ++ "." ++ toString u.idx

/-- `cd.ap<c>.<k>.d<s>` or `cd.dfd<c>.<k>.d<s>`. -/
def delayName (d : DelayAddr) : String :=
  match d.kind with
  | .allpass  => "cd." ++ apName ⟨d.ch, d.idx⟩ ++ ".d" ++ selDigit d.sel
  | .degraded => "cd." ++ dfdName ⟨d.ch, d.idx⟩ ++ ".d" ++ selDigit d.sel

/-- `f:0x<8 hex digits>`. -/
def floatText (w : Word) : String :=
  "f:0x" ++ String.ofList ((List.range 8).map fun k => Nat.digitChar (w.toNat / 16 ^ (7 - k) % 16))

/-- A u32 operand. -/
def natText (w : Word) : String := toString w.toNat

/-- An i32 operand. -/
def intText (w : Word) : String := toString w.toInt

/-- A command in R90's syntax: `MNEMONIC [unit,] operand, operand, ...`. -/
def asm : Instr → String
  | .nop                    => "NOP"
  | .engInit sr             => "ENG_INIT " ++ floatText sr
  | .engFrame l r g da di sp se =>
    "ENG_FRAME " ++ ", ".intercalate ([l, r, g, da, di, sp, se].map floatText)
  | .rdStatus               => "RD_STATUS"
  | .cdSetTime d t          => "CD_SET_TIME " ++ delayName d ++ ", " ++ natText t
  | .cdProcess d x          => "CD_PROCESS " ++ delayName d ++ ", " ++ floatText x
  | .apSetG u g             => "AP_SET_G " ++ apName u ++ ", " ++ floatText g
  | .apSetTime u t          => "AP_SET_TIME " ++ apName u ++ ", " ++ natText t
  | .apProcess u x          => "AP_PROCESS " ++ apName u ++ ", " ++ floatText x
  | .apFdpProcess u x       => "AP_FDP_PROCESS " ++ apName u ++ ", " ++ floatText x
  | .dfdSetFeedback u fb    => "DFD_SET_FEEDBACK " ++ dfdName u ++ ", " ++ floatText fb
  | .dfdSetA u a            => "DFD_SET_A " ++ dfdName u ++ ", " ++ floatText a
  | .dfdSetAmount u n       => "DFD_SET_AMOUNT " ++ dfdName u ++ ", " ++ intText n
  | .dfdSetRatio u r        => "DFD_SET_RATIO " ++ dfdName u ++ ", " ++ floatText r
  | .dfdSetTime u t         => "DFD_SET_TIME " ++ dfdName u ++ ", " ++ natText t
  | .dfdProcess u x         => "DFD_PROCESS " ++ dfdName u ++ ", " ++ floatText x
  | .dsProcess u x r        => "DS_PROCESS " ++ dfdName u ++ ", " ++ floatText x ++ ", " ++ floatText r
  | .lfoSetFreq f           => "LFO_SET_FREQ " ++ floatText f
  | .lfoNext                => "LFO_NEXT"

end Sys2Proof.Machine
end

