-- ==== Sys2Proof/Safety.lean ====
section
/-! DEFINITION. The terms the claims use: the invariant of the block, what a running block is, the registers and buffer
words that a frame speaks of, and the rules of the process operations as relations, in which an arithmetic result that is
a NaN is any NaN (spec/00_scope.md R14) and no draw is counted. -/

namespace Sys2Proof.Machine

/-! ### The invariant (spec/10_state.md) -/

/-- R35's legal combinations, reserved bits 0: CAUSE is 0 exactly when ERR is 0. -/
def statusLegal (st : Word) : Bool :=
  statusRead st == st && (statusErr st == (statusCause st != 0#4))

/-- R36, R60: cursors inside the buffer; the buffer's list canonical and inside `[0, L)`. -/
def Delay.ok (len : Nat) (d : Delay) : Bool := d.inRange len && d.buf.wf && d.buf.within len

def Pair.ok (len : Nat) (p : Pair) : Bool := p.d0.ok len && p.d1.ok len

/-- R39: the amount and the counter are below 2^31. -/
def Downsampler.ok (d : Downsampler) : Bool := decide (d.amount < 2 ^ 31) && decide (d.cnt < 2 ^ 31)

def Degraded.ok (len : Nat) (q : Degraded) : Bool := q.ds.ok && q.d0.ok len && q.d1.ok len

def Units.ok (len : Nat) (u : Units) : Bool :=
  u.ap0.pair.ok len && u.ap1.pair.ok len && u.ap2.pair.ok len
    && u.dfd0.ok len && u.dfd1.ok len && u.dfd2.ok len && u.dfd3.ok len

/-- R34 and R36 to R42: the rate is one ENG_INIT accepts, `ENG.L = floor(ENG.sr / 4)`, and every unit is sound. -/
def Engine.ok (cfg : Config.Params) (e : Engine) : Bool :=
  rateLegal cfg e.sr && decide (e.len = bufferLength e.sr) && decide (0 < e.len)
    && e.left.ok e.len && e.right.ok e.len

/-- The invariant: STATUS is legal, an initialised STATUS has an engine, and an engine is sound. -/
def State.ok (s : State) : Bool :=
  statusLegal s.status && (!statusInit s.status || s.engine.isSome)
    && s.engine.all fun e => e.ok s.cfg

/-- R41 and R202: the frequency is legal and `+0.0 <= LFO.phase < 1.0` (the bits of 1.0 bound the bits of the phase). -/
def Engine.lfoOk (e : Engine) : Bool :=
  freqLegal e.sr e.lfo.freq && decide (e.lfo.phase.toNat < F32.one.toNat)

/-- `lfoOk` of the engine, where there is one. -/
def State.lfoOk (s : State) : Bool := s.engine.all Engine.lfoOk

/-- STATUS.CAUSE is 0 or a code that R270 records. -/
def statusCauseRecorded (st : Word) : Bool :=
  [Code.ok, .illegal, .notInit, .rate, .amount, .lfoFreq].any fun c => c.number == statusCause st

/-- The block is initialised and not faulted, with this engine: the state in which a unit command passes checks 2 and 3
of R271. -/
structure State.Running (s : State) (e : Engine) : Prop where
  noErr  : statusErr s.status = false
  init   : statusInit s.status = true
  engine : s.engine = some e

/-- NOP, ENG_INIT and RD_STATUS, the commands R275 and R276 exempt. -/
def exempt : Instr → Bool
  | .nop | .engInit _ | .rdStatus => true
  | _ => false

/-! ### Registers and buffer words -/

/-- Every register of an engine (R34, R36 to R41). -/
inductive Reg where
  | engSr
  | engLen
  | lfoFreq
  | lfoPhase
  | apG     (c : Channel) (k : Fin 3)
  | apLy    (c : Channel) (k : Fin 3)
  | apLf    (c : Channel) (k : Fin 3)
  | dfdFb    (c : Channel) (k : Fin 4)
  | dfdA     (c : Channel) (k : Fin 4)
  | dfdRatio (c : Channel) (k : Fin 4)
  | dfdLy    (c : Channel) (k : Fin 4)
  | dfdLf    (c : Channel) (k : Fin 4)
  | dsAmount (c : Channel) (k : Fin 4)
  | dsCnt    (c : Channel) (k : Fin 4)
  | dsHeld   (c : Channel) (k : Fin 4)
  | cursorW (d : Slot)
  | cursorR (d : Slot)
  | last    (d : Slot)
  deriving DecidableEq, Repr

/-- A register's value, a word as its unsigned integer. -/
def Engine.reg (e : Engine) : Reg → Nat
  | .engSr        => e.sr.toNat
  | .engLen       => e.len
  | .lfoFreq      => e.lfo.freq.toNat
  | .lfoPhase     => e.lfo.phase.toNat
  | .apG c k      => (e.ap c k).g.toNat
  | .apLy c k     => (e.ap c k).pair.ly.toNat
  | .apLf c k     => (e.ap c k).pair.lf.toNat
  | .dfdFb c k    => (e.dfd c k).fb.toNat
  | .dfdA c k     => (e.dfd c k).a.toNat
  | .dfdRatio c k => (e.dfd c k).ratio.toNat
  | .dfdLy c k    => (e.dfd c k).ly.toNat
  | .dfdLf c k    => (e.dfd c k).lf.toNat
  | .dsAmount c k => (e.dfd c k).ds.amount
  | .dsCnt c k    => (e.dfd c k).ds.cnt
  | .dsHeld c k   => (e.dfd c k).ds.held.toNat
  | .cursorW d    => (e.delay d).w
  | .cursorR d    => (e.delay d).r
  | .last d       => (e.delay d).last.toNat

/-- The word at an index of one buffer. -/
def Engine.wordAt (e : Engine) (d : Slot) (i : Nat) : Word := (e.delay d).buf.read i

/-- The registers and the buffer words that may differ between two engines. -/
structure Touched where
  regs  : List Reg
  words : List (Slot × Nat)

/-- Every other register, and every other word of every buffer, is the same. -/
structure Engine.AgreeOutside (e e' : Engine) (m : Touched) : Prop where
  regs  : ∀ r, r ∉ m.regs → e'.reg r = e.reg r
  words : ∀ d i, (d, i) ∉ m.words → e'.wordAt d i = e.wordAt d i

/-- The frame of a command that does not write STATUS when it completes: the parameters, the queue and STATUS are as
before, and the engine differs at most in `m`. -/
structure State.Frame (s t : State) (e : Engine) (m : Touched) : Prop where
  cfg     : t.cfg = s.cfg
  pending : t.pending = s.pending
  status  : t.status = s.status
  engine  : ∃ e', t.engine = some e' ∧ e.AgreeOutside e' m

/-- What one CD_PROCESS on a delay may write: both cursors, `last`, and the word at its write cursor (R102). -/
def Engine.pushTouches (e : Engine) (d : Slot) : Touched :=
  ⟨[.cursorW d, .cursorR d, .last d], [(d, (e.delay d).w)]⟩

def Touched.and (m n : Touched) : Touched := ⟨m.regs ++ n.regs, m.words ++ n.words⟩

/-- What a pair process may write (R120). -/
def Engine.pairTouches (e : Engine) (c : Channel) (k : Fin 3) : Touched :=
  (e.pushTouches (.ap c k .primary)).and <| (e.pushTouches (.ap c k .secondary)).and ⟨[.apLy c k, .apLf c k], []⟩

/-- What a DFD process may write (R183). -/
def Engine.dfdTouches (e : Engine) (c : Channel) (k : Fin 4) : Touched :=
  (e.pushTouches (.dfd c k .primary)).and <| (e.pushTouches (.dfd c k .secondary)).and
    ⟨[.dfdLy c k, .dfdLf c k, .dsCnt c k, .dsHeld c k], []⟩

/-! ### Arithmetic results as relations (R12, R14) -/

/-- `z` is a result `o` allows: the word itself, or any NaN. -/
def F32.Yields (o : Option Word) (z : Word) : Prop :=
  match o with
  | some w => z = w
  | none   => F32.isNaN z = true

abbrev F32.Sum  (x y z : Word) : Prop := F32.Yields (F32.addNum x y) z
abbrev F32.Diff (x y z : Word) : Prop := F32.Yields (F32.subNum x y) z
abbrev F32.Prod (x y z : Word) : Prop := F32.Yields (F32.mulNum x y) z
abbrev F32.Quot (x y z : Word) : Prop := F32.Yields (F32.divNum x y) z
abbrev F32.Sine (x z : Word) : Prop := F32.Yields (F32.sinNum x) z

/-- `z` lies in `[-b, b]` or is a NaN. -/
def F32.NaNOrWithin (b z : Word) : Prop := F32.isNaN z = true ∨ (F32.le (F32.neg b) z = true ∧ F32.le z b = true)

/-- How far the binary32 magnitude with bits `m` is from `a / b` units, times `b`. -/
def F32.distance (a b m : Nat) : Nat := ((F32.unitsOfBits m * b : Int) - a).natAbs

/-- `m` is the magnitude nearest `a / b` units of 2^-149, the even one of two equally near; infinity exactly from half a
unit in the last place above the largest finite value on (R12: round to nearest, ties to even). -/
structure F32.RoundsTo (a b m : Nat) : Prop where
  bound   : m ≤ 0x7F800000
  nearest : m < 0x7F800000 → ∀ m', m' < 0x7F800000 → F32.distance a b m ≤ F32.distance a b m'
  even    : m < 0x7F800000 → ∀ m', m' < 0x7F800000 → m' ≠ m → F32.distance a b m' = F32.distance a b m → m % 2 = 0
  inf     : m = 0x7F800000 ↔ ((2 ^ 24 - 1) * 2 ^ 253 + 2 ^ 252) * b ≤ a

/-! ### The process operations as relations -/

/-- CD_PROCESS (R102): `y` is returned, `x` is stored, nothing else in the buffer changes, both cursors advance. -/
structure Pushed (len : Nat) (d : Delay) (x y : Word) (d' : Delay) : Prop where
  result : y = if d.r = d.w then x else d.buf.read d.r
  stored : d'.buf.read d.w = x
  others : ∀ i, i ≠ d.w → d'.buf.read i = d.buf.read i
  write  : d'.w = (d.w + 1) % len
  read   : d'.r = (d.r + 1) % len
  last   : d'.last = y

/-- FDP_PROCESS (R120). -/
def FdpStep (len : Nat) (fb : Word) (p : Pair) (x y : Word) (p' : Pair) : Prop :=
  ∃ fed u, F32.Prod fb p.lf fed ∧ F32.Sum x fed u ∧ Pushed len p.d0 u y p'.d0
    ∧ Pushed len p.d1 y p'.lf p'.d1 ∧ p'.ly = y

/-- AP_PROC (R140). -/
def ApStep (len : Nat) (ap : Allpass) (x out : Word) (ap' : Allpass) : Prop :=
  ∃ y g2 direct weight wet, FdpStep len ap.g ap.pair x y ap'.pair ∧ F32.Prod ap.g ap.g g2
    ∧ F32.Prod (F32.neg ap.g) x direct ∧ F32.Diff F32.one g2 weight ∧ F32.Prod weight y wet
    ∧ F32.Sum direct wet out ∧ ap'.g = ap.g

/-- `(ratio * p) + ((1.0 - ratio) * q)` (R160, R183). -/
def CrossfadeOf (ratio p q z : Word) : Prop :=
  ∃ first rest second, F32.Prod ratio p first ∧ F32.Diff F32.one ratio rest ∧ F32.Prod rest q second
    ∧ F32.Sum first second z

/-- DS_PROC (R160). -/
structure DsStep (d : Downsampler) (x ratio out : Word) (d' : Downsampler) : Prop where
  amount : d'.amount = d.amount
  cnt    : d'.cnt = (d.cnt + 2) % (d.amount + 1)
  held   : d'.held = if d'.cnt = 0 then x else d.held
  result : CrossfadeOf ratio d'.held x out

/-- DFD_PROC (R183). -/
def DfdStep (len : Nat) (q : Degraded) (x y : Word) (q' : Degraded) : Prop :=
  ∃ fed u r d, F32.Prod q.fb q.lf fed ∧ F32.Sum x fed u ∧ Pushed len q.d0 u y q'.d0 ∧ Pushed len q.d1 y r q'.d1
    ∧ DsStep q.ds r q.ratio d q'.ds ∧ CrossfadeOf q.a d r q'.lf ∧ q'.ly = y
    ∧ q'.fb = q.fb ∧ q'.a = q.a ∧ q'.ratio = q.ratio

/-- LFO_PROC (R200). -/
def LfoStep (sr : Word) (l : Lfo) (out : Word) (l' : Lfo) : Prop :=
  ∃ t arg inc p, F32.Prod l.phase F32.tau t ∧ F32.Prod t t arg ∧ F32.Sine arg out ∧ F32.Quot l.freq sr inc
    ∧ F32.Sum l.phase inc p
    ∧ (if F32.le F32.one p = true then F32.Diff p F32.one l'.phase else l'.phase = p) ∧ l'.freq = l.freq

/-- Step 1 of a frame (R221). -/
def ModeStep (sr : Word) (l : Lfo) (gIn gs g th : Word) (l' : Lfo) : Prop :=
  if F32.lt F32.wackyAbove gs = true then
    th = F32.quarter ∧ ∃ osc depth, LfoStep sr l osc l' ∧ F32.Prod F32.lfoDepth osc depth ∧ F32.Sum gIn depth g
  else if F32.lt F32.forcedAbove gs = true then g = F32.one ∧ th = F32.one ∧ l' = l
  else g = gIn ∧ th = F32.one ∧ l' = l

/-- Step 3 of a frame for one channel (R223). -/
def BankStep (len : Nat) (u : Units) (b w : Word) (u' : Units) : Prop :=
  ∃ o0 o1 o2 o3 s1 s2 s3, DfdStep len u.dfd0 b o0 u'.dfd0 ∧ DfdStep len u.dfd1 b o1 u'.dfd1
    ∧ DfdStep len u.dfd2 b o2 u'.dfd2 ∧ DfdStep len u.dfd3 b o3 u'.dfd3
    ∧ F32.Sum o0 o1 s1 ∧ F32.Sum s1 o2 s2 ∧ F32.Sum s2 o3 s3 ∧ F32.Prod s3 F32.half w

/-- Step 4 of a frame for one channel (R224). -/
def CascadeStep (len : Nat) (u : Units) (w c3 : Word) (u' : Units) : Prop :=
  ∃ c1 c2, ApStep len u.ap0 w c1 u'.ap0 ∧ ApStep len u.ap1 c1 c2 u'.ap1 ∧ ApStep len u.ap2 c2 c3 u'.ap2

/-- Step 5 of a frame for one channel (R225, R226). -/
def MixStep (g c3 dry th out : Word) : Prop :=
  ∃ wet v, F32.Prod g c3 wet ∧ F32.Sum wet dry v
    ∧ out = if F32.lt v (F32.neg th) = true then F32.neg th else if F32.lt th v = true then th else v

/-- Steps 2 to 5 of a frame for one channel: the bank takes `b`, the dry path takes `dry` (R222 to R227). -/
def ChannelStep (len : Nat) (u : Units) (k : Coeffs) (b dry out : Word) (u' : Units) : Prop :=
  ∃ w c3, BankStep len (u.broadcast k.g k.a k.amount k.ratio) b w u'
    ∧ CascadeStep len (u.broadcast k.g k.a k.amount k.ratio) w c3 u' ∧ MixStep k.g c3 dry k.th out

/-- ENG_FRAME after its amount check (R228). -/
def FrameStep (e : Engine) (amount : Nat) (leftIn rightIn g damping speed selector outL outR : Word) (e' : Engine) :
    Prop :=
  ∃ k : Coeffs, ModeStep e.sr e.lfo g selector k.g k.th e'.lfo ∧ F32.Diff F32.one damping k.a ∧ k.amount = amount
    ∧ k.ratio = speed ∧ ChannelStep e.len e.left k leftIn leftIn outL e'.left
    ∧ ChannelStep e.len e.right k leftIn rightIn outR e'.right ∧ e'.sr = e.sr ∧ e'.len = e.len

/-! ### Runs of one unit -/

/-- The delay after CD_PROCESS calls with these inputs, in order. -/
def Delay.afterAll (len : Nat) (d : Delay) : List Word → Delay
  | [] => d
  | x :: xs => Delay.afterAll len (cdProc len d x).2 xs

/-- The word the next CD_PROCESS returns, after calls with these inputs. -/
def Delay.outputAfter (len : Nat) (d : Delay) (xs : List Word) (x : Word) : Word :=
  (cdProc len (d.afterAll len xs) x).1

/-- The downsampler after calls with these inputs, in order. -/
def Downsampler.afterAll (d : Downsampler) : List Word → Downsampler
  | [] => d
  | x :: xs => Downsampler.afterAll (d.advance x) xs

end Sys2Proof.Machine
end

