-- ==== Sys2Proof/Certificates/Slice0/Obligations.lean ====
section
/-! DEFINITION. The statements for the provers, from the numbered rules of spec/. A result that is a NaN is any NaN
(spec/00_scope.md R14): the relations of Safety.lean say so, and no statement rests on the count of draws or on the
OPEN parameters' reference values. -/

open Sys2Proof Sys2Proof.Machine

/-! ### Power-on and the control commands -/

/-- R46, R300, R289: at power-on STATUS is 0, no engine exists and no command is sent; and from every state a step with no
command sent keeps all state (that a step then answers at all is log entry 3's). -/
def Obligations.PowerOnStatusZeroEngineAbsent : Prop :=
  State.reset.status = 0x00000000#32 ∧ State.reset.engine = none ∧ State.reset.pending = []
    ∧ ∀ s : State, s.pending = [] → step s = .next s

/-- The invariants hold at power-on (derived; the model's own invariant). -/
def Obligations.PowerOnMeetsInvariants : Prop :=
  State.reset.ok = true ∧ State.reset.lfoOk = true

/-- R250: NOP reads and writes no state and answers OK, in every state; its one encoding is 0x00000000, and every other
word of its opcode is E_ILLEGAL. -/
def Obligations.NopOnlyAnswersOk : Prop :=
  (∀ s : State, exec .nop s = .next { s with response := some ⟨.ok, []⟩ })
    ∧ encode .nop = ⟨0x00000000#32, []⟩
    ∧ ∀ (s : State) (w : Word) (rest : List Command), opcField w = 0x00#8 → w ≠ 0x00000000#32 →
        step { s with pending := ⟨w, []⟩ :: rest } = .next (({ s with pending := rest } : State).fail .illegal)

/-- R252, R35: RD_STATUS answers OK with STATUS and writes nothing, in every state; every reserved bit reads 0, and a
STATUS whose reserved bits are 0 reads as it is. -/
def Obligations.ReadStatusAnswersStatus : Prop :=
  (∀ s : State, ∃ v, exec .rdStatus s = .next { s with response := some ⟨.ok, [v]⟩ }
      ∧ (∀ b, b < 32 → v.getLsbD b = (s.status.getLsbD b && (b == 0 || b == 1 || (4 ≤ b && b ≤ 7 : Bool)))))
    ∧ ∀ s : State, statusLegal s.status = true → exec .rdStatus s = .next { s with response := some ⟨.ok, [s.status]⟩ }

/-- R251, R45: a legal ENG_INIT answers OK in every state and leaves every register at R45's value, every buffer word
0x00000000, and STATUS 0x00000001. A bank delay's time is the function `bankTime`: that it gives the source's counts at
exactly 44100.0 whatever the parameter is the model's reading (log entry 13). -/
def Obligations.EngInitConstructsEngine : Prop :=
  ∀ (s : State) (sr : Word), F32.le F32.four sr = true → F32.lt sr F32.posInf = true →
    (∀ m, s.cfg.maxLen = some m → bufferLength sr ≤ m) →
    F32.le F32.posZero s.cfg.lfoFreq = true → F32.lt s.cfg.lfoFreq sr = true →
    ∃ e, exec (.engInit sr) s = .next { s with
        status := 0x00000001#32, engine := some e, response := some ⟨.ok, []⟩ }
      ∧ e.sr = sr ∧ e.len = bufferLength sr ∧ e.lfo = ⟨s.cfg.lfoFreq, 0x00000000#32⟩
      ∧ (∀ d i, e.wordAt d i = 0x00000000#32)
      ∧ (∀ d, e.reg (.cursorW d) = 0 ∧ e.reg (.last d) = 0)
      ∧ (∀ c k sel, e.reg (.cursorR (.ap c k sel)) = (e.len - apTime s.cfg k % e.len) % e.len)
      ∧ (∀ c k sel, e.reg (.cursorR (.dfd c k sel)) = (e.len - bankTime s.cfg sr k % e.len) % e.len)
      ∧ (∀ c k, e.reg (.apG c k) = 0 ∧ e.reg (.apLy c k) = 0 ∧ e.reg (.apLf c k) = 0)
      ∧ (∀ c k, e.reg (.dfdFb c k) = 0 ∧ e.reg (.dfdA c k) = 0 ∧ e.reg (.dfdRatio c k) = 0 ∧ e.reg (.dfdLy c k) = 0
          ∧ e.reg (.dfdLf c k) = 0 ∧ e.reg (.dsAmount c k) = 0 ∧ e.reg (.dsCnt c k) = 0 ∧ e.reg (.dsHeld c k) = 0)

/-- R34, R105: for a rate ENG_INIT accepts, the buffer length is the floor of a quarter of it (units are 2^-149, so 4 is
2^151 of them), and it is at least 1. -/
def Obligations.BufferLengthIsFloorOfQuarterRate : Prop :=
  ∀ sr : Word, F32.le F32.four sr = true → F32.lt sr F32.posInf = true →
    bufferLength sr * 2 ^ 151 ≤ F32.units sr ∧ F32.units sr < (bufferLength sr + 1) * 2 ^ 151 ∧ 1 ≤ bufferLength sr

/-- R251, R273, R277, R279: a sample rate that is NaN, infinite, below 4.0 or too long for MAX_LEN is E_RATE; a legal one
with an illegal LFO_FREQ is E_LFOFREQ; both write only STATUS: INIT = 0, ERR = 1, CAUSE = the code. -/
def Obligations.EngInitRejectsBadRateOrFrequency : Prop :=
  (∀ (s : State) (sr : Word),
      (F32.isNaN sr = true ∨ F32.isInf sr = true ∨ F32.lt sr F32.four = true
        ∨ ∃ m, s.cfg.maxLen = some m ∧ m < bufferLength sr) →
      exec (.engInit sr) s = .next { s with status := 0x00000042#32, response := some ⟨.rate, []⟩ })
    ∧ ∀ (s : State) (sr : Word), F32.le F32.four sr = true → F32.lt sr F32.posInf = true →
      (∀ m, s.cfg.maxLen = some m → bufferLength sr ≤ m) →
      (F32.isNaN s.cfg.lfoFreq = true ∨ F32.lt s.cfg.lfoFreq F32.posZero = true ∨ F32.le sr s.cfg.lfoFreq = true) →
      exec (.engInit sr) s = .next { s with status := 0x00000062#32, response := some ⟨.lfoFreq, []⟩ }

/-! ### Errors -/

/-- R275: while STATUS.ERR = 1 every legal command but NOP, ENG_INIT and RD_STATUS answers E_FAULTED with no result words
and changes nothing. -/
def Obligations.FaultedBlockRefusesWork : Prop :=
  ∀ (i : Instr) (s : State), i.wf = true → exempt i = false → statusErr s.status = true →
    exec i s = .next { s with response := some ⟨.faulted, []⟩ }

/-- R276: before a successful ENG_INIT, with ERR = 0, every legal command but NOP, ENG_INIT and RD_STATUS answers
E_NOTINIT; only STATUS is written (ERR = 1, and CAUSE when it was 0). -/
def Obligations.UninitialisedBlockRefusesWork : Prop :=
  ∀ (i : Instr) (s : State), i.wf = true → exempt i = false → statusErr s.status = false →
    statusInit s.status = false →
    ∃ st, exec i s = .next { s with status := st, response := some ⟨.notInit, []⟩ }
      ∧ statusErr st = true ∧ statusInit st = false ∧ (statusCause s.status = 0#4 → statusCause st = 3#4)

/-- R271, R274: a command that does not decode answers E_ILLEGAL before any other check, whatever STATUS is, and writes
only STATUS; so does an instruction that names no unit. That the first clause holds of a faulted block too, where R283 says
E_FAULTED in passing, is the model's reading (log entry 15); the second clause is log entry 14's. -/
def Obligations.IllegalCommandAnswersIllegal : Prop :=
  (∀ (s : State) (c : Command) (rest : List Command) (err : DecodeError), s.pending = c :: rest →
      decode c = .error err →
      step s = .next { s with
        pending := rest, status := statusAfterError .illegal s.status, response := some ⟨.illegal, []⟩ })
    ∧ ∀ (i : Instr) (s : State), i.wf = false →
      exec i s = .next { s with status := statusAfterError .illegal s.status, response := some ⟨.illegal, []⟩ }

/-- R272: a command that fails returns no result words and writes no state other than STATUS (the command leaves the
queue, and the count of NaN draws is as before). -/
def Obligations.FailedCommandWritesOnlyStatus : Prop :=
  ∀ (s t : State) (c : Command) (rest : List Command) (r : Response), s.pending = c :: rest → step s = .next t →
    t.response = some r → r.code ≠ .ok →
    t = { s with pending := rest, status := t.status, response := some ⟨r.code, []⟩ }

/-- R273: STATUS after any error but E_FAULTED: a command that decoded as ENG_INIT leaves INIT = 0, ERR = 1, CAUSE = its
code; any other leaves ERR = 1, INIT as it was, and CAUSE its code if it was 0 and as it was if not. E_FAULTED leaves
STATUS unchanged. -/
def Obligations.StatusAfterFailedCommand : Prop :=
  ∀ (s t : State) (c : Command) (rest : List Command) (r : Response), s.pending = c :: rest → step s = .next t →
    t.response = some r → r.code ≠ .ok →
    (r.code = .faulted → t.status = s.status)
      ∧ (r.code ≠ .faulted → (∃ sr, decode c = .ok (.engInit sr)) →
          statusInit t.status = false ∧ statusErr t.status = true ∧ statusCause t.status = r.code.number)
      ∧ (r.code ≠ .faulted → (¬∃ sr, decode c = .ok (.engInit sr)) →
          statusInit t.status = statusInit s.status ∧ statusErr t.status = true
            ∧ statusCause t.status = if statusCause s.status = 0#4 then r.code.number else statusCause s.status)

/-- R283: the only command that takes the block out of the faulted state is an ENG_INIT that succeeds, and it rebuilds
the engine and clears ERR and CAUSE. -/
def Obligations.OnlyEngInitLeavesFaultedState : Prop :=
  ∀ s t : State, statusErr s.status = true → step s = .next t → statusErr t.status = false →
    ∃ c rest sr, s.pending = c :: rest ∧ decode c = .ok (.engInit sr) ∧ t.status = 0x00000001#32
      ∧ t.engine = some (freshEngine s.cfg sr) ∧ t.response = some ⟨.ok, []⟩

/-! ### Circular delays -/

/-- R100, R101: CD_SET_TIME answers OK; the read cursor goes `T` samples behind the write cursor and nothing else changes;
the effective delay `(w - r) mod L` is then `T mod L`. -/
def Obligations.SetTimePlacesReadCursor : Prop :=
  ∀ (s : State) (e : Engine) (a : DelayAddr) (d : Slot) (time : Word), s.Running e → slot? a = some d → 0 < e.len →
    ∃ r, exec (.cdSetTime a time) s = .next { s with
        engine := some (e.setDelay d { e.delay d with r := r }), response := some ⟨.ok, []⟩ }
      ∧ r = ((e.delay d).w + e.len - time.toNat % e.len) % e.len ∧ r < e.len
      ∧ ((e.delay d).w < e.len → ((e.delay d).w + e.len - r) % e.len = time.toNat % e.len)

/-- R102: CD_PROCESS answers OK with the word at the read cursor after the write (so a delay of 0 returns its input);
the input is stored at the write cursor, no other word of the buffer changes, both cursors advance modulo L, `last` is the
word returned, and no other unit changes. -/
def Obligations.CdProcessPushesOneSample : Prop :=
  ∀ (s : State) (e : Engine) (a : DelayAddr) (d : Slot) (x : Word), s.Running e → slot? a = some d →
    (e.delay d).ok e.len = true →
    ∃ y d', exec (.cdProcess a x) s = .next { s with
        engine := some (e.setDelay d d'), response := some ⟨.ok, [y]⟩ }
      ∧ Pushed e.len (e.delay d) x y d'

/-- R103: with the delay `D = (w - r) mod L`, call `n` returns the input of call `n - D` when `n >= D`, and the word the
buffer held at `(r + n) mod L` before the calls when `n < D`; right after ENG_INIT that word is +0.0 (an inference the spec marks as
derived from R100 and R102). -/
def Obligations.DelayReturnsInputDelayed : Prop :=
  ∀ (len : Nat) (d : Delay) (xs : List Word) (x : Word), d.ok len = true →
    d.outputAfter len xs x =
      (if (d.w + len - d.r) % len ≤ xs.length then (xs ++ [x]).getD (xs.length - (d.w + len - d.r) % len) 0x00000000#32
       else d.buf.read ((d.r + xs.length) % len))
      ∧ ∀ t i, (freshDelay len t).buf.read i = 0x00000000#32

/-- R104: a delay just initialised with time `T < L` answers an impulse with 1.0 exactly at call `T` and +0.0 at every
other call while the input stays 0.0; and after `set_time(0)` every call returns its own input, for all n (an inference
the spec marks as derived from R103). -/
def Obligations.ImpulseAppearsAtDelayTime : Prop :=
  (∀ (len t n : Nat), t < len →
      (freshDelay len t).outputAfter len ((F32.one :: List.replicate n F32.posZero).take n)
          (if n = 0 then F32.one else F32.posZero)
        = if n = t then F32.one else F32.posZero)
    ∧ ∀ (len : Nat) (d : Delay) (xs : List Word) (x : Word), d.ok len = true → (d.place len 0).outputAfter len xs x = x

/-! ### Pairs and allpasses -/

/-- R141, R38: AP_SET_G answers OK and stores the word unchanged in the one register that is both the filter's and the
pair's coefficient. -/
def Obligations.ApSetGStoresCoefficient : Prop :=
  ∀ (s : State) (e : Engine) (c : Channel) (k : Fin 3) (g : Word), s.Running e →
    ∃ e', exec (.apSetG ⟨c, k⟩ g) s = .next { s with engine := some e', response := some ⟨.ok, []⟩ }
      ∧ e'.reg (.apG c k) = g.toNat ∧ e.AgreeOutside e' ⟨[.apG c k], []⟩

/-- R142, R121: AP_SET_TIME answers OK and places both delays of the pair, each against its own write cursor. -/
def Obligations.ApSetTimePlacesBothDelays : Prop :=
  ∀ (s : State) (e : Engine) (c : Channel) (k : Fin 3) (time : Word), s.Running e → 0 < e.len →
    ∃ e', exec (.apSetTime ⟨c, k⟩ time) s = .next { s with engine := some e', response := some ⟨.ok, []⟩ }
      ∧ (∀ sel, e'.reg (.cursorR (.ap c k sel))
          = (e.reg (.cursorW (.ap c k sel)) + e.len - time.toNat % e.len) % e.len)
      ∧ e.AgreeOutside e' ⟨[.cursorR (.ap c k .primary), .cursorR (.ap c k .secondary)], []⟩

/-- R123, R120: AP_FDP_PROCESS answers OK with the primary delay's output; the feedback product uses the stored `lf`, the
secondary delay runs on the primary's output and its output is the new `lf`; nothing but this pair changes. -/
def Obligations.ApFdpProcessStepsPair : Prop :=
  ∀ (s : State) (e : Engine) (c : Channel) (k : Fin 3) (x : Word), s.Running e → (e.ap c k).pair.ok e.len = true →
    ∃ y p' n, exec (.apFdpProcess ⟨c, k⟩ x) s = .next { s with
        engine := some (e.setAp c k ⟨(e.ap c k).g, p'⟩), nanDraws := n, response := some ⟨.ok, [y]⟩ }
      ∧ FdpStep e.len (e.ap c k).g (e.ap c k).pair x y p'

/-- R143, R140: AP_PROCESS answers OK with `((-g) * x) + ((1.0 - g*g) * y)`, `y` being the pair's output; the pair is
stepped once and nothing else changes. -/
def Obligations.ApProcessAnswersAllpassFormula : Prop :=
  ∀ (s : State) (e : Engine) (c : Channel) (k : Fin 3) (x : Word), s.Running e → (e.ap c k).pair.ok e.len = true →
    ∃ out ap' n, exec (.apProcess ⟨c, k⟩ x) s = .next { s with
        engine := some (e.setAp c k ap'), nanDraws := n, response := some ⟨.ok, [out]⟩ }
      ∧ ApStep e.len (e.ap c k) x out ap'

/-! ### Downsamplers and degraded feedback delays -/

/-- R161, R160: DS_PROCESS answers OK with the crossfade of the held sample and the input under the operand ratio; the
counter advances by 2 modulo `amount + 1` and latches at 0; the stored ratio and everything else are as before. -/
def Obligations.DsProcessAdvancesAndCrossfades : Prop :=
  ∀ (s : State) (e : Engine) (c : Channel) (k : Fin 4) (x ratio : Word), s.Running e →
    ∃ out ds' n, exec (.dsProcess ⟨c, k⟩ x ratio) s = .next { s with
        engine := some (e.setDfd c k { e.dfd c k with ds := ds' }), nanDraws := n, response := some ⟨.ok, [out]⟩ }
      ∧ DsStep (e.dfd c k).ds x ratio out ds'

/-- R162: under a constant modulus `m = amount + 1` the counter after `j >= 1` calls is `(c0 + 2j) mod m`, so call `j`
latches exactly when that is 0; and with `m` even and `c0` odd no call ever latches (an inference the spec marks as
derived from R160). -/
def Obligations.LatchPatternFollowsModulus : Prop :=
  (∀ (d : Downsampler) (xs : List Word) (x : Word),
      (d.afterAll (xs ++ [x])).cnt = (d.cnt + 2 * (xs.length + 1)) % (d.amount + 1)
        ∧ (d.afterAll (xs ++ [x])).held
            = if (d.cnt + 2 * (xs.length + 1)) % (d.amount + 1) = 0 then x else (d.afterAll xs).held)
    ∧ ∀ (d : Downsampler) (xs : List Word), (d.amount + 1) % 2 = 0 → d.cnt % 2 = 1 → (d.afterAll xs).held = d.held

/-- R180, R181, R184: the three coefficient setters of a DFD answer OK, store the word unchanged and change nothing
else. -/
def Obligations.DfdSettersStoreCoefficients : Prop :=
  ∀ (s : State) (e : Engine) (c : Channel) (k : Fin 4) (v : Word), s.Running e →
    (∃ e', exec (.dfdSetFeedback ⟨c, k⟩ v) s = .next { s with engine := some e', response := some ⟨.ok, []⟩ }
        ∧ e'.reg (.dfdFb c k) = v.toNat ∧ e.AgreeOutside e' ⟨[.dfdFb c k], []⟩)
      ∧ (∃ e', exec (.dfdSetA ⟨c, k⟩ v) s = .next { s with engine := some e', response := some ⟨.ok, []⟩ }
        ∧ e'.reg (.dfdA c k) = v.toNat ∧ e.AgreeOutside e' ⟨[.dfdA c k], []⟩)
      ∧ (∃ e', exec (.dfdSetRatio ⟨c, k⟩ v) s = .next { s with engine := some e', response := some ⟨.ok, []⟩ }
        ∧ e'.reg (.dfdRatio c k) = v.toNat ∧ e.AgreeOutside e' ⟨[.dfdRatio c k], []⟩)

/-- R182, R278: DFD_SET_AMOUNT answers OK for a non-negative i32 and stores it, keeping the counter, the held sample and
everything else; a negative one answers E_AMOUNT and leaves the engine as it was. -/
def Obligations.DfdSetAmountChecksSign : Prop :=
  ∀ (s : State) (e : Engine) (c : Channel) (k : Fin 4) (v : Word), s.Running e →
    (v.toNat < 2 ^ 31 →
      ∃ e', exec (.dfdSetAmount ⟨c, k⟩ v) s = .next { s with engine := some e', response := some ⟨.ok, []⟩ }
        ∧ e'.reg (.dsAmount c k) = v.toNat ∧ e.AgreeOutside e' ⟨[.dsAmount c k], []⟩)
      ∧ (2 ^ 31 ≤ v.toNat → exec (.dfdSetAmount ⟨c, k⟩ v) s = .next { s with
          status := statusAfterError .amount s.status, response := some ⟨.amount, []⟩ })

/-- R185: DFD_SET_TIME answers OK and places both delays of the unit, each against its own write cursor. -/
def Obligations.DfdSetTimePlacesBothDelays : Prop :=
  ∀ (s : State) (e : Engine) (c : Channel) (k : Fin 4) (time : Word), s.Running e → 0 < e.len →
    ∃ e', exec (.dfdSetTime ⟨c, k⟩ time) s = .next { s with engine := some e', response := some ⟨.ok, []⟩ }
      ∧ (∀ sel, e'.reg (.cursorR (.dfd c k sel))
          = (e.reg (.cursorW (.dfd c k sel)) + e.len - time.toNat % e.len) % e.len)
      ∧ e.AgreeOutside e' ⟨[.cursorR (.dfd c k .primary), .cursorR (.dfd c k .secondary)], []⟩

/-- R186, R183: DFD_PROCESS answers OK with the primary delay's output; the downsampler runs on the secondary's output and
the blend of the two under `a` is the new `lf`; nothing but this unit changes. -/
def Obligations.DfdProcessStepsUnit : Prop :=
  ∀ (s : State) (e : Engine) (c : Channel) (k : Fin 4) (x : Word), s.Running e → (e.dfd c k).ok e.len = true →
    ∃ y q' n, exec (.dfdProcess ⟨c, k⟩ x) s = .next { s with
        engine := some (e.setDfd c k q'), nanDraws := n, response := some ⟨.ok, [y]⟩ }
      ∧ DfdStep e.len (e.dfd c k) x y q'

/-! ### The Lfo -/

/-- R201, R200: LFO_NEXT answers OK with `SIN(t * t)`, `t` the phase before the advance times TAU, and advances and wraps
the phase; nothing else changes. SIN, otherwise free, gives +0.0 at +0.0 and a value in `[-1.0, 1.0]` at a finite
argument. -/
def Obligations.LfoNextStepsOscillator : Prop :=
  (∀ (s : State) (e : Engine), s.Running e →
    ∃ y l' n, exec .lfoNext s = .next { s with
        engine := some { e with lfo := l' }, nanDraws := n, response := some ⟨.ok, [y]⟩ }
      ∧ LfoStep e.sr e.lfo y l')
    ∧ F32.sin F32.posZero = F32.posZero
    ∧ ∀ v, F32.isFinite v = true → F32.le F32.negOne (F32.sin v) = true ∧ F32.le (F32.sin v) F32.one = true

/-- R202, R279: LFO_SET_FREQ stores a frequency in `[0, ENG.sr)` and keeps the phase; a NaN, a negative or a too large one
answers E_LFOFREQ and leaves the engine as it was. -/
def Obligations.LfoSetFreqChecksRange : Prop :=
  ∀ (s : State) (e : Engine) (f : Word), s.Running e →
    (F32.le F32.posZero f = true → F32.lt f e.sr = true →
      exec (.lfoSetFreq f) s = .next { s with
        engine := some { e with lfo := ⟨f, e.lfo.phase⟩ }, response := some ⟨.ok, []⟩ })
      ∧ ((F32.isNaN f = true ∨ F32.lt f F32.posZero = true ∨ F32.le e.sr f = true) →
        exec (.lfoSetFreq f) s = .next { s with
          status := statusAfterError .lfoFreq s.status, response := some ⟨.lfoFreq, []⟩ })

/-- R203, R41: every step keeps `+0.0 <= LFO.phase < 1.0` and a legal frequency, from every state that meets the
invariant, whatever the command and the operands (an inference the spec marks as derived from R200, R202 and R251). -/
def Obligations.PhaseStaysInUnitInterval : Prop :=
  ∀ s t : State, s.ok = true → s.lfoOk = true → step s = .next t → t.lfoOk = true

/-- R204: from a state that meets the invariants, LFO_NEXT answers a word in `[-1.0, 1.0]` (an inference the spec
marks as derived from R200 and R203). -/
def Obligations.LfoOutputStaysInRange : Prop :=
  ∀ (s : State) (e : Engine), s.Running e → s.ok = true → s.lfoOk = true →
    ∃ t y, exec .lfoNext s = .next t ∧ t.response = some ⟨.ok, [y]⟩
      ∧ F32.le F32.negOne y = true ∧ F32.le y F32.one = true

/-! ### Frames of sound (ENG_FRAME) -/

/-- R220, R278: a `degrade_intensity` above -1.0 and below 2^31 is truncated to an integer (the magnitude rounded down, and
0 for a negative one); any other, a NaN among them, makes ENG_FRAME answer E_AMOUNT with nothing written but STATUS. -/
def Obligations.IntensityTruncatesOrFails : Prop :=
  (∀ di : Word, F32.lt F32.negOne di = true → F32.lt di F32.twoPow31 = true →
      ∃ n, amountOf di = some n ∧ n ≤ 2 ^ 31 - 128 ∧ n * 2 ^ 149 ≤ F32.units di ∧ F32.units di < (n + 1) * 2 ^ 149)
    ∧ ∀ (s : State) (e : Engine) (l r g da di sp se : Word), s.Running e →
      (F32.isNaN di = true ∨ F32.le di F32.negOne = true ∨ F32.le F32.twoPow31 di = true) →
      exec (.engFrame l r g da di sp se) s = .next { s with
        status := statusAfterError .amount s.status, response := some ⟨.amount, []⟩ }

/-- R228 with R221 to R227: ENG_FRAME answers OK with one word per channel. The mode is resolved once; the coefficients are
broadcast to both channels; each bank takes the left input; each bank's scaled sum goes through the three allpasses; the
result is mixed with the channel's own dry input and clamped. That the second allpass takes the flipped bits of a resolved
`g` that is a NaN is the model's reading (log entry 11). -/
def Obligations.FrameRunsTheWholeNetwork : Prop :=
  ∀ (s : State) (e : Engine) (l r g da di sp se : Word) (amount : Nat), s.Running e → e.ok s.cfg = true →
    amountOf di = some amount →
    ∃ outL outR e' n, exec (.engFrame l r g da di sp se) s = .next { s with
        engine := some e', nanDraws := n, response := some ⟨.ok, [outL, outR]⟩ }
      ∧ FrameStep e amount l r g da sp se outL outR e'

/-- R222 with R221: after a frame that completes, on both channels, the allpass coefficients are `g`, `-g`, `g` and every
DFD has feedback `g`, blend `1.0 - damping` (one word for all), amount the truncated intensity and ratio
`degrade_speed`, where `g` is the operand in normal mode, 1.0 in forced mode, and in wacky mode the operand plus 0.1 times
the output of the one Lfo step. That `-g` of a NaN has that NaN's flipped bits is the model's reading (log entry 11). -/
def Obligations.FrameBroadcastsCoefficients : Prop :=
  ∀ (s t : State) (e e' : Engine) (l r g da di sp se : Word) (rs : List Word), s.engine = some e →
    exec (.engFrame l r g da di sp se) s = .next t → t.response = some ⟨.ok, rs⟩ → t.engine = some e' →
    ∃ (g' a : Word) (amount : Nat), F32.Diff F32.one da a ∧ amountOf di = some amount
      ∧ (F32.lt F32.wackyAbove se = true → ∃ osc depth, LfoStep e.sr e.lfo osc e'.lfo
          ∧ F32.Prod F32.lfoDepth osc depth ∧ F32.Sum g depth g')
      ∧ (F32.lt F32.wackyAbove se = false → g' = if F32.lt F32.forcedAbove se = true then F32.one else g)
      ∧ ∀ c, (e'.ap c 0).g = g' ∧ (e'.ap c 1).g = F32.neg g' ∧ (e'.ap c 2).g = g'
        ∧ ∀ k, (e'.dfd c k).fb = g' ∧ (e'.dfd c k).a = a ∧ (e'.dfd c k).ds.amount = amount ∧ (e'.dfd c k).ratio = sp

/-- R230, R226, R221: every output of a frame is a NaN or lies in `[-th, th]`, with `th` 0.25 in wacky mode and 1.0
otherwise; there are two of them (an inference the spec marks as derived from R226). -/
def Obligations.FrameOutputsAreBounded : Prop :=
  ∀ (s t : State) (l r g da di sp se : Word) (rs : List Word),
    exec (.engFrame l r g da di sp se) s = .next t → t.response = some ⟨.ok, rs⟩ →
    rs.length = 2 ∧ ∀ y ∈ rs, F32.NaNOrWithin (if F32.lt F32.wackyAbove se = true then F32.quarter else F32.one) y

/-- R226: the clamp with a threshold of 0.25 or 1.0: a NaN and a value in `[-th, th]` pass bit for bit, a value above gives
`th` (so +inf does), one below gives `-th` (so -inf does). -/
def Obligations.ClampPassesNaNAndInRange : Prop :=
  ∀ v th : Word, th = F32.quarter ∨ th = F32.one →
    (F32.isNaN v = true → clamp v th = v)
      ∧ (F32.le (F32.neg th) v = true → F32.le v th = true → clamp v th = v)
      ∧ (F32.lt th v = true → clamp v th = th) ∧ (F32.lt v (F32.neg th) = true → clamp v th = F32.neg th)

/-- R227: the right input reaches the right output only: two frames that differ in it alone leave the same engine and
answer the same left word. Where a result is a NaN, that both frames give it the same bits is the model's choice: both
runs take the same free draws (log entry 4), the left channel's before the right's (log entry 12). -/
def Obligations.RightInputReachesRightOutputOnly : Prop :=
  ∀ (s t t' : State) (l r r' g da di sp se : Word),
    exec (.engFrame l r g da di sp se) s = .next t → exec (.engFrame l r' g da di sp se) s = .next t' →
    t.engine = t'.engine ∧ t.status = t'.status
      ∧ ∃ resp resp', t.response = some resp ∧ t'.response = some resp' ∧ resp.code = resp'.code
        ∧ resp.results.head? = resp'.results.head?

/-! ### What commands leave unchanged -/

/-- The frame of the coefficient setters when they complete: one register, no buffer word, no STATUS. -/
def Obligations.CoefficientSettersFrame : Prop :=
  ∀ (s t : State) (e : Engine) (v : Word) (rs : List Word), s.engine = some e → t.response = some ⟨.ok, rs⟩ →
    (∀ c (k : Fin 3), exec (.apSetG ⟨c, k⟩ v) s = .next t → s.Frame t e ⟨[.apG c k], []⟩)
      ∧ (∀ c (k : Fin 4),
          (exec (.dfdSetFeedback ⟨c, k⟩ v) s = .next t → s.Frame t e ⟨[.dfdFb c k], []⟩)
            ∧ (exec (.dfdSetA ⟨c, k⟩ v) s = .next t → s.Frame t e ⟨[.dfdA c k], []⟩)
            ∧ (exec (.dfdSetRatio ⟨c, k⟩ v) s = .next t → s.Frame t e ⟨[.dfdRatio c k], []⟩)
            ∧ (exec (.dfdSetAmount ⟨c, k⟩ v) s = .next t → s.Frame t e ⟨[.dsAmount c k], []⟩))
      ∧ (exec (.lfoSetFreq v) s = .next t → s.Frame t e ⟨[.lfoFreq], []⟩)

/-- The frame of the time setters when they complete: the read cursors they place, no buffer word, no STATUS. -/
def Obligations.TimeSettersFrame : Prop :=
  ∀ (s t : State) (e : Engine) (v : Word) (rs : List Word), s.engine = some e → t.response = some ⟨.ok, rs⟩ →
    (∀ a d, slot? a = some d → exec (.cdSetTime a v) s = .next t → s.Frame t e ⟨[.cursorR d], []⟩)
      ∧ (∀ c (k : Fin 3), exec (.apSetTime ⟨c, k⟩ v) s = .next t →
          s.Frame t e ⟨[.cursorR (.ap c k .primary), .cursorR (.ap c k .secondary)], []⟩)
      ∧ (∀ c (k : Fin 4), exec (.dfdSetTime ⟨c, k⟩ v) s = .next t →
          s.Frame t e ⟨[.cursorR (.dfd c k .primary), .cursorR (.dfd c k .secondary)], []⟩)

/-- The frame of the process commands of one unit when they complete: the unit's own cursors, last outputs and counters,
and in each buffer they push to the one word at its write cursor; every other register and buffer word, and STATUS, are
as before. -/
def Obligations.ProcessCommandsFrame : Prop :=
  ∀ (s t : State) (e : Engine) (x y : Word) (rs : List Word), s.engine = some e → t.response = some ⟨.ok, rs⟩ →
    (∀ a d, slot? a = some d → exec (.cdProcess a x) s = .next t → s.Frame t e (e.pushTouches d))
      ∧ (∀ c (k : Fin 3), (exec (.apProcess ⟨c, k⟩ x) s = .next t → s.Frame t e (e.pairTouches c k))
          ∧ (exec (.apFdpProcess ⟨c, k⟩ x) s = .next t → s.Frame t e (e.pairTouches c k)))
      ∧ (∀ c (k : Fin 4), (exec (.dfdProcess ⟨c, k⟩ x) s = .next t → s.Frame t e (e.dfdTouches c k))
          ∧ (exec (.dsProcess ⟨c, k⟩ x y) s = .next t → s.Frame t e ⟨[.dsCnt c k, .dsHeld c k], []⟩))
      ∧ (exec .lfoNext s = .next t → s.Frame t e ⟨[.lfoPhase], []⟩)

/-- The frame of ENG_FRAME when it completes: the rate, the length and the Lfo frequency are as before, the phase too
unless the mode is wacky (R221), and in every one of the 28 buffers every word but the one at its write cursor; STATUS,
the parameters and the queue are as before. -/
def Obligations.EngFrameFrame : Prop :=
  ∀ (s t : State) (e : Engine) (l r g da di sp se : Word) (rs : List Word), s.engine = some e →
    exec (.engFrame l r g da di sp se) s = .next t → t.response = some ⟨.ok, rs⟩ →
    t.cfg = s.cfg ∧ t.pending = s.pending ∧ t.status = s.status
      ∧ ∃ e', t.engine = some e' ∧ e'.sr = e.sr ∧ e'.len = e.len ∧ e'.lfo.freq = e.lfo.freq
        ∧ (F32.lt F32.wackyAbove se = false → e'.lfo.phase = e.lfo.phase)
        ∧ ∀ d i, i ≠ (e.delay d).w → e'.wordAt d i = e.wordAt d i

/-! ### Encoding -/

/-- A step runs the decoded command: the oldest command is taken off the queue and, when it decodes, the step is exec of
it (R80, R89, R303). -/
def Obligations.StepRunsDecodedCommand : Prop :=
  ∀ (s : State) (c : Command) (rest : List Command) (i : Instr), s.pending = c :: rest → decode c = .ok i →
    step s = exec i { s with pending := rest }

/-- R81, R84, R89, R65: decoding the words of a well-formed instruction gives it back, with every operand and every unit,
and so does decoding its bytes on the transport. -/
def Obligations.DecodeOfEncode : Prop :=
  ∀ i : Instr, i.wf = true → decode (encode i) = .ok i ∧ decodeBytes (encode i).toBytes = .ok i

/-- R81, R82, R85, R89: a command that decodes has exactly the words of the instruction it decodes to, which is well
formed; so every word has one meaning and no bit of a legal command is ignored. -/
def Obligations.EncodeOfDecode : Prop :=
  ∀ (c : Command) (i : Instr), decode c = .ok i → encode i = c ∧ i.wf = true

/-- Words written out from R81 and R84 decode to the commands they stand for (R90's and the rules' own examples among
them). -/
def Obligations.KnownWordsDecode : Prop :=
  decode ⟨0x11000000#32, [0x3F800000#32]⟩ = .ok (.cdProcess ⟨.left, 0, .primary, .allpass⟩ 0x3F800000#32)
    ∧ decode ⟨0x34B00000#32, [0x0000073C#32]⟩ = .ok (.dfdSetTime ⟨.right, 3⟩ 0x0000073C#32)
    ∧ decode ⟨0x20A00000#32, [0x3F333333#32]⟩ = .ok (.apSetG ⟨.right, 2⟩ 0x3F333333#32)
    ∧ decode ⟨0x01000000#32, [0x472C4400#32]⟩ = .ok (.engInit 0x472C4400#32)
    ∧ decode ⟨0x41000000#32, []⟩ = .ok .lfoNext

/-- R86: every opcode value outside R84's table is reserved: whatever the other bits and the operands, the command answers
E_ILLEGAL and has no effect but on STATUS; and no encoding but NOP's own decodes to NOP. -/
def Obligations.ReservedOpcodesAreRejected : Prop :=
  (∀ c : Command, decode c = .ok .nop → c = ⟨0x00000000#32, []⟩) ∧ ∀ c : Command,
    ((0x04 ≤ (opcField c.word).toNat ∧ (opcField c.word).toNat ≤ 0x0F)
      ∨ (0x12 ≤ (opcField c.word).toNat ∧ (opcField c.word).toNat ≤ 0x1F)
      ∨ (0x24 ≤ (opcField c.word).toNat ∧ (opcField c.word).toNat ≤ 0x2F)
      ∨ (opcField c.word).toNat = 0x36 ∨ (opcField c.word).toNat = 0x37
      ∨ (0x39 ≤ (opcField c.word).toNat ∧ (opcField c.word).toNat ≤ 0x3F)
      ∨ 0x42 ≤ (opcField c.word).toNat) →
    decode c = .error .reservedOpcode
      ∧ ∀ (s : State) (rest : List Command), s.pending = c :: rest → step s = .next { s with
          pending := rest, status := statusAfterError .illegal s.status, response := some ⟨.illegal, []⟩ }

/-- R87: a command whose operand-word count differs from R84's for its opcode answers E_ILLEGAL and has no effect but on
STATUS. -/
def Obligations.WrongOperandCountIsRejected : Prop :=
  ∀ (c : Command) (op : Opcode), opcField c.word = op.code → c.ops.length ≠ op.operandCount →
    ∀ (s : State) (rest : List Command), s.pending = c :: rest → step s = .next { s with
      pending := rest, status := statusAfterError .illegal s.status, response := some ⟨.illegal, []⟩ }

/-! ### Arithmetic -/

/-- R12: sums, differences, products and quotients of finite values are rounded to the nearest binary32, ties to even:
with `a / b` the exact magnitude in units of 2^-149, the magnitude bits of the result satisfy `RoundsTo a b`. A sum that is
exactly zero is +0.0 unless both operands are -0.0, and a difference is +0.0 unless it is -0.0 less +0.0. Unary minus of
any word, finite or not, flips bit 31 and keeps the others (of a NaN too: log entry 11). -/
def Obligations.ArithmeticRoundsToNearestEven : Prop :=
  (∀ x y : Word, F32.isFinite x = true → F32.isFinite y = true →
    (∃ z, F32.addNum x y = some z
        ∧ F32.RoundsTo (F32.signedUnits x + F32.signedUnits y).natAbs 1 (F32.magBits z)
        ∧ (F32.signedUnits x + F32.signedUnits y < 0 → F32.isNeg z = true)
        ∧ (0 < F32.signedUnits x + F32.signedUnits y → F32.isNeg z = false)
        ∧ (F32.signedUnits x + F32.signedUnits y = 0 →
          z = if x = F32.negZero ∧ y = F32.negZero then F32.negZero else F32.posZero))
      ∧ (∃ z, F32.subNum x y = some z
        ∧ F32.RoundsTo (F32.signedUnits x - F32.signedUnits y).natAbs 1 (F32.magBits z)
        ∧ (F32.signedUnits x - F32.signedUnits y < 0 → F32.isNeg z = true)
        ∧ (0 < F32.signedUnits x - F32.signedUnits y → F32.isNeg z = false)
        ∧ (F32.signedUnits x - F32.signedUnits y = 0 →
          z = if x = F32.negZero ∧ y = F32.posZero then F32.negZero else F32.posZero))
      ∧ (∃ z, F32.mulNum x y = some z ∧ F32.RoundsTo (F32.units x * F32.units y) (2 ^ 149) (F32.magBits z)
        ∧ F32.isNeg z = (F32.isNeg x != F32.isNeg y))
      ∧ (F32.isZero y = false →
        ∃ z, F32.divNum x y = some z ∧ F32.RoundsTo (F32.units x * 2 ^ 149) (F32.units y) (F32.magBits z)
          ∧ F32.isNeg z = (F32.isNeg x != F32.isNeg y)))
    ∧ ∀ (v : Word) (b : Nat), b < 32 → (F32.neg v).getLsbD b = (v.getLsbD b != (b == 31))

/-- R12, R14, R280: arithmetic outside the finite values, which raises nothing. A result is a NaN exactly when an operand
is one or the operation is inf - inf, 0 * inf, inf / inf or 0 / 0. Otherwise an infinite operand of a sum or a difference
gives its own infinity; a product with an infinity, a quotient of one and a quotient by zero are the infinity, and a
quotient by an infinity the zero, whose sign is negative exactly when the operands' signs differ. -/
def Obligations.ArithmeticOfInfinitiesZerosAndNaNs : Prop :=
  ∀ x y inf zero : Word,
    inf = (if F32.isNeg x = F32.isNeg y then 0x7F800000#32 else 0xFF800000#32) →
    zero = (if F32.isNeg x = F32.isNeg y then 0x00000000#32 else 0x80000000#32) →
    ((F32.addNum x y = none ↔ F32.isNaN x = true ∨ F32.isNaN y = true
          ∨ (F32.isInf x = true ∧ F32.isInf y = true ∧ F32.isNeg x ≠ F32.isNeg y))
        ∧ (F32.isInf x = true → F32.isFinite y = true → F32.addNum x y = some x)
        ∧ (F32.isFinite x = true → F32.isInf y = true → F32.addNum x y = some y)
        ∧ (F32.isInf x = true → F32.isInf y = true → F32.isNeg x = F32.isNeg y → F32.addNum x y = some x))
      ∧ ((F32.subNum x y = none ↔ F32.isNaN x = true ∨ F32.isNaN y = true
          ∨ (F32.isInf x = true ∧ F32.isInf y = true ∧ F32.isNeg x = F32.isNeg y))
        ∧ (F32.isInf x = true → F32.isFinite y = true → F32.subNum x y = some x)
        ∧ (F32.isFinite x = true → F32.isInf y = true →
          F32.subNum x y = some (if F32.isNeg y = true then 0x7F800000#32 else 0xFF800000#32))
        ∧ (F32.isInf x = true → F32.isInf y = true → F32.isNeg x ≠ F32.isNeg y → F32.subNum x y = some x))
      ∧ ((F32.mulNum x y = none ↔ F32.isNaN x = true ∨ F32.isNaN y = true
          ∨ (F32.isZero x = true ∧ F32.isInf y = true) ∨ (F32.isInf x = true ∧ F32.isZero y = true))
        ∧ (F32.isInf x = true → F32.isNaN y = false → F32.isZero y = false → F32.mulNum x y = some inf)
        ∧ (F32.isInf y = true → F32.isNaN x = false → F32.isZero x = false → F32.mulNum x y = some inf))
      ∧ ((F32.divNum x y = none ↔ F32.isNaN x = true ∨ F32.isNaN y = true
          ∨ (F32.isInf x = true ∧ F32.isInf y = true) ∨ (F32.isZero x = true ∧ F32.isZero y = true))
        ∧ (F32.isInf x = true → F32.isFinite y = true → F32.divNum x y = some inf)
        ∧ (F32.isFinite x = true → F32.isInf y = true → F32.divNum x y = some zero)
        ∧ (F32.isFinite x = true → F32.isZero x = false → F32.isZero y = true → F32.divNum x y = some inf))

/-- R13: the ordered comparisons: false with a NaN operand, and otherwise the order of the values, so that the two zeros are
equal (`signedUnits` of an infinity is its bits read as one more binade, beyond every finite value). -/
def Obligations.ComparisonsFollowValues : Prop :=
  ∀ x y : Word,
    ((F32.isNaN x = true ∨ F32.isNaN y = true) → F32.lt x y = false ∧ F32.le x y = false)
      ∧ (F32.isNaN x = false → F32.isNaN y = false →
        (F32.lt x y = true ↔ F32.signedUnits x < F32.signedUnits y)
          ∧ (F32.le x y = true ↔ F32.signedUnits x ≤ F32.signedUnits y))

/-! ### Invariants -/

/-- R34 to R41: every step keeps the invariant: a legal STATUS, an engine behind an initialised STATUS, a rate ENG_INIT
accepts with `ENG.L` its quarter's floor, every cursor inside its buffer, every buffer in canonical form inside `[0, L)`,
and every amount and counter below 2^31. -/
def Obligations.StepKeepsInvariant : Prop :=
  ∀ s t : State, s.ok = true → step s = .next t → t.ok = true

/-- R61: from a state that meets the invariant no access falls outside a buffer: every step answers a next state, whatever
the command (an inference the spec marks as derived from R100 and R102). -/
def Obligations.InvariantNeverStops : Prop :=
  ∀ s : State, s.ok = true → ∃ t, step s = .next t

/-- R270: the recorded causes are 0 and the codes 1, 3, 4, 5 and 6: E_FAULTED is not recorded and codes 7 to 15 are never
produced. -/
def Obligations.CauseIsARecordedCode : Prop :=
  ∀ s t : State, statusCauseRecorded s.status = true → step s = .next t → statusCauseRecorded t.status = true

/-- R34, R63: the rate and the length change only by a successful ENG_INIT; and no command changes the OPEN parameters (the
last is the model's own, log entry 6). -/
def Obligations.RateAndLengthFixedByEngInit : Prop :=
  ∀ s t : State, step s = .next t →
    t.cfg = s.cfg ∧ ∀ e, s.engine = some e →
      (∃ e', t.engine = some e' ∧ e'.sr = e.sr ∧ e'.len = e.len)
        ∨ ∃ c rest sr, s.pending = c :: rest ∧ decode c = .ok (.engInit sr) ∧ t.response = some ⟨.ok, []⟩
end

