-- ==== Sys2Proof/Laws/Memory.lean ====
section
/-! SUPPORT. The laws of a buffer (spec/20_memory.md R60 to R64, R70): a read gives the last write to its index, a write
leaves every other index alone, and every operation keeps the canonical form. -/

namespace Sys2Proof.Machine

@[simp] theorem Memory.read_zeroFill (i : Nat) : Memory.read Memory.zeroFill i = 0x00000000#32 := rfl

@[simp] theorem Memory.wf_zeroFill : Memory.wf Memory.zeroFill = true := rfl

@[simp] theorem Memory.within_zeroFill (len : Nat) : Memory.within len Memory.zeroFill = true := rfl

/-- A lower bound may be lowered. -/
theorem Memory.wfFrom_mono {lo lo' : Nat} {m : Memory} (h : Memory.wfFrom lo m = true) (hle : lo' ≤ lo) :
    Memory.wfFrom lo' m = true := by
  cases m with
  | nil => rfl
  | cons c m =>
    simp only [wfFrom, Bool.and_eq_true, decide_eq_true_eq] at h ⊢
    exact ⟨⟨hle.trans h.1.1, h.1.2⟩, h.2⟩

/-- Below the lower bound nothing is listed. -/
theorem Memory.read_below {lo i : Nat} {m : Memory} (h : Memory.wfFrom lo m = true) (hi : i < lo) :
    Memory.read m i = 0x00000000#32 := by
  induction m generalizing lo with
  | nil => rfl
  | cons c m ih =>
    simp only [wfFrom, Bool.and_eq_true, decide_eq_true_eq] at h
    have hne : ¬ i = c.1 := by omega
    simp only [read, hne, if_false]
    exact ih h.2 (by omega)

/-- A write leaves every other index alone, whatever the list. -/
theorem Memory.read_write_other {m : Memory} {i j : Nat} (v : Word) (h : j ≠ i) :
    Memory.read (Memory.write m i v) j = Memory.read m j := by
  induction m with
  | nil => by_cases hv : v = 0x00000000#32 <;> simp [write, read, hv, h]
  | cons c m ih =>
    simp only [write]
    split_ifs with h1 h2 h3 h4
    · rfl
    · simp [read, h]
    · have : j ≠ c.1 := h3 ▸ h
      simp [read, this]
    · have : j ≠ c.1 := h3 ▸ h
      simp [read, this, h]
    · simp only [read, ih]

theorem Memory.read_write_self_from {lo : Nat} {m : Memory} {i : Nat} (v : Word) (h : Memory.wfFrom lo m = true) :
    Memory.read (Memory.write m i v) i = v := by
  induction m generalizing lo with
  | nil => by_cases hv : v = 0x00000000#32 <;> simp [write, read, hv]
  | cons c m ih =>
    simp only [wfFrom, Bool.and_eq_true, decide_eq_true_eq] at h
    simp only [write]
    split_ifs with h1 h2 h3 h4
    · have hne : ¬ i = c.1 := by omega
      simp only [read, hne, if_false, h2]
      exact read_below h.2 (by omega)
    · simp [read]
    · rw [h4]
      exact read_below h.2 (by omega)
    · simp [read]
    · simp only [read, h3, if_false]
      exact ih h.2

/-- A read after a write to the same index gives the word written, bit for bit (R64). -/
theorem Memory.read_write_self {m : Memory} {i : Nat} (v : Word) (h : m.wf = true) :
    Memory.read (Memory.write m i v) i = v :=
  read_write_self_from v h

theorem Memory.wfFrom_write {lo : Nat} {m : Memory} {i : Nat} (v : Word) (h : Memory.wfFrom lo m = true) (hi : lo ≤ i) :
    Memory.wfFrom lo (Memory.write m i v) = true := by
  induction m generalizing lo with
  | nil => by_cases hv : v = 0x00000000#32 <;> simp [write, wfFrom, hv, hi]
  | cons c m ih =>
    have h' := h
    simp only [wfFrom, Bool.and_eq_true, decide_eq_true_eq] at h
    simp only [write]
    split_ifs with h1 h2 h3 h4
    · exact h'
    · simp only [wfFrom, Bool.and_eq_true, decide_eq_true_eq]
      exact ⟨⟨hi, h2⟩, ⟨by omega, h.1.2⟩, h.2⟩
    · exact wfFrom_mono h.2 (by omega)
    · simp only [wfFrom, Bool.and_eq_true, decide_eq_true_eq]
      exact ⟨⟨hi, h4⟩, h3 ▸ h.2⟩
    · simp only [wfFrom, Bool.and_eq_true, decide_eq_true_eq]
      exact ⟨h.1, ih h.2 (by omega)⟩

/-- A write keeps the canonical form. -/
@[simp] theorem Memory.wf_write {m : Memory} {i : Nat} (v : Word) (h : m.wf = true) : (Memory.write m i v).wf = true :=
  wfFrom_write v h (Nat.zero_le i)

/-- A write inside the buffer keeps every listed index inside it. -/
theorem Memory.within_write {len : Nat} {m : Memory} {i : Nat} (v : Word) (h : m.within len = true) (hi : i < len) :
    (Memory.write m i v).within len = true := by
  induction m with
  | nil => by_cases hv : v = 0x00000000#32 <;> simp [write, within, hv, hi]
  | cons c m ih =>
    have h' := h
    simp only [within, List.all_cons, Bool.and_eq_true, decide_eq_true_eq] at h
    simp only [write]
    split_ifs
    · exact h'
    · simpa [within, hi] using h'
    · exact h.2
    · simpa [within, hi] using h.2
    · simpa [within, h.1] using ih h.2

/-- Equal reads make equal lists: the form is canonical. -/
theorem Memory.eq_of_read_eq {lo : Nat} {m m' : Memory} (h : Memory.wfFrom lo m = true) (h' : Memory.wfFrom lo m' = true)
    (heq : ∀ i, Memory.read m i = Memory.read m' i) : m = m' := by
  induction m generalizing lo m' with
  | nil =>
    cases m' with
    | nil => rfl
    | cons c m' =>
      simp only [wfFrom, Bool.and_eq_true, decide_eq_true_eq] at h'
      have := heq c.1
      simp [read] at this
      exact absurd this.symm h'.1.2
  | cons c m ih =>
    simp only [wfFrom, Bool.and_eq_true, decide_eq_true_eq] at h
    cases m' with
    | nil =>
      have := heq c.1
      simp [read] at this
      exact absurd this h.1.2
    | cons c' m' =>
      simp only [wfFrom, Bool.and_eq_true, decide_eq_true_eq] at h'
      have hidx : c.1 = c'.1 := by
        by_contra hne
        rcases Nat.lt_or_gt_of_ne hne with hlt | hlt
        · have := heq c.1
          simp only [read, if_true, hne, if_false] at this
          rw [read_below h'.2 (by omega)] at this
          exact h.1.2 this
        · have := heq c'.1
          simp only [read, if_true, Ne.symm hne, if_false] at this
          rw [read_below h.2 (by omega)] at this
          exact h'.1.2 this.symm
      have hval : c.2 = c'.2 := by
        have := heq c.1
        simpa [read, hidx] using this
      have hrest : m = m' := by
        refine ih h.2 (hidx ▸ h'.2) fun i => ?_
        by_cases hi : i = c.1
        · rw [hi, read_below h.2 (by omega), read_below h'.2 (by omega)]
        · have := heq i
          simpa [read, hi, hidx ▸ hi] using this
      exact List.cons_eq_cons.mpr ⟨Prod.ext hidx hval, hrest⟩

end Sys2Proof.Machine
end

