-- ==== Sys2Proof/Laws/State.lean ====
section
/-! SUPPORT. One lemma per field per update of the state, and the get and set lemmas of the units, so that no later proof
unfolds a record update. -/

namespace Sys2Proof.Machine

/-! ### The state's updates -/

@[simp] theorem State.reply_cfg (s : State) (rs : List Word) :
    (s.reply rs).cfg = s.cfg := rfl
@[simp] theorem State.reply_status (s : State) (rs : List Word) :
    (s.reply rs).status = s.status := rfl
@[simp] theorem State.reply_engine (s : State) (rs : List Word) :
    (s.reply rs).engine = s.engine := rfl
@[simp] theorem State.reply_pending (s : State) (rs : List Word) :
    (s.reply rs).pending = s.pending := rfl
@[simp] theorem State.reply_response (s : State) (rs : List Word) :
    (s.reply rs).response = some ⟨.ok, rs⟩ := rfl
@[simp] theorem State.reply_nanDraws (s : State) (rs : List Word) :
    (s.reply rs).nanDraws = s.nanDraws := rfl

@[simp] theorem State.complete_cfg (s : State) (e : Engine) (n : Nat) (rs : List Word) :
    (s.complete e n rs).cfg = s.cfg := rfl
@[simp] theorem State.complete_status (s : State) (e : Engine) (n : Nat) (rs : List Word) :
    (s.complete e n rs).status = s.status := rfl
@[simp] theorem State.complete_engine (s : State) (e : Engine) (n : Nat) (rs : List Word) :
    (s.complete e n rs).engine = some e := rfl
@[simp] theorem State.complete_pending (s : State) (e : Engine) (n : Nat) (rs : List Word) :
    (s.complete e n rs).pending = s.pending := rfl
@[simp] theorem State.complete_response (s : State) (e : Engine) (n : Nat) (rs : List Word) :
    (s.complete e n rs).response = some ⟨.ok, rs⟩ := rfl
@[simp] theorem State.complete_nanDraws (s : State) (e : Engine) (n : Nat) (rs : List Word) :
    (s.complete e n rs).nanDraws = n := rfl

@[simp] theorem State.fail_cfg (s : State) (c : Code) :
    (s.fail c).cfg = s.cfg := rfl
@[simp] theorem State.fail_status (s : State) (c : Code) :
    (s.fail c).status = statusAfterError c s.status := rfl
@[simp] theorem State.fail_engine (s : State) (c : Code) :
    (s.fail c).engine = s.engine := rfl
@[simp] theorem State.fail_pending (s : State) (c : Code) :
    (s.fail c).pending = s.pending := rfl
@[simp] theorem State.fail_response (s : State) (c : Code) :
    (s.fail c).response = some ⟨c, []⟩ := rfl
@[simp] theorem State.fail_nanDraws (s : State) (c : Code) :
    (s.fail c).nanDraws = s.nanDraws := rfl

@[simp] theorem State.failInit_cfg (s : State) (c : Code) :
    (s.failInit c).cfg = s.cfg := rfl
@[simp] theorem State.failInit_status (s : State) (c : Code) :
    (s.failInit c).status = statusAfterInitError c := rfl
@[simp] theorem State.failInit_engine (s : State) (c : Code) :
    (s.failInit c).engine = s.engine := rfl
@[simp] theorem State.failInit_pending (s : State) (c : Code) :
    (s.failInit c).pending = s.pending := rfl
@[simp] theorem State.failInit_response (s : State) (c : Code) :
    (s.failInit c).response = some ⟨c, []⟩ := rfl
@[simp] theorem State.failInit_nanDraws (s : State) (c : Code) :
    (s.failInit c).nanDraws = s.nanDraws := rfl

@[simp] theorem State.failFaulted_cfg (s : State) :
    (s.failFaulted).cfg = s.cfg := rfl
@[simp] theorem State.failFaulted_status (s : State) :
    (s.failFaulted).status = s.status := rfl
@[simp] theorem State.failFaulted_engine (s : State) :
    (s.failFaulted).engine = s.engine := rfl
@[simp] theorem State.failFaulted_pending (s : State) :
    (s.failFaulted).pending = s.pending := rfl
@[simp] theorem State.failFaulted_response (s : State) :
    (s.failFaulted).response = some ⟨.faulted, []⟩ := rfl
@[simp] theorem State.failFaulted_nanDraws (s : State) :
    (s.failFaulted).nanDraws = s.nanDraws := rfl

@[simp] theorem State.construct_cfg (s : State) (e : Engine) :
    (s.construct e).cfg = s.cfg := rfl
@[simp] theorem State.construct_status (s : State) (e : Engine) :
    (s.construct e).status = statusRunning := rfl
@[simp] theorem State.construct_engine (s : State) (e : Engine) :
    (s.construct e).engine = some e := rfl
@[simp] theorem State.construct_pending (s : State) (e : Engine) :
    (s.construct e).pending = s.pending := rfl
@[simp] theorem State.construct_response (s : State) (e : Engine) :
    (s.construct e).response = some ⟨.ok, []⟩ := rfl
@[simp] theorem State.construct_nanDraws (s : State) (e : Engine) :
    (s.construct e).nanDraws = s.nanDraws := rfl

/-! ### Units of a channel -/

@[simp] theorem Units.ap_setAp (u : Units) (k : Fin 3) (a : Allpass) (j : Fin 3) :
    (u.setAp k a).ap j = if j = k then a else u.ap j := by
  fin_cases k <;> fin_cases j <;> rfl

@[simp] theorem Units.dfd_setAp (u : Units) (k : Fin 3) (a : Allpass) (j : Fin 4) :
    (u.setAp k a).dfd j = u.dfd j := by
  fin_cases k <;> fin_cases j <;> rfl

@[simp] theorem Units.dfd_setDfd (u : Units) (k : Fin 4) (q : Degraded) (j : Fin 4) :
    (u.setDfd k q).dfd j = if j = k then q else u.dfd j := by
  fin_cases k <;> fin_cases j <;> rfl

@[simp] theorem Units.ap_setDfd (u : Units) (k : Fin 4) (q : Degraded) (j : Fin 3) :
    (u.setDfd k q).ap j = u.ap j := by
  fin_cases k <;> fin_cases j <;> rfl

/-! ### Units of the engine -/

@[simp] theorem Engine.units_setUnits (e : Engine) (c : Channel) (u : Units) (c' : Channel) :
    (e.setUnits c u).units c' = if c' = c then u else e.units c' := by
  cases c <;> cases c' <;> rfl

@[simp] theorem Engine.setUnits_sr (e : Engine) (c : Channel) (u : Units) : (e.setUnits c u).sr = e.sr := by
  cases c <;> rfl
@[simp] theorem Engine.setUnits_len (e : Engine) (c : Channel) (u : Units) : (e.setUnits c u).len = e.len := by
  cases c <;> rfl
@[simp] theorem Engine.setUnits_lfo (e : Engine) (c : Channel) (u : Units) : (e.setUnits c u).lfo = e.lfo := by
  cases c <;> rfl

@[simp] theorem Engine.setAp_sr (e : Engine) (c : Channel) (k : Fin 3) (a : Allpass) : (e.setAp c k a).sr = e.sr := by
  simp [setAp]
@[simp] theorem Engine.setAp_len (e : Engine) (c : Channel) (k : Fin 3) (a : Allpass) : (e.setAp c k a).len = e.len := by
  simp [setAp]
@[simp] theorem Engine.setAp_lfo (e : Engine) (c : Channel) (k : Fin 3) (a : Allpass) : (e.setAp c k a).lfo = e.lfo := by
  simp [setAp]
@[simp] theorem Engine.setDfd_sr (e : Engine) (c : Channel) (k : Fin 4) (q : Degraded) : (e.setDfd c k q).sr = e.sr := by
  simp [setDfd]
@[simp] theorem Engine.setDfd_len (e : Engine) (c : Channel) (k : Fin 4) (q : Degraded) : (e.setDfd c k q).len = e.len := by
  simp [setDfd]
@[simp] theorem Engine.setDfd_lfo (e : Engine) (c : Channel) (k : Fin 4) (q : Degraded) : (e.setDfd c k q).lfo = e.lfo := by
  simp [setDfd]

@[simp] theorem Engine.ap_setAp (e : Engine) (c : Channel) (k : Fin 3) (a : Allpass) (c' : Channel) (j : Fin 3) :
    (e.setAp c k a).ap c' j = if c' = c ∧ j = k then a else e.ap c' j := by
  by_cases h : c' = c <;> simp [setAp, ap, h]

@[simp] theorem Engine.dfd_setAp (e : Engine) (c : Channel) (k : Fin 3) (a : Allpass) (c' : Channel) (j : Fin 4) :
    (e.setAp c k a).dfd c' j = e.dfd c' j := by
  by_cases h : c' = c <;> simp [setAp, dfd, h]

@[simp] theorem Engine.dfd_setDfd (e : Engine) (c : Channel) (k : Fin 4) (q : Degraded) (c' : Channel) (j : Fin 4) :
    (e.setDfd c k q).dfd c' j = if c' = c ∧ j = k then q else e.dfd c' j := by
  by_cases h : c' = c <;> simp [setDfd, dfd, h]

@[simp] theorem Engine.ap_setDfd (e : Engine) (c : Channel) (k : Fin 4) (q : Degraded) (c' : Channel) (j : Fin 3) :
    (e.setDfd c k q).ap c' j = e.ap c' j := by
  by_cases h : c' = c <;> simp [setDfd, ap, h]

/-! ### Circular delays -/

@[simp] theorem Pair.delay_setDelay (p : Pair) (sel : DelaySel) (d : Delay) (sel' : DelaySel) :
    (p.setDelay sel d).delay sel' = if sel' = sel then d else p.delay sel' := by
  cases sel <;> cases sel' <;> rfl

@[simp] theorem Pair.setDelay_ly (p : Pair) (sel : DelaySel) (d : Delay) : (p.setDelay sel d).ly = p.ly := by
  cases sel <;> rfl
@[simp] theorem Pair.setDelay_lf (p : Pair) (sel : DelaySel) (d : Delay) : (p.setDelay sel d).lf = p.lf := by
  cases sel <;> rfl

@[simp] theorem Degraded.delay_setDelay (q : Degraded) (sel : DelaySel) (d : Delay) (sel' : DelaySel) :
    (q.setDelay sel d).delay sel' = if sel' = sel then d else q.delay sel' := by
  cases sel <;> cases sel' <;> rfl

@[simp] theorem Degraded.setDelay_fb (q : Degraded) (sel : DelaySel) (d : Delay) :
    (q.setDelay sel d).fb = q.fb := by
  cases sel <;> rfl
@[simp] theorem Degraded.setDelay_a (q : Degraded) (sel : DelaySel) (d : Delay) :
    (q.setDelay sel d).a = q.a := by
  cases sel <;> rfl
@[simp] theorem Degraded.setDelay_ratio (q : Degraded) (sel : DelaySel) (d : Delay) :
    (q.setDelay sel d).ratio = q.ratio := by
  cases sel <;> rfl
@[simp] theorem Degraded.setDelay_ds (q : Degraded) (sel : DelaySel) (d : Delay) :
    (q.setDelay sel d).ds = q.ds := by
  cases sel <;> rfl
@[simp] theorem Degraded.setDelay_ly (q : Degraded) (sel : DelaySel) (d : Delay) :
    (q.setDelay sel d).ly = q.ly := by
  cases sel <;> rfl
@[simp] theorem Degraded.setDelay_lf (q : Degraded) (sel : DelaySel) (d : Delay) :
    (q.setDelay sel d).lf = q.lf := by
  cases sel <;> rfl

/-- A delay is the one that was set, or as before. -/
@[simp] theorem Engine.delay_setDelay (e : Engine) (s : Slot) (d : Delay) (s' : Slot) :
    (e.setDelay s d).delay s' = if s' = s then d else e.delay s' := by
  cases s <;> cases s' <;> simp only [Engine.setDelay, Engine.delay, Engine.ap_setAp, Engine.dfd_setAp,
    Engine.dfd_setDfd, Engine.ap_setDfd, reduceCtorEq, if_false, Slot.ap.injEq, Slot.dfd.injEq] <;>
  · rename_i c k sel c' k' sel'
    by_cases h : c' = c ∧ k' = k
    · obtain ⟨rfl, rfl⟩ := h
      by_cases h' : sel' = sel <;> simp [h']
    · rw [if_neg h, if_neg (fun h' => h ⟨h'.1, h'.2.1⟩)]

@[simp] theorem Engine.setDelay_sr (e : Engine) (s : Slot) (d : Delay) : (e.setDelay s d).sr = e.sr := by
  cases s <;> simp [Engine.setDelay]
@[simp] theorem Engine.setDelay_len (e : Engine) (s : Slot) (d : Delay) : (e.setDelay s d).len = e.len := by
  cases s <;> simp [Engine.setDelay]
@[simp] theorem Engine.setDelay_lfo (e : Engine) (s : Slot) (d : Delay) : (e.setDelay s d).lfo = e.lfo := by
  cases s <;> simp [Engine.setDelay]

end Sys2Proof.Machine
end

