-- ==== Sys2Proof/Laws/Process.lean ====
section
/-! SUPPORT. One lemma per process operation: what every result of it satisfies, whatever NaN bits are drawn. The
computations are read through `Always`; a caller cites these lemmas instead of unfolding the operation. -/

namespace Sys2Proof.Machine

namespace F32

/-- Whatever the count of draws, the result satisfies `P`. -/
def Always {α : Type} (m : Drawn α) (P : α → Prop) : Prop := ∀ n, P (m.run n).1

theorem Always.pure {α : Type} {P : α → Prop} {a : α} (h : P a) : Always (Pure.pure a) P := fun _ => h

theorem Always.bind {α β : Type} {m : Drawn α} {f : α → Drawn β} {P : α → Prop} {Q : β → Prop}
    (hm : Always m P) (hf : ∀ a, P a → Always (f a) Q) : Always (m >>= f) Q :=
  fun n => hf _ (hm n) _

theorem Always.mono {α : Type} {m : Drawn α} {P Q : α → Prop} (h : Always m P) (hPQ : ∀ a, P a → Q a) : Always m Q :=
  fun n => hPQ _ (h n)

theorem Always.and {α : Type} {m : Drawn α} {P Q : α → Prop} (h : Always m P) (h' : Always m Q) :
    Always m fun a => P a ∧ Q a :=
  fun n => ⟨h n, h' n⟩

/-- Setting bits never clears one: the exponent field of a drawn NaN is all ones. -/
theorem magBits_or_inf (b : Word) : 0x7F800000 ≤ magBits (b ||| 0x7F800000#32) := by
  have h : (b ||| 0x7F800000#32).toNat % 2 ^ 31 = (b.toNat % 2 ^ 31) ||| 0x7F800000 := by
    rw [BitVec.toNat_or, Nat.or_mod_two_pow]; rfl
  rw [magBits, h]
  exact Nat.right_le_or

/-- Every drawn word is a NaN (R14). -/
theorem isNaN_nanOf (b : Word) : isNaN (nanOf b) = true := by
  have h := magBits_or_inf b
  unfold nanOf isNaN
  simp only
  split_ifs with hi
  · have : magBits (b ||| 0x7F800000#32 ||| 0x00000001#32) = magBits (b ||| 0x7F800000#32) ||| 1 := by
      rw [magBits, magBits, BitVec.toNat_or, Nat.or_mod_two_pow]; rfl
    rw [this, hi]; decide
  · simp only [decide_eq_true_eq]; omega

/-- Every NaN pattern can be drawn: it is the image of its own bits (R14, U4). -/
theorem nanOf_of_isNaN {b : Word} (h : isNaN b = true) : nanOf b = b := by
  have hb : 0x7F800000 < b.toNat % 2 ^ 31 := of_decide_eq_true h
  have hor : b ||| 0x7F800000#32 = b := by
    have hx : b.toNat / 2 ^ 23 % 2 ^ 8 = 2 ^ 8 - 1 := by omega
    have hf : b.extractLsb' 23 8 = 0xFF#8 := by
      apply BitVec.eq_of_toNat_eq
      simpa [BitVec.extractLsb'_toNat, Nat.shiftRight_eq_div_pow] using hx
    ext i hi
    have hbit : ∀ j (_ : j < 8), b.getLsbD (23 + j) = true := fun j hj => by
      have := congrArg (fun v => v.getLsbD j) hf
      interval_cases j <;> simpa [BitVec.getLsbD_extractLsb'] using this
    by_cases h23 : 23 ≤ i ∧ i < 31
    · have := hbit (i - 23) (by omega)
      rw [show 23 + (i - 23) = i by omega] at this
      simp [← BitVec.getLsbD_eq_getElem, this]
    · have : (0x7F800000#32).getLsbD i = false := by
        interval_cases i <;> simp_all
      simp [← BitVec.getLsbD_eq_getElem, this]
  unfold nanOf
  simp only [hor]
  rw [if_neg]
  rw [magBits]; omega

theorem settle_yields (o : Option Word) : Always (settle o) (Yields o) := by
  intro n
  cases o with
  | some w => rfl
  | none => exact isNaN_nanOf _

theorem add_sum (x y : Word) : Always (add x y) (Sum x y) := settle_yields _
theorem sub_diff (x y : Word) : Always (sub x y) (Diff x y) := settle_yields _
theorem mul_prod (x y : Word) : Always (mul x y) (Prod x y) := settle_yields _
theorem div_quot (x y : Word) : Always (div x y) (Quot x y) := settle_yields _
theorem sine_sin (x : Word) : Always (sine x) (Sine x) := settle_yields _

end F32

open F32 (Always)

/-! ### Circular delays -/

/-- CD_PROCESS as R102 says it, through reads. -/
theorem cdProc_pushed (len : Nat) (d : Delay) (x : Word) (h : d.buf.wf = true) :
    Pushed len d x (cdProc len d x).1 (cdProc len d x).2 where
  result := by
    by_cases hr : d.r = d.w
    · simp [cdProc, hr, Memory.read_write_self x h]
    · simp [cdProc, hr, Memory.read_write_other x hr]
  stored := Memory.read_write_self x h
  others := fun _ hi => Memory.read_write_other x hi
  write := rfl
  read := rfl
  last := rfl

theorem Delay.ok_iff {len : Nat} {d : Delay} :
    d.ok len = true ↔ d.w < len ∧ d.r < len ∧ d.buf.wf = true ∧ d.buf.within len = true := by
  simp [Delay.ok, Delay.inRange, and_assoc]

theorem Delay.wf_of_ok {len : Nat} {d : Delay} (h : d.ok len = true) : d.buf.wf = true := (ok_iff.mp h).2.2.1

theorem cdProc_ok {len : Nat} {d : Delay} (x : Word) (h : d.ok len = true) : (cdProc len d x).2.ok len = true := by
  obtain ⟨hw, hr, hwf, hin⟩ := Delay.ok_iff.mp h
  exact Delay.ok_iff.mpr ⟨Nat.mod_lt _ (by omega), Nat.mod_lt _ (by omega), Memory.wf_write x hwf,
    Memory.within_write x hin hw⟩

theorem Delay.place_ok {len : Nat} {d : Delay} (t : Nat) (h : d.ok len = true) : (d.place len t).ok len = true := by
  obtain ⟨hw, hr, hwf, hin⟩ := Delay.ok_iff.mp h
  exact Delay.ok_iff.mpr ⟨hw, Nat.mod_lt _ (by omega), hwf, hin⟩

/-! ### Pairs and allpasses -/

theorem Pair.ok_iff {len : Nat} {p : Pair} : p.ok len = true ↔ p.d0.ok len = true ∧ p.d1.ok len = true := by
  simp [Pair.ok]

theorem Pair.inRange_of_ok {len : Nat} {p : Pair} (h : p.ok len = true) : p.inRange len = true := by
  have := Pair.ok_iff.mp h
  simp_all [Pair.inRange, Delay.ok]

theorem fdpProc_step {len : Nat} {fb : Word} {p : Pair} (x : Word) (h : p.ok len = true) :
    Always (fdpProc len fb p x) fun r => FdpStep len fb p x r.1 r.2 ∧ r.2.ok len = true := by
  obtain ⟨h0, h1⟩ := Pair.ok_iff.mp h
  refine .bind (F32.mul_prod _ _) fun fed hfed => .bind (F32.add_sum _ _) fun u hu => .pure ⟨?_, ?_⟩
  · exact ⟨fed, u, hfed, hu, cdProc_pushed len _ u (Delay.wf_of_ok h0), cdProc_pushed len _ _ (Delay.wf_of_ok h1), rfl⟩
  · exact Pair.ok_iff.mpr ⟨cdProc_ok u h0, cdProc_ok _ h1⟩

theorem apProc_step {len : Nat} {ap : Allpass} (x : Word) (h : ap.pair.ok len = true) :
    Always (apProc len ap x) fun r => ApStep len ap x r.1 r.2 ∧ r.2.pair.ok len = true := by
  refine .bind (fdpProc_step x h) fun r hr => .bind (F32.mul_prod _ _) fun g2 h2 => .bind (F32.mul_prod _ _) fun dir hd =>
    .bind (F32.sub_diff _ _) fun wt hw => .bind (F32.mul_prod _ _) fun wet hwet => .bind (F32.add_sum _ _) fun out ho =>
    .pure ⟨⟨r.1, g2, dir, wt, wet, hr.1, h2, hd, hw, hwet, ho, rfl⟩, hr.2⟩

/-! ### Downsamplers and degraded feedback delays -/

theorem crossfade_of (ratio p q : Word) : Always (crossfade ratio p q) (CrossfadeOf ratio p q) :=
  .bind (F32.mul_prod _ _) fun a ha => .bind (F32.sub_diff _ _) fun b hb => .bind (F32.mul_prod _ _) fun c hc =>
    (F32.add_sum _ _).mono fun _ hz => ⟨a, b, c, ha, hb, hc, hz⟩

theorem Downsampler.advance_ok {d : Downsampler} (x : Word) (h : d.ok = true) : (d.advance x).ok = true := by
  simp only [Downsampler.ok, Bool.and_eq_true, decide_eq_true_eq] at h ⊢
  refine ⟨h.1, ?_⟩
  have : (d.cnt + 2) % (d.amount + 1) < d.amount + 1 := Nat.mod_lt _ (by omega)
  simp only [advance]; omega

theorem dsProc_step (d : Downsampler) (x ratio : Word) :
    Always (dsProc d x ratio) fun r => DsStep d x ratio r.1 r.2 ∧ (d.ok = true → r.2.ok = true) :=
  .bind (crossfade_of _ _ _) fun _ hz => .pure ⟨⟨rfl, rfl, rfl, hz⟩, Downsampler.advance_ok x⟩

theorem Degraded.ok_iff {len : Nat} {q : Degraded} :
    q.ok len = true ↔ q.ds.ok = true ∧ q.d0.ok len = true ∧ q.d1.ok len = true := by
  simp [Degraded.ok, and_assoc]

theorem Degraded.inRange_of_ok {len : Nat} {q : Degraded} (h : q.ok len = true) : q.inRange len = true := by
  have := Degraded.ok_iff.mp h
  simp_all [Degraded.inRange, Delay.ok]

theorem dfdProc_step {len : Nat} {q : Degraded} (x : Word) (h : q.ok len = true) :
    Always (dfdProc len q x) fun r => DfdStep len q x r.1 r.2 ∧ r.2.ok len = true := by
  obtain ⟨hds, h0, h1⟩ := Degraded.ok_iff.mp h
  refine .bind (F32.mul_prod _ _) fun fed hfed => .bind (F32.add_sum _ _) fun u hu =>
    .bind (dsProc_step _ _ _) fun ds hd => .bind (crossfade_of _ _ _) fun lf hlf => .pure ⟨?_, ?_⟩
  · exact ⟨fed, u, _, ds.1, hfed, hu, cdProc_pushed len _ u (Delay.wf_of_ok h0),
      cdProc_pushed len _ _ (Delay.wf_of_ok h1), hd.1, hlf, rfl, rfl, rfl, rfl⟩
  · exact Degraded.ok_iff.mpr ⟨hd.2 hds, cdProc_ok u h0, cdProc_ok _ h1⟩

/-! ### The Lfo -/

theorem lfoProc_step (sr : Word) (l : Lfo) : Always (lfoProc sr l) fun r => LfoStep sr l r.1 r.2 := by
  refine .bind (F32.mul_prod _ _) fun t ht => .bind (F32.mul_prod _ _) fun arg ha => .bind (F32.sine_sin _) fun o ho =>
    .bind (F32.div_quot _ _) fun inc hi => .bind (F32.add_sum _ _) fun p hp => .bind (P := fun ph => if F32.le F32.one p = true then F32.Diff p F32.one ph else ph = p)
      ?_ fun ph hph => .pure ⟨t, arg, inc, p, ht, ha, ho, hi, hp, hph, rfl⟩
  unfold wrapPhase
  split_ifs with hle
  · simpa using F32.sub_diff p F32.one
  · exact .pure (by simp)

/-! ### Frames -/

theorem resolveMode_step (sr : Word) (l : Lfo) (g gs : Word) :
    Always (resolveMode sr l g gs) fun r => ModeStep sr l g gs r.1 r.2.1 r.2.2 := by
  unfold resolveMode ModeStep
  split_ifs with hw hf
  · exact .bind (lfoProc_step sr l) fun o ho => .bind (F32.mul_prod _ _) fun dep hd => .bind (F32.add_sum _ _) fun g' hg =>
      .pure ⟨rfl, o.1, dep, ho, hd, hg⟩
  · exact .pure ⟨rfl, rfl, rfl⟩
  · exact .pure ⟨rfl, rfl, rfl⟩

theorem Units.ok_iff {len : Nat} {u : Units} :
    u.ok len = true ↔ u.ap0.pair.ok len = true ∧ u.ap1.pair.ok len = true ∧ u.ap2.pair.ok len = true
      ∧ u.dfd0.ok len = true ∧ u.dfd1.ok len = true ∧ u.dfd2.ok len = true ∧ u.dfd3.ok len = true := by
  simp [Units.ok, and_assoc]

theorem Units.inRange_of_ok {len : Nat} {u : Units} (h : u.ok len = true) : u.inRange len = true := by
  obtain ⟨h1, h2, h3, h4, h5, h6, h7⟩ := Units.ok_iff.mp h
  simp [Units.inRange, Pair.inRange_of_ok, Degraded.inRange_of_ok, *]

theorem Degraded.configure_ok {len : Nat} {q : Degraded} {g a ratio : Word} {amount : Nat} (h : q.ok len = true)
    (ha : amount < 2 ^ 31) : (q.configure g a amount ratio).ok len = true := by
  simp_all [Degraded.ok, Degraded.configure, Downsampler.ok]

theorem Units.broadcast_ok {len : Nat} {u : Units} {g a ratio : Word} {amount : Nat} (h : u.ok len = true)
    (ha : amount < 2 ^ 31) : (u.broadcast g a amount ratio).ok len = true := by
  obtain ⟨h1, h2, h3, h4, h5, h6, h7⟩ := Units.ok_iff.mp h
  exact Units.ok_iff.mpr ⟨h1, h2, h3, Degraded.configure_ok h4 ha, Degraded.configure_ok h5 ha,
    Degraded.configure_ok h6 ha, Degraded.configure_ok h7 ha⟩

theorem Units.bank_step {len : Nat} {u : Units} (b : Word) (h : u.ok len = true) :
    Always (u.bank len b) fun r => BankStep len u b r.1 r.2 ∧ r.2.ok len = true ∧ r.2.ap0 = u.ap0 ∧ r.2.ap1 = u.ap1
      ∧ r.2.ap2 = u.ap2 := by
  obtain ⟨h1, h2, h3, h4, h5, h6, h7⟩ := Units.ok_iff.mp h
  refine .bind (dfdProc_step b h4) fun r0 k0 => .bind (dfdProc_step b h5) fun r1 k1 => .bind (dfdProc_step b h6) fun r2 k2 =>
    .bind (dfdProc_step b h7) fun r3 k3 => .bind (F32.add_sum _ _) fun s1 j1 => .bind (F32.add_sum _ _) fun s2 j2 =>
    .bind (F32.add_sum _ _) fun s3 j3 => .bind (F32.mul_prod _ _) fun w hw => .pure ⟨?_, ?_, rfl, rfl, rfl⟩
  · exact ⟨r0.1, r1.1, r2.1, r3.1, s1, s2, s3, k0.1, k1.1, k2.1, k3.1, j1, j2, j3, hw⟩
  · exact Units.ok_iff.mpr ⟨h1, h2, h3, k0.2, k1.2, k2.2, k3.2⟩

theorem Units.cascade_step {len : Nat} {u : Units} (w : Word) (h : u.ok len = true) :
    Always (u.cascade len w) fun r => CascadeStep len u w r.1 r.2 ∧ r.2.ok len = true ∧ r.2.dfd0 = u.dfd0
      ∧ r.2.dfd1 = u.dfd1 ∧ r.2.dfd2 = u.dfd2 ∧ r.2.dfd3 = u.dfd3 := by
  obtain ⟨h1, h2, h3, h4, h5, h6, h7⟩ := Units.ok_iff.mp h
  refine .bind (apProc_step w h1) fun r0 k0 => .bind (apProc_step _ h2) fun r1 k1 => .bind (apProc_step _ h3) fun r2 k2 =>
    .pure ⟨⟨r0.1, r1.1, k0.1, k1.1, k2.1⟩, ?_, rfl, rfl, rfl, rfl⟩
  exact Units.ok_iff.mpr ⟨k0.2, k1.2, k2.2, h4, h5, h6, h7⟩

theorem mix_step (g c3 dry th : Word) : Always (mix g c3 dry th) (MixStep g c3 dry th) :=
  .bind (F32.mul_prod _ _) fun wet hw => .bind (F32.add_sum _ _) fun v hv => .pure ⟨wet, v, hw, hv, rfl⟩

theorem Units.frame_step {len : Nat} {u : Units} {k : Coeffs} (b dry : Word) (h : u.ok len = true)
    (ha : k.amount < 2 ^ 31) :
    Always (u.frame len k b dry) fun r => ChannelStep len u k b dry r.1 r.2 ∧ r.2.ok len = true := by
  refine .bind (Units.bank_step b (Units.broadcast_ok h ha)) fun r hr => .bind (Units.cascade_step _ hr.2.1) fun r' hr' =>
    .bind (mix_step _ _ _ _) fun out ho => .pure ⟨⟨r.1, r'.1, ?_, ?_, ho⟩, hr'.2.1⟩
  · obtain ⟨hb, -, -, -, -⟩ := hr
    obtain ⟨-, -, e0, e1, e2, e3⟩ := hr'
    simp only [BankStep] at hb ⊢
    rw [e0, e1, e2, e3]
    exact hb
  · obtain ⟨-, -, e0, e1, e2⟩ := hr
    have hc := hr'.1
    simp only [CascadeStep] at hc ⊢
    rw [e0, e1, e2] at hc
    exact hc

theorem engineFrame_step {e : Engine} {amount : Nat} (leftIn rightIn g damping speed selector : Word)
    (hl : e.left.ok e.len = true) (hr : e.right.ok e.len = true) (ha : amount < 2 ^ 31) :
    Always (engineFrame e amount leftIn rightIn g damping speed selector) fun r =>
      FrameStep e amount leftIn rightIn g damping speed selector r.1.1 r.1.2 r.2
        ∧ r.2.left.ok e.len = true ∧ r.2.right.ok e.len = true := by
  refine .bind (resolveMode_step _ _ _ _) fun m hm => .bind (F32.sub_diff _ _) fun a hda =>
    .bind (Units.frame_step (k := ⟨m.1, m.2.1, a, amount, speed⟩) leftIn leftIn hl ha) fun l kl =>
    .bind (Units.frame_step (k := ⟨m.1, m.2.1, a, amount, speed⟩) leftIn rightIn hr ha) fun r kr =>
    .pure ⟨⟨⟨m.1, m.2.1, a, amount, speed⟩, hm, hda, rfl, rfl, kl.1, kr.1, rfl, rfl⟩, kl.2, kr.2⟩

end Sys2Proof.Machine
end

