-- ==== Sys2Proof/Laws/Gates.lean ====
section
/-! SUPPORT. The shared gates of the meanings (spec/60_exceptions.md R271): what each answers when a command passes it, and
everything it can have answered. Callers cite these lemmas instead of unfolding a gate. -/

namespace Sys2Proof.Machine

/-! ### STATUS -/

/-- The three fields of a word made of them. -/
@[simp] theorem statusInit_statusOf (i e : Bool) (c : BitVec 4) : statusInit (statusOf i e c) = i := by
  revert i e c; decide
@[simp] theorem statusErr_statusOf (i e : Bool) (c : BitVec 4) : statusErr (statusOf i e c) = e := by
  revert i e c; decide
@[simp] theorem statusCause_statusOf (i e : Bool) (c : BitVec 4) : statusCause (statusOf i e c) = c := by
  revert i e c; decide

/-- A word made of fields has its reserved bits 0. -/
@[simp] theorem statusRead_statusOf (i e : Bool) (c : BitVec 4) : statusRead (statusOf i e c) = statusOf i e c := by
  revert i e c; decide

theorem statusLegal_statusOf (i e : Bool) (c : BitVec 4) : statusLegal (statusOf i e c) = (e == (c != 0#4)) := by
  revert i e c; decide

@[simp] theorem Code.number_ne_zero_iff (c : Code) : c.number = 0#4 ↔ c = .ok := by cases c <;> decide

@[simp] theorem statusErr_statusAfterError (c : Code) (st : Word) : statusErr (statusAfterError c st) = true := by
  simp [statusAfterError]
@[simp] theorem statusInit_statusAfterError (c : Code) (st : Word) :
    statusInit (statusAfterError c st) = statusInit st := by simp [statusAfterError]
@[simp] theorem statusCause_statusAfterError (c : Code) (st : Word) :
    statusCause (statusAfterError c st) = if statusCause st = 0#4 then c.number else statusCause st := by
  simp [statusAfterError]

/-- An error leaves a legal STATUS (R35). -/
theorem statusLegal_afterError {c : Code} (st : Word) (h : c ≠ .ok) : statusLegal (statusAfterError c st) = true := by
  rw [statusAfterError, statusLegal_statusOf]
  split_ifs with hc
  · simp [h]
  · simp [hc]

theorem statusLegal_afterInitError {c : Code} (h : c ≠ .ok) : statusLegal (statusAfterInitError c) = true := by
  rw [statusAfterInitError, statusLegal_statusOf]
  simp [h]

/-! ### Checks 2 and 3 of R271 -/

theorem whenRunning_running {s : State} {e : Engine} (f : Engine → Result) (h : s.Running e) : whenRunning s f = f e := by
  simp [whenRunning, h.noErr, h.init, h.engine]

theorem whenRunning_faulted {s : State} (f : Engine → Result) (h : statusErr s.status = true) :
    whenRunning s f = .next s.failFaulted := by
  simp [whenRunning, h]

theorem whenRunning_notInit {s : State} (f : Engine → Result) (h : statusErr s.status = false)
    (h' : statusInit s.status = false) : whenRunning s f = .next (s.fail .notInit) := by
  simp [whenRunning, h, h']

/-- Everything a gated command can answer next. -/
theorem whenRunning_next {s t : State} {f : Engine → Result} (h : whenRunning s f = .next t) :
    (statusErr s.status = true ∧ t = s.failFaulted)
      ∨ (statusErr s.status = false ∧ statusInit s.status = false ∧ t = s.fail .notInit)
      ∨ ∃ e, s.Running e ∧ f e = .next t := by
  unfold whenRunning at h
  split_ifs at h with h1 h2
  · exact .inl ⟨h1, (Host.Outcome.next.inj h).symm⟩
  · exact .inr (.inl ⟨by simpa using h1, h2, (Host.Outcome.next.inj h).symm⟩)
  · cases he : s.engine with
    | none => simp [he] at h
    | some e => exact .inr (.inr ⟨e, ⟨by simpa using h1, by simpa using h2, he⟩, by simpa [he] using h⟩)

/-! ### Unit addresses (R82) -/

theorem apNumber?_of {u : UnitAddr} (h : u.namesAllpass) : apNumber? u = some ⟨u.idx, Nat.lt_succ_of_le h⟩ := by
  simp [apNumber?, Nat.lt_succ_of_le h]

theorem dfdNumber?_of {u : UnitAddr} (h : u.namesDegraded) : dfdNumber? u = some ⟨u.idx, Nat.lt_succ_of_le h⟩ := by
  simp [dfdNumber?, Nat.lt_succ_of_le h]

@[simp] theorem apNumber?_fin (c : Channel) (k : Fin 3) : apNumber? ⟨c, k⟩ = some k := by
  simp [apNumber?]

@[simp] theorem dfdNumber?_fin (c : Channel) (k : Fin 4) : dfdNumber? ⟨c, k⟩ = some k := by
  simp [dfdNumber?]

theorem apNumber?_none {u : UnitAddr} : apNumber? u = none ↔ ¬u.namesAllpass := by
  simp [apNumber?]; omega

theorem dfdNumber?_none {u : UnitAddr} : dfdNumber? u = none ↔ ¬u.namesDegraded := by
  simp [dfdNumber?]; omega

theorem slot?_none {d : DelayAddr} : slot? d = none ↔ d.namesDelay = false := by
  rcases d with ⟨c, k, sel, _ | _⟩ <;> simp [slot?, DelayAddr.namesDelay, apNumber?, dfdNumber?] <;> omega

/-- The command address of a slot. -/
def Slot.addr : Slot → DelayAddr
  | .ap c k sel  => ⟨c, k, sel, .allpass⟩
  | .dfd c k sel => ⟨c, k, sel, .degraded⟩

@[simp] theorem slot?_addr (d : Slot) : slot? d.addr = some d := by
  cases d <;> simp [Slot.addr, slot?]

/-- Everything an allpass command can answer next. -/
theorem onAllpass_next {u : UnitAddr} {s t : State} {f : Engine → Fin 3 → Result} (h : onAllpass u s f = .next t) :
    (¬u.namesAllpass ∧ t = s.fail .illegal)
      ∨ ∃ k, apNumber? u = some k ∧ whenRunning s (fun e => f e k) = .next t := by
  unfold onAllpass at h
  split at h
  · exact .inl ⟨apNumber?_none.mp ‹_›, (Host.Outcome.next.inj h).symm⟩
  · exact .inr ⟨_, ‹_›, h⟩

/-- Everything a DFD command can answer next. -/
theorem onDegraded_next {u : UnitAddr} {s t : State} {f : Engine → Fin 4 → Result} (h : onDegraded u s f = .next t) :
    (¬u.namesDegraded ∧ t = s.fail .illegal)
      ∨ ∃ k, dfdNumber? u = some k ∧ whenRunning s (fun e => f e k) = .next t := by
  unfold onDegraded at h
  split at h
  · exact .inl ⟨dfdNumber?_none.mp ‹_›, (Host.Outcome.next.inj h).symm⟩
  · exact .inr ⟨_, ‹_›, h⟩

/-- Everything a circular-delay command can answer next. -/
theorem onDelay_next {d : DelayAddr} {s t : State} {f : Engine → Slot → Result} (h : onDelay d s f = .next t) :
    (d.namesDelay = false ∧ t = s.fail .illegal)
      ∨ ∃ slot, slot? d = some slot ∧ whenRunning s (fun e => f e slot) = .next t := by
  unfold onDelay at h
  split at h
  · exact .inl ⟨slot?_none.mp ‹_›, (Host.Outcome.next.inj h).symm⟩
  · exact .inr ⟨_, ‹_›, h⟩

theorem onAllpass_running {u : UnitAddr} {k : Fin 3} {s : State} {e : Engine} (f : Engine → Fin 3 → Result)
    (hu : apNumber? u = some k) (h : s.Running e) : onAllpass u s f = f e k := by
  simp [onAllpass, hu, whenRunning_running _ h]

theorem onDegraded_running {u : UnitAddr} {k : Fin 4} {s : State} {e : Engine} (f : Engine → Fin 4 → Result)
    (hu : dfdNumber? u = some k) (h : s.Running e) : onDegraded u s f = f e k := by
  simp [onDegraded, hu, whenRunning_running _ h]

theorem onDelay_running {d : DelayAddr} {slot : Slot} {s : State} {e : Engine} (f : Engine → Slot → Result)
    (hd : slot? d = some slot) (h : s.Running e) : onDelay d s f = f e slot := by
  simp [onDelay, hd, whenRunning_running _ h]

/-! ### The checks of unreachable states -/

theorem requireRange_next {ok : Bool} {r : Result} {t : State} : requireRange ok r = .next t ↔ ok = true ∧ r = .next t := by
  cases ok <;> simp [requireRange]

theorem requireLength_next {len : Nat} {r : Result} {t : State} :
    requireLength len r = .next t ↔ 0 < len ∧ r = .next t := by
  unfold requireLength
  split_ifs with h
  · simp [h]
  · simp [Nat.pos_of_ne_zero h]

@[simp] theorem requireRange_true (r : Result) : requireRange true r = r := rfl

theorem requireLength_pos {len : Nat} (r : Result) (h : 0 < len) : requireLength len r = r := by
  simp [requireLength, Nat.pos_iff_ne_zero.mp h]

/-! ### The queue -/

theorem takeCommand_eq {s s' : State} {c : Command} :
    takeCommand s = some (c, s') ↔ ∃ rest, s.pending = c :: rest ∧ s' = { s with pending := rest } := by
  unfold takeCommand
  split <;> simp_all [eq_comm, and_assoc]

theorem step_cons {s : State} {c : Command} {rest : List Command} (h : s.pending = c :: rest) :
    step s = runCommand c { s with pending := rest } := by
  simp [step, takeCommand, h]

theorem step_nil {s : State} (h : s.pending = []) : step s = .next s := by
  simp [step, takeCommand, h]

/-- Everything a step can answer. -/
theorem step_cases (s : State) :
    (s.pending = [] ∧ step s = .next s)
      ∨ (∃ c rest, s.pending = c :: rest ∧ (∃ err, decode c = .error err)
          ∧ step s = .next (({ s with pending := rest } : State).fail .illegal))
      ∨ ∃ c rest i, s.pending = c :: rest ∧ decode c = .ok i ∧ step s = exec i { s with pending := rest } := by
  cases hp : s.pending with
  | nil => exact .inl ⟨rfl, step_nil hp⟩
  | cons c rest =>
    rw [step_cons hp, runCommand]
    cases hd : decode c with
    | ok i => exact .inr (.inr ⟨c, rest, i, rfl, hd, rfl⟩)
    | error err => exact .inr (.inl ⟨c, rest, rfl, ⟨err, hd⟩, rfl⟩)

end Sys2Proof.Machine
end

