-- ==== Sys2Proof/Laws/Exec.lean ====
section
/-! SUPPORT. Everything a command can answer next, said once (`exec_next`): an answer of one of five shapes, with what a
completed unit command does to the engine's rate, length and soundness. Every invariant is derived from it. -/

namespace Sys2Proof.Machine

open F32 (Always)

/-! ### Replacing one sound unit by another keeps the units sound -/

theorem Units.setAp_ok {len : Nat} {u : Units} {k : Fin 3} {a : Allpass} (h : u.ok len = true) (ha : a.pair.ok len = true) :
    (u.setAp k a).ok len = true := by
  obtain ⟨h1, h2, h3, h4, h5, h6, h7⟩ := Units.ok_iff.mp h
  fin_cases k <;> exact Units.ok_iff.mpr ⟨by assumption, by assumption, by assumption, h4, h5, h6, h7⟩

theorem Units.setDfd_ok {len : Nat} {u : Units} {k : Fin 4} {q : Degraded} (h : u.ok len = true) (hq : q.ok len = true) :
    (u.setDfd k q).ok len = true := by
  obtain ⟨h1, h2, h3, h4, h5, h6, h7⟩ := Units.ok_iff.mp h
  fin_cases k <;>
    exact Units.ok_iff.mpr ⟨h1, h2, h3, by assumption, by assumption, by assumption, by assumption⟩

theorem Units.ap_ok {len : Nat} {u : Units} (h : u.ok len = true) (k : Fin 3) : (u.ap k).pair.ok len = true := by
  obtain ⟨h1, h2, h3, -⟩ := Units.ok_iff.mp h
  fin_cases k <;> assumption

theorem Units.dfd_ok {len : Nat} {u : Units} (h : u.ok len = true) (k : Fin 4) : (u.dfd k).ok len = true := by
  obtain ⟨-, -, -, h4, h5, h6, h7⟩ := Units.ok_iff.mp h
  fin_cases k <;> assumption

theorem Engine.ok_iff {cfg : Config.Params} {e : Engine} :
    e.ok cfg = true ↔ rateLegal cfg e.sr = true ∧ e.len = bufferLength e.sr ∧ 0 < e.len
      ∧ ∀ c, (e.units c).ok e.len = true := by
  constructor
  · intro h
    simp only [Engine.ok, Bool.and_eq_true, decide_eq_true_eq] at h
    obtain ⟨⟨⟨⟨h1, h2⟩, h3⟩, h4⟩, h5⟩ := h
    exact ⟨h1, h2, h3, fun c => by cases c <;> assumption⟩
  · rintro ⟨h1, h2, h3, h4⟩
    simp only [Engine.ok, Bool.and_eq_true, decide_eq_true_eq]
    exact ⟨⟨⟨⟨h1, h2⟩, h3⟩, h4 .left⟩, h4 .right⟩

theorem Engine.ap_ok {cfg : Config.Params} {e : Engine} (h : e.ok cfg = true) (c : Channel) (k : Fin 3) :
    (e.ap c k).pair.ok e.len = true := Units.ap_ok ((ok_iff.mp h).2.2.2 c) k

theorem Engine.dfd_ok {cfg : Config.Params} {e : Engine} (h : e.ok cfg = true) (c : Channel) (k : Fin 4) :
    (e.dfd c k).ok e.len = true := Units.dfd_ok ((ok_iff.mp h).2.2.2 c) k

theorem Engine.delay_ok {cfg : Config.Params} {e : Engine} (h : e.ok cfg = true) (d : Slot) :
    (e.delay d).ok e.len = true := by
  cases d with
  | ap c k sel =>
    obtain ⟨h0, h1⟩ := Pair.ok_iff.mp (Engine.ap_ok h c k)
    cases sel <;> assumption
  | dfd c k sel =>
    obtain ⟨-, h0, h1⟩ := Degraded.ok_iff.mp (Engine.dfd_ok h c k)
    cases sel <;> assumption

theorem Engine.inRange_of_ok {cfg : Config.Params} {e : Engine} (h : e.ok cfg = true) : e.inRange = true := by
  have hu := (ok_iff.mp h).2.2.2
  exact Bool.and_eq_true_iff.mpr ⟨Units.inRange_of_ok (hu .left), Units.inRange_of_ok (hu .right)⟩

/-- The engine of a command that completes keeps the rate and the length, and stays sound (R34, R36, R39). -/
structure Engine.Keeps (e e' : Engine) : Prop where
  sr  : e'.sr = e.sr
  len : e'.len = e.len
  ok  : ∀ cfg : Config.Params, e.ok cfg = true → e'.ok cfg = true

theorem Engine.keeps_setUnits {e : Engine} {c : Channel} {u : Units}
    (h : ∀ cfg : Config.Params, e.ok cfg = true → u.ok e.len = true) : e.Keeps (e.setUnits c u) where
  sr := by simp
  len := by simp
  ok cfg he := by
    obtain ⟨h1, h2, h3, h4⟩ := ok_iff.mp he
    refine ok_iff.mpr ⟨by simpa using h1, by simpa using h2, by simpa using h3, fun c' => ?_⟩
    simp only [units_setUnits, setUnits_len]
    split_ifs
    · exact h cfg he
    · exact h4 c'

theorem Engine.keeps_setAp {e : Engine} {c : Channel} {k : Fin 3} {a : Allpass}
    (h : ∀ cfg : Config.Params, e.ok cfg = true → a.pair.ok e.len = true) : e.Keeps (e.setAp c k a) :=
  keeps_setUnits fun cfg he => Units.setAp_ok ((ok_iff.mp he).2.2.2 c) (h cfg he)

theorem Engine.keeps_setDfd {e : Engine} {c : Channel} {k : Fin 4} {q : Degraded}
    (h : ∀ cfg : Config.Params, e.ok cfg = true → q.ok e.len = true) : e.Keeps (e.setDfd c k q) :=
  keeps_setUnits fun cfg he => Units.setDfd_ok ((ok_iff.mp he).2.2.2 c) (h cfg he)

theorem Engine.keeps_setDelay {e : Engine} {d : Slot} {v : Delay}
    (h : ∀ cfg : Config.Params, e.ok cfg = true → v.ok e.len = true) : e.Keeps (e.setDelay d v) := by
  cases d with
  | ap c k sel =>
    refine keeps_setAp fun cfg he => ?_
    obtain ⟨h0, h1⟩ := Pair.ok_iff.mp (Engine.ap_ok he c k)
    cases sel <;> exact Pair.ok_iff.mpr ⟨by first | exact h cfg he | assumption, by first | exact h cfg he | assumption⟩
  | dfd c k sel =>
    refine keeps_setDfd fun cfg he => ?_
    obtain ⟨hd, h0, h1⟩ := Degraded.ok_iff.mp (Engine.dfd_ok he c k)
    cases sel <;>
      exact Degraded.ok_iff.mpr ⟨hd, by first | exact h cfg he | assumption, by first | exact h cfg he | assumption⟩

theorem Engine.keeps_lfo (e : Engine) (l : Lfo) : e.Keeps { e with lfo := l } where
  sr := rfl
  len := rfl
  ok _ h := h

/-! ### What a command can answer next -/

/-- The five shapes of an answer. -/
inductive Answer (i : Instr) (s : State) : State → Prop where
  /-- NOP and RD_STATUS: an OK response and nothing else (R250, R252). -/
  | replied (rs : List Word) (h : i = .nop ∨ i = .rdStatus) : Answer i s (s.reply rs)
  /-- A successful ENG_INIT (R251). -/
  | constructed (sr : Word) (h : i = .engInit sr) (hr : rateLegal s.cfg sr = true)
      (hf : freqLegal sr s.cfg.lfoFreq = true) : Answer i s (s.construct (freshEngine s.cfg sr))
  /-- A failed ENG_INIT (R273). -/
  | initFailed (sr : Word) (c : Code) (h : i = .engInit sr) (hc : c = .rate ∨ c = .lfoFreq) : Answer i s (s.failInit c)
  /-- E_FAULTED (R275). -/
  | refused (h : exempt i = false) (he : statusErr s.status = true) : Answer i s s.failFaulted
  /-- Any other error (R273). -/
  | failed (c : Code) (h : exempt i = false) (hc : c = .illegal ∨ c = .notInit ∨ c = .amount ∨ c = .lfoFreq) :
      Answer i s (s.fail c)
  /-- A unit command or ENG_FRAME that completes. -/
  | completed (e e' : Engine) (n : Nat) (rs : List Word) (h : exempt i = false) (hs : s.Running e) (hk : e.Keeps e') :
      Answer i s (s.complete e' n rs)

theorem Answer.of_whenRunning {i : Instr} {s t : State} {f : Engine → Result} (hi : exempt i = false)
    (h : whenRunning s f = .next t) (hf : ∀ e, s.Running e → f e = .next t → Answer i s t) : Answer i s t := by
  rcases whenRunning_next h with ⟨he, rfl⟩ | ⟨-, -, rfl⟩ | ⟨e, hr, hfe⟩
  · exact .refused hi he
  · exact .failed _ hi (by simp)
  · exact hf e hr hfe

theorem Answer.of_onAllpass {i : Instr} {u : UnitAddr} {s t : State} {f : Engine → Fin 3 → Result} (hi : exempt i = false)
    (h : onAllpass u s f = .next t) (hf : ∀ e k, s.Running e → f e k = .next t → Answer i s t) : Answer i s t := by
  rcases onAllpass_next h with ⟨-, rfl⟩ | ⟨k, -, hk⟩
  · exact .failed _ hi (by simp)
  · exact .of_whenRunning hi hk fun e hr => hf e k hr

theorem Answer.of_onDegraded {i : Instr} {u : UnitAddr} {s t : State} {f : Engine → Fin 4 → Result} (hi : exempt i = false)
    (h : onDegraded u s f = .next t) (hf : ∀ e k, s.Running e → f e k = .next t → Answer i s t) : Answer i s t := by
  rcases onDegraded_next h with ⟨-, rfl⟩ | ⟨k, -, hk⟩
  · exact .failed _ hi (by simp)
  · exact .of_whenRunning hi hk fun e hr => hf e k hr

theorem Answer.of_onDelay {i : Instr} {d : DelayAddr} {s t : State} {f : Engine → Slot → Result} (hi : exempt i = false)
    (h : onDelay d s f = .next t) (hf : ∀ e k, s.Running e → f e k = .next t → Answer i s t) : Answer i s t := by
  rcases onDelay_next h with ⟨-, rfl⟩ | ⟨k, -, hk⟩
  · exact .failed _ hi (by simp)
  · exact .of_whenRunning hi hk fun e hr => hf e k hr

theorem Answer.of_complete {i : Instr} {s t : State} {e e' : Engine} {n : Nat} {rs : List Word} (hi : exempt i = false)
    (hs : s.Running e) (hk : e.Keeps e') (h : Host.Outcome.next (s.complete e' n rs) = (.next t : Result)) : Answer i s t :=
  Host.Outcome.next.inj h ▸ .completed e e' n rs hi hs hk

theorem Degraded.place_ok {len : Nat} {q : Degraded} (t : Nat) (h : q.ok len = true) : (q.place len t).ok len = true := by
  obtain ⟨hd, h0, h1⟩ := Degraded.ok_iff.mp h
  exact Degraded.ok_iff.mpr ⟨hd, Delay.place_ok t h0, Delay.place_ok t h1⟩

theorem Pair.place_ok {len : Nat} {p : Pair} (t : Nat) (h : p.ok len = true) : (p.place len t).ok len = true := by
  obtain ⟨h0, h1⟩ := Pair.ok_iff.mp h
  exact Pair.ok_iff.mpr ⟨Delay.place_ok t h0, Delay.place_ok t h1⟩

/-- A non-negative i32 is below 2^31 (R182). -/
theorem i32_toNat_lt {w : Word} (h : ¬ i32 w < 0) : (i32 w).toNat < 2 ^ 31 := by
  unfold i32 at h ⊢
  have := BitVec.toInt_lt (x := w)
  omega

theorem units_le_of_magBits_le {m b : Nat} (h : m < 2 ^ 23 * (b + 2)) :
    F32.unitsOfBits m < 2 ^ (24 + b) := by
  unfold F32.unitsOfBits
  split_ifs with hm
  · calc m < 2 ^ 23 := hm
      _ ≤ 2 ^ (24 + b) := Nat.pow_le_pow_right (by norm_num) (by omega)
  · have hk : m / 2 ^ 23 - 1 ≤ b := by
      have : m / 2 ^ 23 < b + 2 := Nat.div_lt_of_lt_mul h
      omega
    have hf : 2 ^ 23 + m % 2 ^ 23 < 2 ^ 24 := by
      have : m % 2 ^ 23 < 2 ^ 23 := Nat.mod_lt _ (by norm_num)
      omega
    calc (2 ^ 23 + m % 2 ^ 23) * 2 ^ (m / 2 ^ 23 - 1)
        < 2 ^ 24 * 2 ^ (m / 2 ^ 23 - 1) := Nat.mul_lt_mul_of_pos_right hf (Nat.two_pow_pos _)
      _ ≤ 2 ^ 24 * 2 ^ b := Nat.mul_le_mul_left _ (Nat.pow_le_pow_right (by norm_num) hk)
      _ = 2 ^ (24 + b) := (pow_add 2 24 b).symm

/-- The amount of an accepted intensity is below 2^31 (R220). -/
theorem amountOf_lt {di : Word} {n : Nat} (h : amountOf di = some n) : n < 2 ^ 31 := by
  unfold amountOf at h
  split_ifs at h with hc hneg
  · simp only [Option.some.injEq] at h
    omega
  · simp only [Option.some.injEq] at h
    simp only [Bool.and_eq_true, F32.lt, decide_eq_true_eq] at hc
    obtain ⟨-, -, hlt⟩ := hc
    have hkey : F32.orderKey di = (F32.magBits di : Int) := by simp [F32.orderKey, hneg]
    have hbound : F32.orderKey F32.twoPow31 = 0x4F000000 := by decide
    have hmag : F32.magBits di < 2 ^ 23 * (156 + 2) := by
      rw [hkey, hbound] at hlt
      omega
    have hu : F32.units di < 2 ^ (24 + 156) := units_le_of_magBits_le hmag
    rw [← h, F32.truncNat]
    exact Nat.div_lt_of_lt_mul (by rw [← pow_add]; exact hu)

/-- Everything a command can answer next. -/
theorem exec_next {i : Instr} {s t : State} (h : exec i s = .next t) : Answer i s t := by
  cases i with
  | nop => exact Host.Outcome.next.inj h ▸ .replied [] (.inl rfl)
  | rdStatus => exact Host.Outcome.next.inj h ▸ .replied _ (.inr rfl)
  | engInit sr =>
    simp only [exec, execEngInit] at h
    split_ifs at h with hr hf
    · exact Host.Outcome.next.inj h ▸ .constructed sr rfl hr hf
    · exact Host.Outcome.next.inj h ▸ .initFailed sr .lfoFreq rfl (.inr rfl)
    · exact Host.Outcome.next.inj h ▸ .initFailed sr .rate rfl (.inl rfl)
  | engFrame l r g da di sp se =>
    refine .of_whenRunning rfl h fun e hs h => ?_
    cases ha : amountOf di with
    | none =>
      simp only [ha] at h
      exact Host.Outcome.next.inj h ▸ .failed .amount rfl (by simp)
    | some amount =>
      simp only [ha, requireRange_next] at h
      refine .of_complete rfl hs ?_ h.2
      constructor
      · rfl
      · rfl
      · intro cfg he
        obtain ⟨h1, h2, h3, h4⟩ := Engine.ok_iff.mp he
        have hstep := engineFrame_step l r g da sp se (h4 .left) (h4 .right) (amountOf_lt ha) s.nanDraws
        exact Engine.ok_iff.mpr ⟨h1, h2, h3, fun c => by cases c; exacts [hstep.2.1, hstep.2.2]⟩
  | cdSetTime d time =>
    refine .of_onDelay rfl h fun e slot hs h => .of_complete rfl hs ?_ (requireLength_next.mp h).2
    exact Engine.keeps_setDelay fun cfg he => Delay.place_ok _ (Engine.delay_ok he slot)
  | cdProcess d x =>
    refine .of_onDelay rfl h fun e slot hs h => .of_complete rfl hs ?_ (requireRange_next.mp h).2
    exact Engine.keeps_setDelay fun cfg he => cdProc_ok _ (Engine.delay_ok he slot)
  | apSetG u g =>
    refine .of_onAllpass rfl h fun e k hs h => .of_complete rfl hs ?_ h
    exact Engine.keeps_setAp fun cfg he => Engine.ap_ok he u.ch k
  | apSetTime u time =>
    refine .of_onAllpass rfl h fun e k hs h => .of_complete rfl hs ?_ (requireLength_next.mp h).2
    exact Engine.keeps_setAp fun cfg he => Pair.place_ok _ (Engine.ap_ok he u.ch k)
  | apProcess u x =>
    refine .of_onAllpass rfl h fun e k hs h => .of_complete rfl hs ?_ (requireRange_next.mp h).2
    exact Engine.keeps_setAp fun cfg he => (apProc_step x (Engine.ap_ok he u.ch k) _).2
  | apFdpProcess u x =>
    refine .of_onAllpass rfl h fun e k hs h => .of_complete rfl hs ?_ (requireRange_next.mp h).2
    exact Engine.keeps_setAp fun cfg he => (fdpProc_step x (Engine.ap_ok he u.ch k) _).2
  | dfdSetFeedback u fb =>
    refine .of_onDegraded rfl h fun e k hs h => .of_complete rfl hs ?_ h
    exact Engine.keeps_setDfd fun cfg he => Engine.dfd_ok he u.ch k
  | dfdSetA u a =>
    refine .of_onDegraded rfl h fun e k hs h => .of_complete rfl hs ?_ h
    exact Engine.keeps_setDfd fun cfg he => Engine.dfd_ok he u.ch k
  | dfdSetRatio u r =>
    refine .of_onDegraded rfl h fun e k hs h => .of_complete rfl hs ?_ h
    exact Engine.keeps_setDfd fun cfg he => Engine.dfd_ok he u.ch k
  | dfdSetAmount u n =>
    refine .of_onDegraded rfl h fun e k hs h => ?_
    split_ifs at h with hn
    · exact Host.Outcome.next.inj h ▸ .failed .amount rfl (by simp)
    · refine .of_complete rfl hs (Engine.keeps_setDfd fun cfg he => ?_) h
      obtain ⟨hd, h0, h1⟩ := Degraded.ok_iff.mp (Engine.dfd_ok he u.ch k)
      refine Degraded.ok_iff.mpr ⟨?_, h0, h1⟩
      simp only [Downsampler.ok, Bool.and_eq_true, decide_eq_true_eq] at hd ⊢
      exact ⟨i32_toNat_lt hn, hd.2⟩
  | dfdSetTime u time =>
    refine .of_onDegraded rfl h fun e k hs h => .of_complete rfl hs ?_ (requireLength_next.mp h).2
    exact Engine.keeps_setDfd fun cfg he => Degraded.place_ok _ (Engine.dfd_ok he u.ch k)
  | dfdProcess u x =>
    refine .of_onDegraded rfl h fun e k hs h => .of_complete rfl hs ?_ (requireRange_next.mp h).2
    exact Engine.keeps_setDfd fun cfg he => (dfdProc_step x (Engine.dfd_ok he u.ch k) _).2
  | dsProcess u x r =>
    refine .of_onDegraded rfl h fun e k hs h => .of_complete rfl hs (Engine.keeps_setDfd fun cfg he => ?_) h
    obtain ⟨hd, h0, h1⟩ := Degraded.ok_iff.mp (Engine.dfd_ok he u.ch k)
    exact Degraded.ok_iff.mpr ⟨(dsProc_step _ x r s.nanDraws).2 hd, h0, h1⟩
  | lfoSetFreq f =>
    refine .of_whenRunning rfl h fun e hs h => ?_
    split_ifs at h with hf
    · exact .of_complete rfl hs (Engine.keeps_lfo e _) h
    · exact Host.Outcome.next.inj h ▸ .failed .lfoFreq rfl (by simp)
  | lfoNext => exact .of_whenRunning rfl h fun e hs h => .of_complete rfl hs (Engine.keeps_lfo e _) h

end Sys2Proof.Machine
end

