-- ==== Sys2Proof/Laws/Float.lean ====
section
/-! SUPPORT. Facts about the rounding of binary32 (spec/00_scope.md R12): the magnitude bits are ordered as their values,
an exact value rounds to itself, rounding is monotone, and the quarter of a legal sample rate is exact. -/

namespace Sys2Proof.Machine.F32

/-! ### The nearest integer -/

/-- `roundDiv a b` is a nearest integer to `a / b`. -/
theorem roundDiv_near (a : Nat) {b : Nat} (hb : 0 < b) :
    2 * a ≤ 2 * (roundDiv a b * b) + b ∧ 2 * (roundDiv a b * b) ≤ 2 * a + b := by
  have h := Nat.div_add_mod a b
  have hr := Nat.mod_lt a hb
  have hqb : b * (a / b) = a / b * b := Nat.mul_comm _ _
  unfold roundDiv
  simp only
  split_ifs with h1 h2
  · omega
  · rw [Nat.add_mul]; omega
  · have hq : a / b % 2 = 0 ∨ a / b % 2 = 1 := Nat.mod_two_eq_zero_or_one _
    rcases hq with hq | hq <;> rw [hq]
    · simp only [Nat.add_zero]; omega
    · rw [Nat.add_mul]; omega

/-- Of two equally near integers it is the even one. -/
theorem roundDiv_tie (a : Nat) {b : Nat} (hb : 0 < b)
    (h : 2 * a = 2 * (roundDiv a b * b) + b ∨ 2 * (roundDiv a b * b) = 2 * a + b) : roundDiv a b % 2 = 0 := by
  have hd := Nat.div_add_mod a b
  have hr := Nat.mod_lt a hb
  have hqb : b * (a / b) = a / b * b := Nat.mul_comm _ _
  revert h
  unfold roundDiv
  simp only
  split_ifs with h1 h2
  · omega
  · rw [Nat.add_mul]; omega
  · intro _; omega

/-- An exact quotient. -/
theorem roundDiv_mul (n : Nat) {b : Nat} (hb : 0 < b) : roundDiv (n * b) b = n := by
  simp [roundDiv, Nat.mul_div_cancel n hb, hb]

theorem roundDiv_le_div_succ (a b : Nat) : roundDiv a b ≤ a / b + 1 := by
  unfold roundDiv
  simp only
  split_ifs <;> omega

theorem div_le_roundDiv (a b : Nat) : a / b ≤ roundDiv a b := by
  unfold roundDiv
  simp only
  split_ifs <;> omega

/-- Rounding to an integer is monotone in the quotient. -/
theorem roundDiv_mono {a b a' b' : Nat} (hb : 0 < b) (hb' : 0 < b') (h : a * b' ≤ a' * b) :
    roundDiv a b ≤ roundDiv a' b' := by
  have hq : a / b ≤ a' / b' := by
    rw [Nat.le_div_iff_mul_le hb']
    have h1 : a / b * b ≤ a := Nat.div_mul_le_self a b
    have h2 : (a / b * b') * b ≤ a' * b := by
      calc (a / b * b') * b = (a / b * b) * b' := by ring
        _ ≤ a * b' := Nat.mul_le_mul_right _ h1
        _ ≤ a' * b := h
    exact Nat.le_of_mul_le_mul_right h2 hb
  rcases Nat.lt_or_ge (a / b) (a' / b') with hlt | hge
  · have h1 := roundDiv_le_div_succ a b
    have h2 := div_le_roundDiv a' b'
    omega
  · have heq : a / b = a' / b' := le_antisymm hq hge
    have hd := Nat.div_add_mod a b
    have hd' := Nat.div_add_mod a' b'
    -- with equal quotients the remainders are ordered as fractions
    have hrem : (a % b) * b' ≤ (a' % b') * b := by
      have e1 : a * b' = b * (a / b) * b' + (a % b) * b' := by rw [← Nat.add_mul, hd]
      have e2 : a' * b = b' * (a' / b') * b + (a' % b') * b := by rw [← Nat.add_mul, hd']
      rw [← heq] at e2
      have e3 : b * (a / b) * b' = b' * (a / b) * b := by ring
      omega
    have hA : b < 2 * (a % b) → b' < 2 * (a' % b') := fun hlt => by
      have h1 : b * b' < 2 * (a % b) * b' := Nat.mul_lt_mul_of_pos_right hlt hb'
      have h2 : b' * b < 2 * (a' % b') * b := by
        calc b' * b = b * b' := Nat.mul_comm _ _
          _ < 2 * ((a % b) * b') := by rw [← Nat.mul_assoc]; exact h1
          _ ≤ 2 * ((a' % b') * b) := Nat.mul_le_mul_left 2 hrem
          _ = 2 * (a' % b') * b := (Nat.mul_assoc _ _ _).symm
      exact Nat.lt_of_mul_lt_mul_right h2
    have hB : b ≤ 2 * (a % b) → b' ≤ 2 * (a' % b') := fun hle => by
      have h2 : b' * b ≤ 2 * (a' % b') * b := by
        calc b' * b = b * b' := Nat.mul_comm _ _
          _ ≤ 2 * (a % b) * b' := Nat.mul_le_mul_right _ hle
          _ = 2 * ((a % b) * b') := Nat.mul_assoc _ _ _
          _ ≤ 2 * ((a' % b') * b) := Nat.mul_le_mul_left 2 hrem
          _ = 2 * (a' % b') * b := (Nat.mul_assoc _ _ _).symm
      exact Nat.le_of_mul_le_mul_right h2 hb
    unfold roundDiv
    simp only [heq]
    split_ifs <;> omega

/-! ### Magnitude bits and values -/

/-- The value of a significand at a place: the bits that `roundBits` builds stand for `r * 2^k` units. -/
theorem unitsOfBits_build {k r : Nat} (h : k = 0 ∨ 2 ^ 23 ≤ r) (hr : r ≤ 2 ^ 24) :
    unitsOfBits (k * 2 ^ 23 + r) = r * 2 ^ k := by
  unfold unitsOfBits
  rcases Nat.lt_or_ge r (2 ^ 23) with hlt | hge
  · have hk : k = 0 := by omega
    subst hk
    rw [if_pos (by omega)]
    omega
  · have hnot : ¬ k * 2 ^ 23 + r < 2 ^ 23 := by omega
    rw [if_neg hnot]
    rcases Nat.lt_or_ge r (2 ^ 24) with hlt | hge'
    · have h1 : (k * 2 ^ 23 + r) / 2 ^ 23 = k + 1 := by omega
      have h2 : (k * 2 ^ 23 + r) % 2 ^ 23 = r - 2 ^ 23 := by omega
      rw [h1, h2, Nat.add_sub_cancel' hge, Nat.add_sub_cancel]
    · have hre : r = 2 ^ 24 := le_antisymm hr hge'
      have h1 : (k * 2 ^ 23 + r) / 2 ^ 23 = k + 2 := by omega
      have h2 : (k * 2 ^ 23 + r) % 2 ^ 23 = 0 := by omega
      rw [h1, h2, hre, show k + 2 - 1 = k + 1 by omega, pow_succ]
      ring

/-- Every magnitude has a place and a significand. -/
theorem exists_build (m : Nat) : ∃ k r, m = k * 2 ^ 23 + r ∧ (k = 0 ∨ 2 ^ 23 ≤ r) ∧ r < 2 ^ 24 := by
  rcases Nat.lt_or_ge m (2 ^ 23) with h | h
  · exact ⟨0, m, by omega, .inl rfl, by omega⟩
  · refine ⟨m / 2 ^ 23 - 1, 2 ^ 23 + m % 2 ^ 23, ?_, .inr (by omega), ?_⟩ <;> omega

/-- Bits order values. -/
theorem unitsOfBits_strictMono : StrictMono unitsOfBits := by
  refine strictMono_nat_of_lt_succ fun m => ?_
  obtain ⟨k, r, rfl, hk, hr⟩ := exists_build m
  rw [Nat.add_assoc, unitsOfBits_build hk (by omega), unitsOfBits_build (by omega) (by omega)]
  exact Nat.mul_lt_mul_of_pos_right (Nat.lt_succ_self r) (Nat.two_pow_pos k)

/-- The place and the significand of `roundBits`, with their bounds. -/
theorem roundBits_parts (a b : Nat) :
    let k := (a / b).log2 - 23
    let r := roundDiv a (b * 2 ^ k)
    (k = 0 ∨ 2 ^ 23 ≤ r) ∧ r ≤ 2 ^ 24 ∧ roundBits a b = min (k * 2 ^ 23 + r) 0x7F800000 := by
  intro k r
  have hdiv : a / (b * 2 ^ k) = a / b / 2 ^ k := (Nat.div_div_eq_div_mul a b (2 ^ k)).symm
  have hlow := div_le_roundDiv a (b * 2 ^ k)
  have hhigh := roundDiv_le_div_succ a (b * 2 ^ k)
  rw [hdiv] at hlow hhigh
  refine ⟨?_, ?_, rfl⟩
  · rcases Nat.eq_zero_or_pos k with h0 | hpos
    · exact .inl h0
    · right
      have hne : a / b ≠ 0 := by
        intro h
        have : k = 0 := by simp [k, h]
        omega
      have hlog : 2 ^ (a / b).log2 ≤ a / b := Nat.log2_self_le hne
      have hsplit : (a / b).log2 = 23 + k := by omega
      rw [hsplit, pow_add] at hlog
      exact le_trans ((Nat.le_div_iff_mul_le (Nat.two_pow_pos k)).mpr hlog) hlow
  · have hlt : a / b < 2 ^ ((a / b).log2 + 1) := Nat.lt_log2_self
    have hle : a / b < 2 ^ 24 * 2 ^ k := by
      rw [← pow_add]
      exact lt_of_lt_of_le hlt (Nat.pow_le_pow_right (by norm_num) (by omega))
    have : a / b / 2 ^ k < 2 ^ 24 := Nat.div_lt_of_lt_mul (by rw [Nat.mul_comm]; exact hle)
    omega

theorem roundBits_le (a b : Nat) : roundBits a b ≤ 0x7F800000 := Nat.min_le_right _ _

/-- An exact value rounds to itself. -/
theorem roundBits_exact {m b : Nat} (hb : 0 < b) (hm : m ≤ 0x7F800000) : roundBits (unitsOfBits m * b) b = m := by
  obtain ⟨k, r, rfl, hk, hr⟩ := exists_build m
  have hu := unitsOfBits_build hk hr.le
  have hplace : ((unitsOfBits (k * 2 ^ 23 + r) * b) / b).log2 - 23 = k := by
    rw [Nat.mul_div_cancel _ hb, hu]
    rcases hk with rfl | hk
    · simp only [pow_zero, Nat.mul_one, Nat.sub_eq_zero_iff_le]
      rcases Nat.eq_zero_or_pos r with rfl | hpos
      · simp
      · exact Nat.le_of_lt_succ ((Nat.log2_lt (by omega)).mpr (by omega))
    · have hlog : (r * 2 ^ k).log2 = 23 + k := by
        refine (Nat.log2_eq_iff (by positivity)).mpr ⟨?_, ?_⟩
        · rw [pow_add]; exact Nat.mul_le_mul_right _ hk
        · rw [show 23 + k + 1 = 24 + k by omega, pow_add]
          exact Nat.mul_lt_mul_of_pos_right hr (Nat.two_pow_pos k)
      rw [hlog]; omega
  have hround : roundDiv (unitsOfBits (k * 2 ^ 23 + r) * b) (b * 2 ^ k) = r := by
    rw [hu, show r * 2 ^ k * b = r * (b * 2 ^ k) by ring]
    exact roundDiv_mul r (Nat.mul_pos hb (Nat.two_pow_pos k))
  unfold roundBits
  simp only [hplace, hround]
  omega

/-- Rounding is monotone in the quotient. -/
theorem roundBits_mono {a b a' b' : Nat} (hb : 0 < b) (hb' : 0 < b') (h : a * b' ≤ a' * b) :
    roundBits a b ≤ roundBits a' b' := by
  obtain ⟨hk, hr, he⟩ := roundBits_parts a b
  obtain ⟨hk', hr', he'⟩ := roundBits_parts a' b'
  have hq : a / b ≤ a' / b' := by
    rw [Nat.le_div_iff_mul_le hb']
    have h1 : a / b * b ≤ a := Nat.div_mul_le_self a b
    have h2 : (a / b * b') * b ≤ a' * b := by
      calc (a / b * b') * b = (a / b * b) * b' := by ring
        _ ≤ a * b' := Nat.mul_le_mul_right _ h1
        _ ≤ a' * b := h
    exact Nat.le_of_mul_le_mul_right h2 hb
  have hlog : (a / b).log2 ≤ (a' / b').log2 := by
    rcases Nat.eq_zero_or_pos (a / b) with h0 | hpos
    · rw [h0]; simp
    · exact (Nat.le_log2 (by omega)).mpr (le_trans (Nat.log2_self_le (by omega)) hq)
  rw [he, he']
  refine min_le_min_right _ ?_
  rcases Nat.lt_or_ge ((a / b).log2 - 23) ((a' / b').log2 - 23) with hlt | hge
  · have hr23 : 2 ^ 23 ≤ roundDiv a' (b' * 2 ^ ((a' / b').log2 - 23)) := by
      rcases hk' with h0 | h0
      · omega
      · exact h0
    have : ((a / b).log2 - 23 + 1) * 2 ^ 23 ≤ ((a' / b').log2 - 23) * 2 ^ 23 := Nat.mul_le_mul_right _ hlt
    omega
  · have heq : (a / b).log2 - 23 = (a' / b').log2 - 23 := by omega
    rw [heq]
    refine Nat.add_le_add_left (roundDiv_mono (Nat.mul_pos hb (Nat.two_pow_pos _)) (Nat.mul_pos hb' (Nat.two_pow_pos _)) ?_) _
    calc a * (b' * 2 ^ ((a' / b').log2 - 23)) = a * b' * 2 ^ ((a' / b').log2 - 23) := by ring
      _ ≤ a' * b * 2 ^ ((a' / b').log2 - 23) := Nat.mul_le_mul_right _ h
      _ = a' * (b * 2 ^ ((a' / b').log2 - 23)) := by ring

/-- A bound on the exact value bounds the rounded bits. -/
theorem roundBits_le_of_le {a b m : Nat} (hb : 0 < b) (hm : m ≤ 0x7F800000) (h : a ≤ unitsOfBits m * b) :
    roundBits a b ≤ m := by
  calc roundBits a b ≤ roundBits (unitsOfBits m * b) b := roundBits_mono hb hb (Nat.mul_le_mul_right _ h)
    _ = m := roundBits_exact hb hm

theorem le_roundBits_of_le {a b m : Nat} (hb : 0 < b) (hm : m ≤ 0x7F800000) (h : unitsOfBits m * b ≤ a) :
    m ≤ roundBits a b := by
  calc m = roundBits (unitsOfBits m * b) b := (roundBits_exact hb hm).symm
    _ ≤ roundBits a b := roundBits_mono hb hb (Nat.mul_le_mul_right _ h)

/-! ### Words -/

theorem magBits_lt (v : Word) : magBits v < 2 ^ 31 := Nat.mod_lt _ (by norm_num)

theorem toNat_pack (neg : Bool) {m : Nat} (hm : m < 2 ^ 31) :
    (pack neg m).toNat = (if neg then 2 ^ 31 else 0) + m := by
  unfold pack
  rw [BitVec.toNat_ofNat, Nat.mod_eq_of_lt]
  split_ifs <;> omega

@[simp] theorem magBits_pack (neg : Bool) {m : Nat} (hm : m < 2 ^ 31) : magBits (pack neg m) = m := by
  rw [magBits, toNat_pack neg hm]
  split_ifs
  · rw [Nat.add_mod_left, Nat.mod_eq_of_lt hm]
  · rw [Nat.zero_add, Nat.mod_eq_of_lt hm]

@[simp] theorem isNeg_pack (neg : Bool) {m : Nat} (hm : m < 2 ^ 31) : isNeg (pack neg m) = neg := by
  rw [isNeg, BitVec.msb_eq_decide, toNat_pack neg hm]
  cases neg
  · simpa using hm
  · simp

/-- A word is its sign and its magnitude bits. -/
theorem pack_isNeg_magBits (v : Word) : pack (isNeg v) (magBits v) = v := by
  apply BitVec.eq_of_toNat_eq
  rw [toNat_pack _ (magBits_lt v), isNeg, BitVec.msb_eq_decide, magBits]
  have := v.isLt
  by_cases h : 2 ^ 31 ≤ v.toNat
  · rw [decide_eq_true h, if_pos rfl]; omega
  · rw [decide_eq_false h, if_neg Bool.false_ne_true]; omega

theorem magBits_of_nonneg {v : Word} (h : isNeg v = false) : magBits v = v.toNat := by
  rw [isNeg, BitVec.msb_eq_decide, decide_eq_false_iff_not] at h
  exact Nat.mod_eq_of_lt (by omega)

/-- Negation flips the sign and keeps the magnitude. -/
@[simp] theorem isNeg_neg (v : Word) : isNeg (neg v) = !isNeg v := by
  have h : (0x80000000#32).msb = true := by decide
  simp [isNeg, neg, BitVec.msb_xor, h]

@[simp] theorem magBits_neg (v : Word) : magBits (neg v) = magBits v := by
  rw [magBits, magBits, neg, BitVec.toNat_xor, Nat.xor_mod_two_pow]
  simp

/-! ### The buffer length (R34, R105, R251) -/

theorem le_four_iff {sr : Word} (h : le four sr = true) (h' : lt sr posInf = true) :
    isNeg sr = false ∧ 0x40800000 ≤ magBits sr ∧ magBits sr < 0x7F800000 := by
  simp only [le, lt, Bool.and_eq_true, decide_eq_true_eq] at h h'
  have h4 : orderKey four = 0x40800000 := by decide
  have hi : orderKey posInf = 0x7F800000 := by decide
  rw [h4] at h
  rw [hi] at h'
  unfold orderKey at h h'
  split_ifs at h h' with hneg
  · omega
  · exact ⟨by simpa using hneg, by omega, by omega⟩

/-- For a rate ENG_INIT accepts, `sr / 4.0` is exact and its floor is the units of `sr` over `4 * 2^149`. -/
theorem bufferLength_eq {sr : Word} (h : le four sr = true) (h' : lt sr posInf = true) :
    bufferLength sr = units sr / 2 ^ 151 := by
  obtain ⟨hneg, hlo, hhi⟩ := le_four_iff h h'
  have hu4 : units four = 2 ^ 151 := by decide
  -- subtracting 2 from the exponent field is dividing by 4
  have hq : units sr * 2 ^ 149 = unitsOfBits (magBits sr - 2 ^ 24) * 2 ^ 151 := by
    obtain ⟨k, r, hkr, hk, hr⟩ := exists_build (magBits sr)
    have hk2 : 2 ≤ k := by omega
    obtain ⟨j, rfl⟩ : ∃ j, k = j + 2 := ⟨k - 2, by omega⟩
    have hsub : magBits sr - 2 ^ 24 = j * 2 ^ 23 + r := by omega
    have hr23 : 2 ^ 23 ≤ r := by omega
    rw [units, hsub, hkr, unitsOfBits_build (.inr hr23) hr.le, unitsOfBits_build (.inr hr23) hr.le]
    rw [pow_add, show (2 : Nat) ^ 151 = 2 ^ 2 * 2 ^ 149 by norm_num]
    ring
  have hm : magBits sr - 2 ^ 24 < 2 ^ 31 := by have := magBits_lt sr; omega
  have hdiv : divNum sr four = some (pack false (magBits sr - 2 ^ 24)) := by
    have hn : isNaN sr = false := by simp [isNaN]; omega
    have hn4 : isNaN four = false := by decide
    have hi : isInf sr = false := by simp [isInf]; omega
    have hi4 : isInf four = false := by decide
    have hz4 : isZero four = false := by decide
    have hneg4 : isNeg four = false := by decide
    unfold divNum
    simp only [hn, hn4, hi, hi4, hz4, hneg, hneg4, Bool.or_self, Bool.false_eq_true, if_false, bne_self_eq_false]
    rw [hu4, hq, roundBits_exact (by norm_num) (by omega)]
  unfold bufferLength
  rw [hdiv]
  simp only [truncNat]
  rw [units, magBits_pack _ hm]
  have : units sr / 2 ^ 151 = units sr * 2 ^ 149 / 2 ^ 151 / 2 ^ 149 := by
    rw [Nat.div_div_eq_div_mul, Nat.mul_div_mul_right _ _ (by norm_num)]
  rw [this, hq, Nat.mul_div_cancel _ (by norm_num)]

/-- The length of a legal rate is at least 1 (R105). -/
theorem bufferLength_pos {sr : Word} (h : le four sr = true) (h' : lt sr posInf = true) : 0 < bufferLength sr := by
  rw [bufferLength_eq h h']
  obtain ⟨hneg, hlo, hhi⟩ := le_four_iff h h'
  have hu4 : unitsOfBits 0x40800000 = 2 ^ 151 := by decide
  have : 2 ^ 151 ≤ units sr := by
    rw [← hu4]
    exact unitsOfBits_strictMono.monotone hlo
  exact Nat.div_pos this (by norm_num)

end Sys2Proof.Machine.F32
end

