-- ==== Sys2Proof/Laws/PerInstr.lean ====
section
/-! SUPPORT. Statements about every instruction as syntax, one lemma per constructor (spec/30_encoding.md R81, R84,
R85). -/

namespace Sys2Proof.Laws.OpcodeField

/-- The one word of a row is its value, which matches under any format's mask and carries the row's opcode. -/
theorem plain_word (op : Opcode) : op.matchWord &&& op.format.mask = op.matchWord ∧ opcField op.matchWord = op.code := by
  cases op <;> decide

/-- A format U word matches its row's mask and value and carries the row's opcode, for every unit its three index bits
can name. -/
theorem unit_word (op : Opcode) (c : Channel) (k : Fin 8) :
    (encodeUnit op ⟨c, k⟩) &&& Format.u.mask = op.matchWord ∧ opcField (encodeUnit op ⟨c, k⟩) = op.code := by
  cases op <;> cases c <;> (revert k; decide)

/-- The same of a format C word. -/
theorem delay_word (op : Opcode) (c : Channel) (k : Fin 8) (sel : DelaySel) (kind : HostKind) :
    (encodeDelay op ⟨c, k, sel, kind⟩) &&& Format.c.mask = op.matchWord
      ∧ opcField (encodeDelay op ⟨c, k, sel, kind⟩) = op.code := by
  cases op <;> cases c <;> cases sel <;> cases kind <;> (revert k; decide)

/-- The command word of a well-formed instruction matches its row of R84 under the row's mask (R85) and carries its
opcode, and it has exactly its row's operand words. -/
def Statement (i : Instr) : Prop :=
  i.wf = true →
    ((encode i).word &&& i.opcode.format.mask = i.opcode.matchWord ∧ opcField (encode i).word = i.opcode.code)
      ∧ (encode i).ops.length = i.opcode.operandCount

/-- An index an instruction may have is one its three bits can hold. -/
theorem unit_ok {op : Opcode} {u : UnitAddr} (h : u.idx ≤ 3) :
    (encodeUnit op u) &&& Format.u.mask = op.matchWord ∧ opcField (encodeUnit op u) = op.code :=
  unit_word op u.ch ⟨u.idx, by omega⟩

theorem delay_ok {op : Opcode} {d : DelayAddr} (h : d.namesDelay = true) :
    (encodeDelay op d) &&& Format.c.mask = op.matchWord ∧ opcField (encodeDelay op d) = op.code := by
  refine delay_word op d.ch ⟨d.idx, ?_⟩ d.sel d.kind
  unfold DelayAddr.namesDelay at h
  split at h <;> simp only [decide_eq_true_eq] at h <;> omega

theorem nop : Statement (.nop) := fun _ => by decide
theorem engInit (sr : Word) : Statement (.engInit sr) := fun _ => ⟨plain_word _, rfl⟩
theorem engFrame (l r g da di sp se : Word) : Statement (.engFrame l r g da di sp se) := fun _ => ⟨plain_word _, rfl⟩
theorem rdStatus : Statement (.rdStatus) := fun _ => by decide
theorem cdSetTime (d : DelayAddr) (t : Word) : Statement (.cdSetTime d t) := fun h => ⟨delay_ok h, rfl⟩
theorem cdProcess (d : DelayAddr) (x : Word) : Statement (.cdProcess d x) := fun h => ⟨delay_ok h, rfl⟩
theorem apSetG (u : UnitAddr) (g : Word) : Statement (.apSetG u g) := fun h => ⟨unit_ok (Nat.le_succ_of_le (of_decide_eq_true h)), rfl⟩
theorem apSetTime (u : UnitAddr) (t : Word) : Statement (.apSetTime u t) := fun h => ⟨unit_ok (Nat.le_succ_of_le (of_decide_eq_true h)), rfl⟩
theorem apProcess (u : UnitAddr) (x : Word) : Statement (.apProcess u x) := fun h => ⟨unit_ok (Nat.le_succ_of_le (of_decide_eq_true h)), rfl⟩
theorem apFdpProcess (u : UnitAddr) (x : Word) : Statement (.apFdpProcess u x) := fun h => ⟨unit_ok (Nat.le_succ_of_le (of_decide_eq_true h)), rfl⟩
theorem dfdSetFeedback (u : UnitAddr) (fb : Word) : Statement (.dfdSetFeedback u fb) := fun h => ⟨unit_ok (of_decide_eq_true h), rfl⟩
theorem dfdSetA (u : UnitAddr) (a : Word) : Statement (.dfdSetA u a) := fun h => ⟨unit_ok (of_decide_eq_true h), rfl⟩
theorem dfdSetAmount (u : UnitAddr) (n : Word) : Statement (.dfdSetAmount u n) := fun h => ⟨unit_ok (of_decide_eq_true h), rfl⟩
theorem dfdSetRatio (u : UnitAddr) (r : Word) : Statement (.dfdSetRatio u r) := fun h => ⟨unit_ok (of_decide_eq_true h), rfl⟩
theorem dfdSetTime (u : UnitAddr) (t : Word) : Statement (.dfdSetTime u t) := fun h => ⟨unit_ok (of_decide_eq_true h), rfl⟩
theorem dfdProcess (u : UnitAddr) (x : Word) : Statement (.dfdProcess u x) := fun h => ⟨unit_ok (of_decide_eq_true h), rfl⟩
theorem dsProcess (u : UnitAddr) (x r : Word) : Statement (.dsProcess u x r) := fun h => ⟨unit_ok (of_decide_eq_true h), rfl⟩
theorem lfoSetFreq (f : Word) : Statement (.lfoSetFreq f) := fun _ => ⟨plain_word _, rfl⟩
theorem lfoNext : Statement (.lfoNext) := fun _ => by decide

end Sys2Proof.Laws.OpcodeField
end

