-- ==== Sys2Proof/Tests/Slice0.lean ====
section
/-! SUPPORT. The model's own tests. Expected values come from spec/30_encoding.md (words), spec/95_test_vectors.md (the
vector named in each docstring) and hand calculation from the rules; and one witness for the hypotheses of each
obligation that has any. -/

namespace Sys2Proof.Tests

open Sys2Proof Sys2Proof.Machine

/-! ### Helpers: small states -/

/-- The engine after `ENG_INIT 16.0`: `ENG.L = 4`. -/
def engine16 : Engine := freshEngine Config.reference 0x41800000#32

/-- A block that runs it. -/
def running : State := { State.reset with status := 0x00000001#32, engine := some engine16 }

/-- A faulted block: an illegal command after `ENG_INIT 16.0`. -/
def faulted : State := { running with status := 0x00000013#32 }

/-- A state with one command sent. -/
def State.send (s : State) (word : Word) (ops : List Word) : State := { s with pending := [⟨word, ops⟩] }

/-- What a test looks at: the response, STATUS and one value of the engine. -/
def seen {α : Type} (r : Result) (f : Engine → α) : Option (Option Response × Word × Option α) :=
  match r with
  | .next t => some (t.response, t.status, t.engine.map f)
  | _ => none

/-- An OK response with these words from a running block. -/
def okWith {α : Type} (results : List Word) (a : α) : Option (Option Response × Word × Option α) :=
  some (some ⟨.ok, results⟩, 0x00000001#32, some a)

/-- One command sent to a block answers so, with STATUS after it. -/
def answers (s : State) (word : Word) (ops : List Word) (c : Code) (results : List Word) (status : Word) : Bool :=
  match step (State.send s word ops) with
  | .next t => t.response == some ⟨c, results⟩ && t.status == status
  | _ => false

/-- The instruction completes with an OK response. -/
def completes (i : Instr) (s : State) : Bool :=
  match exec i s with
  | .next t => (t.response.map Response.code == some .ok) && t.engine.isSome
  | _ => false

/-- What `completes` says. -/
theorem completes_next {i : Instr} {s : State} (h : completes i s = true) :
    ∃ t rs e', exec i s = .next t ∧ t.response = some ⟨.ok, rs⟩ ∧ t.engine = some e' := by
  unfold completes at h
  split at h
  · rename_i t ht
    simp only [Bool.and_eq_true, beq_iff_eq, Option.isSome_iff_exists] at h
    obtain ⟨hr, e', he⟩ := h
    cases hresp : t.response with
    | none => simp [hresp] at hr
    | some resp =>
      obtain ⟨c, rs⟩ := resp
      simp [hresp] at hr
      subst hr
      exact ⟨t, rs, e', ht, hresp, he⟩
  · cases h

/-! ### WellFormed: each check refuses an ill-formed term (R82) -/

theorem test_wf_allpass : (Instr.apProcess ⟨.left, 3⟩ 0).wf = false ∧ (Instr.apProcess ⟨.left, 2⟩ 0).wf = true := by decide
theorem test_wf_degraded : (Instr.dsProcess ⟨.right, 4⟩ 0 0).wf = false ∧ (Instr.dfdSetTime ⟨.right, 3⟩ 0).wf = true := by
  decide
theorem test_wf_delay_allpass :
    (Instr.cdProcess ⟨.left, 3, .primary, .allpass⟩ 0).wf = false
      ∧ (Instr.cdProcess ⟨.left, 2, .primary, .allpass⟩ 0).wf = true := by decide
theorem test_wf_delay_degraded :
    (Instr.cdSetTime ⟨.left, 4, .secondary, .degraded⟩ 0).wf = false
      ∧ (Instr.cdSetTime ⟨.left, 3, .secondary, .degraded⟩ 0).wf = true := by decide

/-! ### Decoding: a word of every constructor, written out from R81 and R84 -/

/-- Format N: OPC in bits 31:24 and nothing else. -/
theorem test_decode_control :
    decode ⟨0x00000000#32, []⟩ = .ok .nop
      ∧ decode ⟨0x01000000#32, [0x41800000#32]⟩ = .ok (.engInit 0x41800000#32)
      ∧ decode ⟨0x02000000#32, [1#32, 2#32, 3#32, 4#32, 5#32, 6#32, 7#32]⟩
          = .ok (.engFrame 1#32 2#32 3#32 4#32 5#32 6#32 7#32)
      ∧ decode ⟨0x03000000#32, []⟩ = .ok .rdStatus := by decide

theorem test_decode_lfo :
    decode ⟨0x40000000#32, [0x40800000#32]⟩ = .ok (.lfoSetFreq 0x40800000#32)
      ∧ decode ⟨0x41000000#32, []⟩ = .ok .lfoNext := by decide

/-- Format C: CH bit 23, IDX bits 22:20, SEL bit 19, K bit 18: `0001_0000 1 010 0 0 …` and `0001_0001 1 011 1 1 …`
(0x11BC0000 is V-CD-7's word). -/
theorem test_decode_delay :
    decode ⟨0b00010000101000000000000000000000#32, [2#32]⟩ = .ok (.cdSetTime ⟨.right, 2, .primary, .allpass⟩ 2#32)
      ∧ decode ⟨0x11BC0000#32, [9#32]⟩ = .ok (.cdProcess ⟨.right, 3, .secondary, .degraded⟩ 9#32) := by decide

/-- Format U: CH bit 23, IDX bits 22:20. -/
theorem test_decode_allpass :
    decode ⟨0x20A00000#32, [7#32]⟩ = .ok (.apSetG ⟨.right, 2⟩ 7#32)
      ∧ decode ⟨0x21100000#32, [1#32]⟩ = .ok (.apSetTime ⟨.left, 1⟩ 1#32)
      ∧ decode ⟨0x22100000#32, [5#32]⟩ = .ok (.apProcess ⟨.left, 1⟩ 5#32)
      ∧ decode ⟨0x23800000#32, [6#32]⟩ = .ok (.apFdpProcess ⟨.right, 0⟩ 6#32) := by decide

theorem test_decode_degraded :
    decode ⟨0x30000000#32, [1#32]⟩ = .ok (.dfdSetFeedback ⟨.left, 0⟩ 1#32)
      ∧ decode ⟨0x31900000#32, [2#32]⟩ = .ok (.dfdSetA ⟨.right, 1⟩ 2#32)
      ∧ decode ⟨0x32100000#32, [0xFFFFFFFF#32]⟩ = .ok (.dfdSetAmount ⟨.left, 1⟩ 0xFFFFFFFF#32)
      ∧ decode ⟨0x33200000#32, [4#32]⟩ = .ok (.dfdSetRatio ⟨.left, 2⟩ 4#32)
      ∧ decode ⟨0x34B00000#32, [0x73C#32]⟩ = .ok (.dfdSetTime ⟨.right, 3⟩ 0x73C#32)
      ∧ decode ⟨0x35100000#32, [5#32]⟩ = .ok (.dfdProcess ⟨.left, 1⟩ 5#32) := by decide

theorem test_decode_downsampler :
    decode ⟨0x38B00000#32, [5#32, 6#32]⟩ = .ok (.dsProcess ⟨.right, 3⟩ 5#32 6#32) := by decide

/-- Each way of not being a legal command (V-CTL rows 7, 9, 10, 11, 12, 14, 15; R65). -/
theorem test_decode_rejects :
    decode ⟨0x04000000#32, []⟩ = .error .reservedOpcode
      ∧ decode ⟨0x00000001#32, []⟩ = .error .mustBeZero
      ∧ decode ⟨0x22300000#32, [0#32]⟩ = .error .unitIndex
      ∧ decode ⟨0x35C00000#32, [0#32]⟩ = .error .unitIndex
      ∧ decode ⟨0x11300000#32, [0#32]⟩ = .error .unitIndex
      ∧ decode ⟨0x20080000#32, [0#32]⟩ = .error .mustBeZero
      ∧ decode ⟨0x02000000#32, [0#32, 0#32, 0#32, 0#32, 0#32, 0#32]⟩ = .error .operandCount
      ∧ decodeBytes [0x00#8, 0x00#8, 0x00#8] = .error .partialWord := by decide

/-- The transport carries the least significant byte first (R65). -/
theorem test_decode_bytes :
    decodeBytes [0x00#8, 0x00#8, 0x10#8, 0x21#8, 0x01#8, 0x00#8, 0x00#8, 0x00#8]
      = .ok (.apSetTime ⟨.left, 1⟩ 1#32) := by decide

/-- The table's numbering: the operand word of LFO_SET_FREQ in bits 63:32. -/
theorem test_decode_table_word :
    decodeTableWord 64 0x4080000040000000 = some (.lfoSetFreq 0x40800000#32)
      ∧ decodeTableWord 32 0x38000000 = some (.dsProcess ⟨.left, 0⟩ 0#32 0#32)
      ∧ decodeTableWord 32 0x05000000 = none := by decide

/-- A fetched word runs next: RD_STATUS right after power-on (V-CTL row 1). -/
theorem test_fetch_word :
    step (State.reset.withFetchWord 32 0x03000000)
      = .next { State.reset with response := some ⟨.ok, [0x00000000#32]⟩ } := rfl

/-! ### Assembly (R90, R91) -/

/-- `0.7` and `-2.5e-1` are the nearest binary32 values. -/
theorem test_asm_float :
    (AsmFloat.decimal false 7 1).word = 0x3F333333#32 ∧ (AsmFloat.decimal true 25 2).word = 0xBE800000#32 := by
  decide

/-- FRAME_DEFAULT is ENG_FRAME with the defaults (P4 row 2's words). -/
theorem test_asm_pseudo :
    assemble [.pseudo (.frameDefault 0x3F800000#32 0x3F800000#32)]
      = [⟨0x02000000#32, [0x3F800000#32, 0x3F800000#32, 0x3F333333#32, 0#32, 0#32, 0#32, 0#32]⟩] := by decide

/-- R90's two examples, P2's row 2, V-CTL's illegal unit and a comment. -/
theorem test_asm_text :
    (parseProgram "CD_PROCESS cd.ap0.0.d0, 1.0 ; R90\nDFD_SET_TIME dfd1.3, 1852\n\nAP_SET_TIME ap0.1, 1").map assemble
      = some [⟨0x11000000#32, [0x3F800000#32]⟩, ⟨0x34B00000#32, [0x0000073C#32]⟩, ⟨0x21100000#32, [0x00000001#32]⟩] := by
  decide

/-- R182's and R161's rows, exact bit patterns, and a pseudo-instruction with both of its commands (R91). -/
theorem test_asm_text_operands :
    (parseProgram "DFD_SET_AMOUNT dfd0.1, -1\nAP_PROCESS ap0.3, f:0x3F800000\nAP_CONFIG ap1.2, 0.7, 5\nRD_STATUS").map assemble
      = some [⟨0x32100000#32, [0xFFFFFFFF#32]⟩, ⟨0x22300000#32, [0x3F800000#32]⟩, ⟨0x20A00000#32, [0x3F333333#32]⟩,
          ⟨0x21A00000#32, [0x00000005#32]⟩, ⟨0x03000000#32, []⟩]
      ∧ parseProgram "AP_SET_G ap0.1" = none ∧ parseProgram "NOPE" = none := by decide

/-- What the writer writes, the reader reads. -/
theorem test_asm_round_trip :
    [Instr.cdProcess ⟨.right, 3, .secondary, .degraded⟩ 0x80000000#32, .dfdSetAmount ⟨.left, 2⟩ 0x80000000#32,
      .engFrame 1#32 2#32 3#32 4#32 5#32 6#32 0xDEADBEEF#32, .lfoNext].map (fun i => parseProgram (asm i))
      = [some [.command (.cdProcess ⟨.right, 3, .secondary, .degraded⟩ 0x80000000#32)],
          some [.command (.dfdSetAmount ⟨.left, 2⟩ 0x80000000#32)],
          some [.command (.engFrame 1#32 2#32 3#32 4#32 5#32 6#32 0xDEADBEEF#32)], some [.command .lfoNext]] := by
  decide +kernel

/-! ### Memory and reset -/

/-- Writing the fill word removes the entry, and the form stays canonical. -/
theorem test_memory_canonical :
    Memory.write (Memory.write [] 2 5#32) 0 7#32 = [(0, 7#32), (2, 5#32)]
      ∧ Memory.write [(0, 7#32), (2, 5#32)] 0 0#32 = [(2, 5#32)]
      ∧ Memory.wf [(0, 7#32), (2, 5#32)] = true ∧ Memory.wf [(2, 5#32), (0, 7#32)] = false
      ∧ Memory.wf [(2, 0#32)] = false := by decide

theorem test_reset_ok : State.reset.ok = true := by decide

/-! ### Control commands and errors (V-CTL) -/

/-- V-CTL rows 2 and 3: NOP at power-on; LFO_NEXT before ENG_INIT. -/
theorem test_power_on_commands :
    answers .reset 0x00000000#32 [] .ok [] 0x00000000#32 = true
      ∧ answers .reset 0x41000000#32 [] .notInit [] 0x00000032#32 = true := by decide

/-- V-CTL row 6 and W8: ENG_INIT from a fault; at 44100.0 the length is 11025 and the read cursor of `DFD[c][0]` 9702. -/
theorem test_eng_init :
    answers faulted 0x01000000#32 [0x41800000#32] .ok [] 0x00000001#32 = true
      ∧ (freshEngine Config.reference 0x472C4400#32).len = 11025
      ∧ ((freshEngine Config.reference 0x472C4400#32).delay (.dfd .right 0 .secondary)).r = 9702 := by decide

/-- V-CTL rows 18, 20 and 21: 3.99 and +inf are E_RATE; 4.0 is accepted. -/
theorem test_eng_init_rate :
    answers faulted 0x01000000#32 [0x407F5C29#32] .rate [] 0x00000042#32 = true
      ∧ answers running 0x01000000#32 [0x7F800000#32] .rate [] 0x00000042#32 = true
      ∧ answers faulted 0x01000000#32 [0x40800000#32] .ok [] 0x00000001#32 = true := by decide

/-- V-CTL rows 22 and 23: LFO_FREQ too large for the rate; a length beyond MAX_LEN. -/
theorem test_eng_init_parameters :
    answers { State.reset with cfg := { Config.reference with lfoFreq := 0x41200000#32 } } 0x01000000#32 [0x41000000#32]
        .lfoFreq [] 0x00000062#32 = true
      ∧ answers { State.reset with cfg := { Config.reference with maxLen := some 1000 } } 0x01000000#32 [0x472C4400#32]
        .rate [] 0x00000042#32 = true := by decide

/-- V-CTL rows 5, 7 and 8: a faulted block refuses work and still answers RD_STATUS; a reserved opcode. -/
theorem test_faulted_and_illegal :
    answers faulted 0x41000000#32 [] .faulted [] 0x00000013#32 = true
      ∧ answers running 0x04000000#32 [] .illegal [] 0x00000013#32 = true
      ∧ answers faulted 0x03000000#32 [] .ok [0x00000013#32] 0x00000013#32 = true := by decide

/-! ### Units -/

/-- The delay of V-CD-5: after inputs 1, 2, 3 at time 0. -/
def delay123 : Delay := ⟨[(0, 0x3F800000#32), (1, 0x40000000#32), (2, 0x40400000#32)], 3, 3, 0x40400000#32⟩

def running123 : State := { running with engine := some (engine16.setDelay (.ap .left 0 .primary) delay123) }

/-- V-CD-5: `CD_SET_TIME 2` gives `r = 1`. -/
theorem test_cd_set_time :
    seen (exec (.cdSetTime ⟨.left, 0, .primary, .allpass⟩ 2#32) running123)
        (fun e => (e.delay (.ap .left 0 .primary)).r) = okWith [] 1 := by decide

/-- V-CD-5 continued: then input 4.0 returns 2.0 and the write cursor wraps. -/
theorem test_cd_process :
    seen (exec (.cdProcess ⟨.left, 0, .primary, .allpass⟩ 0x40800000#32)
        { running with engine := some (engine16.setDelay (.ap .left 0 .primary) { delay123 with r := 1 }) })
        (fun e => ((e.delay (.ap .left 0 .primary)).w, (e.delay (.ap .left 0 .primary)).r,
          (e.delay (.ap .left 0 .primary)).buf.read 3))
      = okWith [0x40000000#32] (0, 2, 0x40800000#32) := by decide

theorem test_ap_set_g :
    seen (exec (.apSetG ⟨.right, 2⟩ 0x3F000000#32) running) (fun e => ((e.ap .right 2).g, (e.ap .left 2).g))
      = okWith [] (0x3F000000#32, 0x00000000#32) := by decide

/-- `AP_SET_TIME ap0.1, 1` at `L = 4`, cursors at 0: both read cursors go to 3 (R121). -/
theorem test_ap_set_time :
    seen (exec (.apSetTime ⟨.left, 1⟩ 1#32) running)
        (fun e => ((e.delay (.ap .left 1 .primary)).r, (e.delay (.ap .left 1 .secondary)).r))
      = okWith [] (3, 3) := by decide

/-- `AP[0][1]` at `g` and time 1, as V-AP and V-FDP set it. -/
def withAllpass (g lf : Word) : State :=
  let d : Delay := ⟨[], 0, 3, 0#32⟩
  { running with engine := some (engine16.setAp .left 1 ⟨g, ⟨d, d, 0#32, lf⟩⟩) }

/-- V-AP, g = 0.5, time 1, call 0: input 1.0 gives -0.5. -/
theorem test_ap_process :
    seen (exec (.apProcess ⟨.left, 1⟩ 0x3F800000#32) (withAllpass 0x3F000000#32 0#32))
        (fun e => (e.delay (.ap .left 1 .primary)).buf) = okWith [0xBF000000#32] [(0, 0x3F800000#32)] := by decide

/-- V-FDP, g = 0.5, call 3 (`lf` = 1.0 before it): input +0.0 stores 0.5 and returns the delayed word. -/
theorem test_ap_fdp_process :
    seen (exec (.apFdpProcess ⟨.left, 1⟩ 0#32) (withAllpass 0x3F000000#32 0x3F800000#32))
        (fun e => ((e.delay (.ap .left 1 .primary)).buf.read 0, (e.ap .left 1).pair.lf))
      = okWith [0#32] (0x3F000000#32, 0#32) := by decide

theorem test_dfd_setters :
    seen (exec (.dfdSetFeedback ⟨.left, 3⟩ 7#32) running) (fun e => (e.dfd .left 3).fb) = okWith [] 7#32
      ∧ seen (exec (.dfdSetA ⟨.left, 3⟩ 7#32) running) (fun e => (e.dfd .left 3).a) = okWith [] 7#32
      ∧ seen (exec (.dfdSetRatio ⟨.left, 3⟩ 7#32) running) (fun e => (e.dfd .left 3).ratio) = okWith [] 7#32
      ∧ seen (exec (.dfdSetTime ⟨.left, 3⟩ 7#32) running) (fun e => (e.delay (.dfd .left 3 .secondary)).r)
          = okWith [] 1 := by decide

/-- V-CTL row 16: a negative amount is E_AMOUNT; 2147483647 is stored. -/
theorem test_dfd_set_amount :
    answers running 0x32100000#32 [0xFFFFFFFF#32] .amount [] 0x00000053#32 = true
      ∧ seen (exec (.dfdSetAmount ⟨.left, 1⟩ 0x7FFFFFFF#32) running) (fun e => (e.dfd .left 1).ds.amount)
          = okWith [] 2147483647 := by decide

/-- V-DS, amount 3, ratio 0.5, call 2: counter 0, held 2.0, input 3.0 gives 2.5; call 1 latches. -/
theorem test_ds_process :
    ((dsProc ⟨3, 0, 0x40000000#32⟩ 0x40400000#32 0x3F000000#32).run 0).1 = (0x40200000#32, ⟨3, 2, 0x40000000#32⟩)
      ∧ ((dsProc ⟨3, 2, 0x00000000#32⟩ 0x40000000#32 0x3F000000#32).run 0).1
          = (0x40000000#32, ⟨3, 0, 0x40000000#32⟩) := by decide

/-- V-DFD, fb 0.5, a 0.5, amount 3, ratio 0.5, call 2: the raw feedback is 1.0, the downsampler holds +0.0, and the new
`lf` is 0.75. -/
theorem test_dfd_process :
    seen (exec (.dfdProcess ⟨.left, 0⟩ 0#32)
        { running with engine := some (engine16.setDfd .left 0
          ⟨0x3F000000#32, 0x3F000000#32, 0x3F000000#32, ⟨3, 0, 0#32⟩, ⟨[(0, 0x3F800000#32)], 2, 1, 0x3F800000#32⟩,
            ⟨[(1, 0x3F800000#32)], 2, 1, 0#32⟩, 0x3F800000#32, 0#32⟩) })
        (fun e => ((e.dfd .left 0).lf, (e.dfd .left 0).ds)) = okWith [0#32] (0x3F400000#32, ⟨3, 2, 0#32⟩) := by
  decide

/-- V-LFO-4: 16.0 and a NaN are E_LFOFREQ, -0.0 is stored. -/
theorem test_lfo_set_freq :
    answers running 0x40000000#32 [0x41800000#32] .lfoFreq [] 0x00000063#32 = true
      ∧ answers running 0x40000000#32 [0x7FC00000#32] .lfoFreq [] 0x00000063#32 = true
      ∧ seen (exec (.lfoSetFreq 0x80000000#32) running) (fun e => e.lfo.freq) = okWith [] 0x80000000#32 := by decide

/-- V-LFO-1 call 0 (SIN(+0.0) = +0.0) and V-LFO-3 calls 1 and 3: the phase after. -/
theorem test_lfo_next :
    seen (exec .lfoNext running) (fun e => e.lfo.phase) = okWith [0#32] 0x3D800000#32
      ∧ ((lfoProc 0x41800000#32 ⟨0x417FFFFF#32, 0x3F7FFFFF#32⟩).run 0).1.2.phase = 0x3F7FFFFE#32
      ∧ ((lfoProc 0x41800000#32 ⟨0x417FFFFF#32, 0x3F7FFFFC#32⟩).run 0).1.2.phase = 0x3F7FFFFC#32 := by decide

/-- P3 row 2: the first frame at `ENG_INIT 16.0`. -/
theorem test_eng_frame_normal :
    seen (exec (.engFrame 0x3F800000#32 0#32 0x3F333333#32 0#32 0#32 0#32 0#32) running) (fun e => (e.ap .left 1).g)
      = okWith [0x3F800000#32, 0x3D8577D9#32] 0xBF333333#32 := by decide

/-- V-ENG-1: the first selector above 0.7 is wacky: the threshold is 0.25 and the Lfo steps; at 0.7 itself it is forced. -/
theorem test_eng_frame_modes :
    seen (exec (.engFrame 0x40000000#32 0xC0000000#32 0x3F333333#32 0#32 0#32 0#32 0x3F333334#32) running)
        (fun e => e.lfo.phase) = okWith [0x3E800000#32, 0xBE800000#32] 0x3D800000#32
      ∧ seen (exec (.engFrame 0x40000000#32 0xC0000000#32 0x3F333333#32 0#32 0#32 0#32 0x3F333333#32) running)
        (fun e => e.lfo.phase) = okWith [0x3F800000#32, 0#32] 0#32 := by decide

/-- V-ENG-2: 29.9 truncates to 29; -1.0 is E_AMOUNT. -/
theorem test_eng_frame_amount :
    amountOf 0x41EF3333#32 = some 29 ∧ amountOf 0xBF7FFFFF#32 = some 0 ∧ amountOf 0x4EFFFFFF#32 = some 2147483520
      ∧ answers running 0x02000000#32 [0#32, 0#32, 0x3F333333#32, 0#32, 0xBF800000#32, 0#32, 0#32] .amount []
        0x00000053#32 = true := by decide

/-- A NaN result still completes, and the Lfo and every other effect happen (V-AP, g = 0, infinite input). -/
theorem test_nan_runs : completes (.apProcess ⟨.left, 1⟩ 0x7F800000#32) (withAllpass 0#32 0#32) = true := by
  decide

/-! ### Witnesses: states and operands that meet the hypotheses of each obligation, at the boundaries of its clauses -/

theorem running_running : running.Running engine16 := ⟨by decide, by decide, rfl⟩

theorem running_ok : running.ok = true ∧ running.lfoOk = true ∧ engine16.ok running.cfg = true ∧ 0 < engine16.len := by
  decide

/-- A run of one command from `running`. -/
theorem witness_step (i : Instr) (h : completes i running = true) :
    ∃ t rs e', exec i running = .next t ∧ t.response = some ⟨.ok, rs⟩ ∧ t.engine = some e' := completes_next h

theorem witness_PowerOnStatusZeroEngineAbsent : running.pending = [] ∧ faulted.pending = [] := by decide

theorem witness_NopOnlyAnswersOk :
    (opcField 0x00000001#32 = 0x00#8 ∧ (0x00000001#32 : Word) ≠ 0x00000000#32)
      ∧ opcField 0x00FFFFFF#32 = 0x00#8 ∧ (0x00FFFFFF#32 : Word) ≠ 0x00000000#32 := by decide

theorem witness_ReadStatusAnswersStatus :
    statusLegal 0x00000000#32 = true ∧ statusLegal 0x00000001#32 = true ∧ statusLegal faulted.status = true := by decide

/-- The least legal rate with the least MAX_LEN that holds it; the largest finite rate. -/
theorem witness_EngInitConstructsEngine :
    let s : State := { State.reset with cfg := { Config.reference with maxLen := some 1 } }
    (F32.le F32.four 0x40800000#32 = true ∧ F32.lt 0x40800000#32 F32.posInf = true
      ∧ (∀ m, s.cfg.maxLen = some m → bufferLength 0x40800000#32 ≤ m)
      ∧ F32.le F32.posZero s.cfg.lfoFreq = true ∧ F32.lt s.cfg.lfoFreq 0x40800000#32 = true)
      ∧ F32.le F32.four 0x7F7FFFFF#32 = true ∧ F32.lt 0x7F7FFFFF#32 F32.posInf = true := by
  refine ⟨⟨by decide, by decide, fun m h => ?_, by decide, by decide⟩, by decide, by decide⟩
  obtain rfl := Option.some.inj h
  decide

theorem witness_BufferLengthIsFloorOfQuarterRate :
    (F32.le F32.four 0x40800000#32 = true ∧ F32.lt 0x40800000#32 F32.posInf = true)
      ∧ F32.le F32.four 0x7F7FFFFF#32 = true ∧ F32.lt 0x7F7FFFFF#32 F32.posInf = true := by decide

/-- A NaN, an infinity, the value just below 4.0, a length above MAX_LEN; then a legal rate with LFO_FREQ a NaN, just below
zero, and equal to the rate. -/
theorem witness_EngInitRejectsBadRateOrFrequency :
    F32.isNaN 0x7F800001#32 = true ∧ F32.isInf 0xFF800000#32 = true ∧ F32.lt 0x407FFFFF#32 F32.four = true
      ∧ 10 < bufferLength 0x42300000#32
      ∧ (F32.le F32.four 0x40800000#32 = true ∧ F32.lt 0x40800000#32 F32.posInf = true
        ∧ State.reset.cfg.maxLen = none)
      ∧ F32.lt 0x80000001#32 F32.posZero = true ∧ F32.le 0x40800000#32 0x40800000#32 = true := by decide

theorem witness_FaultedBlockRefusesWork :
    (Instr.dsProcess ⟨.right, 3⟩ 0 0).wf = true ∧ exempt (.dsProcess ⟨.right, 3⟩ 0 0) = false
      ∧ statusErr faulted.status = true := by decide

theorem witness_UninitialisedBlockRefusesWork :
    Instr.lfoNext.wf = true ∧ exempt .lfoNext = false ∧ statusErr State.reset.status = false
      ∧ statusInit State.reset.status = false ∧ statusCause State.reset.status = 0#4 := by decide

theorem witness_IllegalCommandAnswersIllegal :
    (State.send running 0x04000000#32 []).pending = ⟨0x04000000#32, []⟩ :: []
      ∧ decode ⟨0x04000000#32, []⟩ = .error .reservedOpcode ∧ (Instr.apSetG ⟨.left, 3⟩ 0).wf = false := by decide

/-- A failed command: E_FAULTED; a failed ENG_INIT; another error with CAUSE 0 before it, and with a cause recorded. -/
theorem witness_FailedCommand :
    answers faulted 0x41000000#32 [] .faulted [] 0x00000013#32 = true
      ∧ answers faulted 0x01000000#32 [0x00000000#32] .rate [] 0x00000042#32 = true
      ∧ decode ⟨0x01000000#32, [0x00000000#32]⟩ = .ok (.engInit 0x00000000#32)
      ∧ answers running 0x32000000#32 [0x80000000#32] .amount [] 0x00000053#32 = true
      ∧ answers { running with status := 0x00000053#32 } 0x00000001#32 [] .illegal [] 0x00000053#32 = true := by
  decide

theorem witness_OnlyEngInitLeavesFaultedState :
    statusErr faulted.status = true ∧ answers faulted 0x01000000#32 [0x41800000#32] .ok [] 0x00000001#32 = true
      ∧ statusErr 0x00000001#32 = false := by decide

theorem witness_slots :
    slot? ⟨.left, 2, .secondary, .allpass⟩ = some (.ap .left 2 .secondary)
      ∧ slot? ⟨.right, 3, .primary, .degraded⟩ = some (.dfd .right 3 .primary) := by decide

/-- SetTimePlacesReadCursor, CdProcessPushesOneSample and every statement with a running block and sound units. -/
theorem witness_running_units :
    running.Running engine16 ∧ 0 < engine16.len ∧ (engine16.delay (.ap .left 2 .secondary)).w < engine16.len
      ∧ (engine16.delay (.ap .left 2 .secondary)).ok engine16.len = true
      ∧ (engine16.ap .right 2).pair.ok engine16.len = true ∧ (engine16.dfd .right 3).ok engine16.len = true :=
  ⟨running_running, by decide⟩

/-- The two clauses meet at a delay equal to the number of calls made. -/
theorem witness_DelayReturnsInputDelayed :
    (freshDelay 4 2).ok 4 = true ∧ (freshDelay 4 2).w + 4 - (freshDelay 4 2).r = 2
      ∧ (freshDelay 4 2).outputAfter 4 [5#32] 6#32 = 0#32 ∧ (freshDelay 4 2).outputAfter 4 [5#32, 6#32] 7#32 = 5#32 := by
  decide

theorem witness_ImpulseAppearsAtDelayTime : (0 : Nat) < 1 ∧ (3 : Nat) < 4 ∧ delay123.ok 4 = true := by decide

/-- A modulus of 2 and an odd counter. -/
theorem witness_LatchPatternFollowsModulus :
    let d : Downsampler := ⟨1, 1, 0⟩
    (d.amount + 1) % 2 = 0 ∧ d.cnt % 2 = 1 := by decide

theorem witness_DfdSetAmountChecksSign : (0x7FFFFFFF#32 : Word).toNat < 2 ^ 31 ∧ 2 ^ 31 ≤ (0x80000000#32 : Word).toNat := by
  decide

theorem witness_LfoNextStepsOscillator : F32.isFinite 0x7F7FFFFF#32 = true ∧ F32.isFinite 0xFF7FFFFF#32 = true := by decide

/-- At 16.0: +0.0, -0.0 and the value below the rate; then a NaN, the value just below zero, the rate. -/
theorem witness_LfoSetFreqChecksRange :
    F32.le F32.posZero 0x00000000#32 = true ∧ F32.le F32.posZero 0x80000000#32 = true
      ∧ F32.le F32.posZero 0x417FFFFF#32 = true ∧ F32.lt 0x417FFFFF#32 engine16.sr = true
      ∧ F32.isNaN 0xFFC00000#32 = true ∧ F32.lt 0x80000001#32 F32.posZero = true
      ∧ F32.le engine16.sr 0x41800000#32 = true := by decide

/-- A step from a state that meets the invariants. -/
theorem witness_invariants :
    let s := State.send running 0x41000000#32 []
    s.ok = true ∧ s.lfoOk = true ∧ answers running 0x41000000#32 [] .ok [0x00000000#32] 0x00000001#32 = true
      ∧ statusCauseRecorded s.status = true ∧ s.engine.isSome = true := by decide

theorem witness_IntensityTruncatesOrFails :
    (F32.lt F32.negOne 0xBF7FFFFF#32 = true ∧ F32.lt 0xBF7FFFFF#32 F32.twoPow31 = true)
      ∧ (F32.lt F32.negOne 0x4EFFFFFF#32 = true ∧ F32.lt 0x4EFFFFFF#32 F32.twoPow31 = true)
      ∧ F32.isNaN 0x7FC00000#32 = true ∧ F32.le 0xBF800000#32 F32.negOne = true
      ∧ F32.le F32.twoPow31 0x4F000000#32 = true := by decide

theorem witness_FrameRunsTheWholeNetwork : amountOf 0xBF7FFFFF#32 = some 0 ∧ amountOf 0x4EFFFFFF#32 = some 2147483520 := by
  decide

/-- The three modes at their boundaries: 0.3 is normal, the next value and 0.7 are forced, the next is wacky. -/
theorem witness_frames :
    completes (.engFrame 0#32 0#32 0x3F333333#32 0#32 0#32 0#32 0x3E99999A#32) running = true
      ∧ completes (.engFrame 0#32 0#32 0x3F333333#32 0#32 0#32 0#32 0x3E99999B#32) running = true
      ∧ completes (.engFrame 0#32 0#32 0x3F333333#32 0#32 0#32 0#32 0x3F333334#32) running = true := by decide

theorem witness_frame_modes :
    F32.lt F32.forcedAbove 0x3E99999A#32 = false ∧ F32.lt F32.forcedAbove 0x3E99999B#32 = true
      ∧ F32.lt F32.wackyAbove 0x3F333333#32 = false ∧ F32.lt F32.wackyAbove 0x3F333334#32 = true := by decide

theorem witness_ClampPassesNaNAndInRange :
    F32.isNaN 0x7F800001#32 = true
      ∧ (F32.le (F32.neg F32.quarter) 0xBE800000#32 = true ∧ F32.le 0xBE800000#32 F32.quarter = true)
      ∧ (F32.le (F32.neg F32.one) 0x80000000#32 = true ∧ F32.le 0x80000000#32 F32.one = true)
      ∧ F32.lt F32.quarter 0x3E800001#32 = true ∧ F32.lt F32.one 0x7F800000#32 = true
      ∧ F32.lt 0xBE800001#32 (F32.neg F32.quarter) = true ∧ F32.lt 0xFF800000#32 (F32.neg F32.one) = true := by decide

theorem witness_RightInputReachesRightOutputOnly :
    completes (.engFrame 1#32 0#32 0x3F333333#32 0#32 0#32 0#32 0#32) running = true
      ∧ completes (.engFrame 1#32 0x7FC00000#32 0x3F333333#32 0#32 0#32 0#32 0#32) running = true := by decide

/-- Every unit command completes on a running block. -/
theorem witness_unit_frames :
    ∀ i ∈ [Instr.apSetG ⟨.left, 2⟩ 1#32, .dfdSetFeedback ⟨.right, 3⟩ 1#32, .dfdSetA ⟨.right, 3⟩ 1#32,
      .dfdSetRatio ⟨.right, 3⟩ 1#32, .dfdSetAmount ⟨.right, 3⟩ 1#32, .lfoSetFreq 1#32, .cdSetTime ⟨.left, 2, .primary, .allpass⟩ 1#32,
      .apSetTime ⟨.left, 2⟩ 1#32, .dfdSetTime ⟨.left, 3⟩ 1#32] ++ [.cdProcess ⟨.left, 3, .secondary, .degraded⟩ 1#32,
      .apProcess ⟨.left, 2⟩ 1#32, .apFdpProcess ⟨.left, 2⟩ 1#32, .dfdProcess ⟨.right, 3⟩ 1#32, .dsProcess ⟨.right, 3⟩ 1#32 1#32,
      .lfoNext], completes i running = true := by decide

theorem witness_StepRunsDecodedCommand :
    (State.send running 0x41000000#32 []).pending = ⟨0x41000000#32, []⟩ :: [] ∧ decode ⟨0x41000000#32, []⟩ = .ok .lfoNext := by
  decide

theorem witness_DecodeOfEncode :
    (Instr.apSetG ⟨.right, 2⟩ 0xFFFFFFFF#32).wf = true
      ∧ (Instr.cdProcess ⟨.right, 3, .secondary, .degraded⟩ 0#32).wf = true := by decide

theorem witness_EncodeOfDecode :
    decode ⟨0x11BC0000#32, [9#32]⟩ = .ok (.cdProcess ⟨.right, 3, .secondary, .degraded⟩ 9#32) := by decide

/-- The ends of each reserved range. -/
theorem witness_ReservedOpcodesAreRejected :
    decode ⟨0x00000000#32, []⟩ = .ok .nop
      ∧ [0x04FFFFFF#32, 0x0F000000#32, 0x12000000#32, 0x1F000000#32, 0x24000000#32, 0x2F000000#32, 0x36000000#32,
          0x37000000#32, 0x39000000#32, 0x3F000000#32, 0x42000000#32, 0xFF000000#32].map (fun w => (opcField w).toNat)
        = [0x04, 0x0F, 0x12, 0x1F, 0x24, 0x2F, 0x36, 0x37, 0x39, 0x3F, 0x42, 0xFF] := by decide

theorem witness_WrongOperandCountIsRejected :
    opcField 0x02000000#32 = Opcode.engFrame.code ∧ [1#32, 2#32, 3#32, 4#32, 5#32, 6#32].length ≠ Opcode.engFrame.operandCount
      ∧ opcField 0x00000000#32 = Opcode.nop.code ∧ [1#32].length ≠ Opcode.nop.operandCount := by decide

/-- Finite operands: the largest and the least. A sum and a difference of the least subnormals of each sign, the zero sums
and differences of each sign, a divisor that is not zero, and the two ends of a word's bits. -/
theorem witness_ArithmeticRoundsToNearestEven :
    (F32.isFinite 0x7F7FFFFF#32 = true ∧ F32.isFinite 0x80000001#32 = true ∧ F32.isFinite 0x00000001#32 = true
        ∧ F32.isFinite F32.posZero = true ∧ F32.isFinite F32.negZero = true ∧ F32.isZero 0x00000001#32 = false)
      ∧ (F32.signedUnits 0x80000001#32 + F32.signedUnits 0x80000001#32 < 0
        ∧ 0 < F32.signedUnits 0x00000001#32 + F32.signedUnits 0x00000001#32
        ∧ F32.signedUnits 0x00000001#32 + F32.signedUnits 0x80000001#32 = 0
        ∧ F32.signedUnits F32.negZero + F32.signedUnits F32.negZero = 0)
      ∧ (F32.signedUnits 0x80000001#32 - F32.signedUnits 0x00000001#32 < 0
        ∧ 0 < F32.signedUnits 0x00000001#32 - F32.signedUnits 0x80000001#32
        ∧ F32.signedUnits 0x00000001#32 - F32.signedUnits 0x00000001#32 = 0
        ∧ F32.signedUnits F32.negZero - F32.signedUnits F32.posZero = 0)
      ∧ (0 : Nat) < 32 ∧ (31 : Nat) < 32 := by decide

/-- Both infinities, a finite operand of each kind, and a NaN of the least fraction. -/
theorem witness_ArithmeticOfInfinitiesZerosAndNaNs :
    F32.isNaN 0x7F800001#32 = true ∧ F32.isInf 0x7F800000#32 = true ∧ F32.isInf 0xFF800000#32 = true
      ∧ F32.isNeg 0x7F800000#32 ≠ F32.isNeg 0xFF800000#32 ∧ F32.isZero 0x80000000#32 = true
      ∧ F32.isFinite 0x80000000#32 = true ∧ F32.isFinite 0x00000001#32 = true ∧ F32.isZero 0x00000001#32 = false
      ∧ F32.isNaN 0x7F7FFFFF#32 = false ∧ F32.isNaN 0xFF800000#32 = false ∧ F32.isZero 0xFF800000#32 = false := by decide

theorem witness_ComparisonsFollowValues :
    F32.isNaN 0x7F800001#32 = true ∧ F32.isNaN 0x7F800000#32 = false ∧ F32.isNaN 0xFF800000#32 = false := by decide

end Sys2Proof.Tests
end

section
/-! What the decoder accepts and rejects (spec/30_encoding.md R84 to R89), and with it the commands of R86 and R87 that
answer E_ILLEGAL. -/

namespace Sys2Proof

/-! ### The opcode table -/

theorem Opcode.ofCode?_code (op : Opcode) : Opcode.ofCode? op.code = some op := by
  cases op <;> decide

theorem Opcode.code_of_ofCode? {b : BitVec 8} {op : Opcode} (h : Opcode.ofCode? b = some op) : op.code = b := by
  unfold Opcode.ofCode? at h
  simpa using List.find?_some h

/-- The opcode values R86 reserves. -/
def ReservedCode (n : Nat) : Prop :=
  (0x04 ≤ n ∧ n ≤ 0x0F) ∨ (0x12 ≤ n ∧ n ≤ 0x1F) ∨ (0x24 ≤ n ∧ n ≤ 0x2F) ∨ n = 0x36 ∨ n = 0x37
    ∨ (0x39 ≤ n ∧ n ≤ 0x3F) ∨ 0x42 ≤ n

theorem Opcode.not_reservedCode (op : Opcode) : ¬ ReservedCode op.code.toNat := by
  unfold ReservedCode
  cases op <;> decide

theorem Opcode.ofCode?_reserved {b : BitVec 8} (h : ReservedCode b.toNat) : Opcode.ofCode? b = none := by
  cases hb : Opcode.ofCode? b with
  | none => rfl
  | some op => exact absurd (Opcode.code_of_ofCode? hb ▸ h) op.not_reservedCode

@[simp] theorem and_mask_n (w : Word) : w &&& Format.n.mask = w := BitVec.and_allOnes

/-! ### Operand words (R87) -/

theorem operands0_eq_ok {ops : List Word} {i j : Instr} : operands0 ops i = .ok j ↔ ops = [] ∧ i = j := by
  unfold operands0
  split <;> simp_all

theorem operands1_eq_ok {ops : List Word} {f : Word → Instr} {j : Instr} :
    operands1 ops f = .ok j ↔ ∃ a, ops = [a] ∧ f a = j := by
  unfold operands1
  split <;> simp_all

theorem operands2_eq_ok {ops : List Word} {f : Word → Word → Instr} {j : Instr} :
    operands2 ops f = .ok j ↔ ∃ a b, ops = [a, b] ∧ f a b = j := by
  unfold operands2
  split <;> simp_all

theorem operands7_eq_ok {ops : List Word} {f : Word → Word → Word → Word → Word → Word → Word → Instr} {j : Instr} :
    operands7 ops f = .ok j ↔ ∃ a b c d e g h, ops = [a, b, c, d, e, g, h] ∧ f a b c d e g h = j := by
  unfold operands7
  split <;> simp_all

/-- A row builds its own instructions only, and from its own number of operand words only. -/
theorem buildInstr_eq_ok {op : Opcode} {w : Word} {ops : List Word} {i : Instr} (h : buildInstr op w ops = .ok i) :
    i.opcode = op ∧ ops.length = op.operandCount := by
  cases op with
  | nop | rdStatus | lfoNext =>
    obtain ⟨rfl, rfl⟩ := operands0_eq_ok.mp h
    exact ⟨rfl, rfl⟩
  | engFrame =>
    obtain ⟨_, _, _, _, _, _, _, rfl, rfl⟩ := operands7_eq_ok.mp h
    exact ⟨rfl, rfl⟩
  | dsProcess =>
    obtain ⟨_, _, rfl, rfl⟩ := operands2_eq_ok.mp h
    exact ⟨rfl, rfl⟩
  | _ =>
    obtain ⟨_, rfl, rfl⟩ := operands1_eq_ok.mp h
    exact ⟨rfl, rfl⟩

/-! ### Decoding (R89) -/

/-- A command decodes exactly when it passes every check of R89. -/
theorem decode_eq_ok {c : Command} {i : Instr} :
    decode c = .ok i ↔ ∃ op, Opcode.ofCode? (opcField c.word) = some op ∧ c.word &&& op.format.mask = op.matchWord
      ∧ unitLegal op c.word = true ∧ buildInstr op c.word c.ops = .ok i := by
  unfold decode
  cases Opcode.ofCode? (opcField c.word) with
  | none => simp
  | some op =>
    by_cases hm : c.word &&& op.format.mask = op.matchWord <;> by_cases hu : unitLegal op c.word = true <;> simp [hm, hu]

theorem decode_reserved {c : Command} (h : ReservedCode (opcField c.word).toNat) :
    decode c = .error .reservedOpcode := by
  simp [decode, Opcode.ofCode?_reserved h]

/-- A command that decodes has the operand words of the row its opcode names. -/
theorem length_ops_of_decode {c : Command} {op : Opcode} {i : Instr} (hop : opcField c.word = op.code)
    (h : decode c = .ok i) : c.ops.length = op.operandCount := by
  obtain ⟨op', hcode, -, -, hbuild⟩ := decode_eq_ok.mp h
  rw [hop, op.ofCode?_code] at hcode
  cases hcode
  exact (buildInstr_eq_ok hbuild).2

/-- NOP's format leaves no bit of its command word free, and it has no operand words. -/
theorem eq_of_decode_nop {c : Command} (h : decode c = .ok .nop) : c = ⟨0x00000000#32, []⟩ := by
  obtain ⟨op, -, hword, -, hbuild⟩ := decode_eq_ok.mp h
  obtain ⟨rfl, hlen⟩ := buildInstr_eq_ok hbuild
  have hw : c.word = 0x00000000#32 := (and_mask_n c.word).symm.trans hword
  have ho : c.ops = [] := List.eq_nil_of_length_eq_zero hlen
  rw [← hw, ← ho]

namespace Machine

/-- The step of a command that does not decode: E_ILLEGAL, and no effect but on STATUS (R274). -/
theorem step_of_decode_error {s : State} {c : Command} {rest : List Command} {err : DecodeError}
    (hp : s.pending = c :: rest) (hd : decode c = .error err) :
    step s = .next (({ s with pending := rest } : State).fail .illegal) := by
  rw [step_cons hp, runCommand, hd]

/-- Settles O46: a reserved opcode names no row of the table, and the other checks of R89 leave NOP one encoding. -/
theorem reservedOpcodesAreRejected : Obligations.ReservedOpcodesAreRejected := by
  refine ⟨fun _ => eq_of_decode_nop, fun c (hc : ReservedCode (opcField c.word).toNat) => ?_⟩
  have hd : decode c = .error .reservedOpcode := decode_reserved hc
  exact ⟨hd, fun _ _ hp => step_of_decode_error hp hd⟩

/-- Settles O47: a command that decodes has its row's number of operand words, so this one fails to decode. -/
theorem wrongOperandCountIsRejected : Obligations.WrongOperandCountIsRejected := by
  intro c op hop hlen s rest hp
  cases hd : decode c with
  | ok i => exact absurd (length_ops_of_decode hop hd) hlen
  | error err => exact step_of_decode_error hp hd

end Machine
end Sys2Proof
end

section
/-! What CD_SET_TIME does to the circular delay it names (spec/40_circular_delay.md R100, R101). -/

namespace Sys2Proof.Machine

/-! ### Read-cursor placement (R100) -/

theorem Delay.place_r (len : Nat) (d : Delay) (t : Nat) : (d.place len t).r = (d.w + len - t % len) % len := rfl

/-- A buffer with a word in it gives the placed read cursor an index that exists (R60). -/
theorem Delay.place_r_lt {len : Nat} (d : Delay) (t : Nat) (hlen : 0 < len) : (d.place len t).r < len :=
  Nat.mod_lt _ hlen

/-- The distance from a cursor back to the index `m` places behind it on a ring of `len` words is `m`: the subtraction
wraps exactly when `w < m`. -/
theorem ring_distance_back {len w m : Nat} (hw : w < len) (hm : m < len) :
    (w + len - (w + len - m) % len) % len = m := by
  rcases Nat.lt_or_ge w m with hwrap | hstay
  · have hr : (w + len - m) % len = w + len - m := Nat.mod_eq_of_lt (by omega)
    have hdist : w + len - (w + len - m) = m := by omega
    rw [hr, hdist, Nat.mod_eq_of_lt hm]
  · have hr : (w + len - m) % len = w - m := by
      rw [show w + len - m = w - m + len by omega, Nat.add_mod_right, Nat.mod_eq_of_lt (by omega)]
    have hdist : w + len - (w - m) = m + len := by omega
    rw [hr, hdist, Nat.add_mod_right, Nat.mod_eq_of_lt hm]

/-- After `place(d, T)` the delay is `T`, and a `T` of the length or more aliases (R100). -/
theorem Delay.place_effective_delay {len : Nat} {d : Delay} (t : Nat) (hw : d.w < len) :
    (d.w + len - (d.place len t).r) % len = t % len :=
  ring_distance_back hw (Nat.mod_lt t (Nat.zero_lt_of_lt hw))

/-! ### The command (R101) -/

theorem exec_cdSetTime_running {s : State} {e : Engine} {a : DelayAddr} {d : Slot} (time : Word) (hs : s.Running e)
    (ha : slot? a = some d) (hlen : 0 < e.len) :
    exec (.cdSetTime a time) s
      = .next (s.complete (e.setDelay d ((e.delay d).place e.len time.toNat)) s.nanDraws []) :=
  (onDelay_running _ ha hs).trans (requireLength_pos _ hlen)

/-- Settles O14: the command runs R100's placement on the delay it names, and the placement changes the read cursor only. -/
theorem setTimePlacesReadCursor : Obligations.SetTimePlacesReadCursor := by
  intro s e a d time hs ha hlen
  exact ⟨((e.delay d).place e.len time.toNat).r, exec_cdSetTime_running time hs ha hlen, Delay.place_r _ _ _,
    Delay.place_r_lt _ _ hlen, Delay.place_effective_delay _⟩

end Sys2Proof.Machine
end

section
/-! What AP_SET_TIME and AP_FDP_PROCESS do to the feedback delay pair they name (spec/41_feedback_delay_pair.md R120,
R121). -/

namespace Sys2Proof.Machine

/-! ### Pair placement (R121) -/

@[simp] theorem Pair.delay_place (len : Nat) (p : Pair) (t : Nat) (sel : DelaySel) :
    (p.place len t).delay sel = (p.delay sel).place len t := by
  cases sel <;> rfl

/-! ### What replacing one allpass leaves unchanged -/

/-- The registers and the buffer words of `AP[c][k]` that `m` does not name are the same in `a'` as in `a`. -/
structure Allpass.AgreeOutside (c : Channel) (k : Fin 3) (a a' : Allpass) (m : Touched) : Prop where
  g     : .apG c k ∉ m.regs → a'.g = a.g
  ly    : .apLy c k ∉ m.regs → a'.pair.ly = a.pair.ly
  lf    : .apLf c k ∉ m.regs → a'.pair.lf = a.pair.lf
  write : ∀ sel, .cursorW (.ap c k sel) ∉ m.regs → (a'.pair.delay sel).w = (a.pair.delay sel).w
  read  : ∀ sel, .cursorR (.ap c k sel) ∉ m.regs → (a'.pair.delay sel).r = (a.pair.delay sel).r
  last  : ∀ sel, .last (.ap c k sel) ∉ m.regs → (a'.pair.delay sel).last = (a.pair.delay sel).last
  words : ∀ sel i, (.ap c k sel, i) ∉ m.words → (a'.pair.delay sel).buf.read i = (a.pair.delay sel).buf.read i

/-- A quantity of one allpass is kept by a replacement that keeps it in the allpass replaced. -/
theorem Engine.apply_ap_setAp {α : Type} (f : Allpass → α) {e : Engine} {c c' : Channel} {k j : Fin 3} {a : Allpass}
    (h : c' = c → j = k → f a = f (e.ap c k)) : f ((e.setAp c k a).ap c' j) = f (e.ap c' j) := by
  by_cases hu : c' = c ∧ j = k
  · obtain ⟨rfl, rfl⟩ := hu
    simpa using h rfl rfl
  · simp [hu]

/-- A quantity of one circular delay is kept by a replacement of an allpass that keeps it in that allpass's own delays. -/
theorem Engine.apply_delay_setAp {α : Type} (f : Delay → α) {e : Engine} {c : Channel} {k : Fin 3} {a : Allpass} {d : Slot}
    (h : ∀ sel, d = .ap c k sel → f (a.pair.delay sel) = f ((e.ap c k).pair.delay sel)) :
    f ((e.setAp c k a).delay d) = f (e.delay d) := by
  cases d with
  | ap c' j sel => exact apply_ap_setAp (fun b => f (b.pair.delay sel)) (by rintro rfl rfl; exact h sel rfl)
  | dfd c' j sel => simp [Engine.delay]

/-- The frame of one allpass is the frame of the engine that holds it: every register and word of another unit is kept. -/
theorem Engine.agreeOutside_setAp {e : Engine} {c : Channel} {k : Fin 3} {a : Allpass} {m : Touched}
    (h : Allpass.AgreeOutside c k (e.ap c k) a m) : e.AgreeOutside (e.setAp c k a) m where
  regs r hr := by
    cases r with
    | apG   => exact apply_ap_setAp (·.g.toNat) (by rintro rfl rfl; exact congrArg _ (h.g hr))
    | apLy  => exact apply_ap_setAp (·.pair.ly.toNat) (by rintro rfl rfl; exact congrArg _ (h.ly hr))
    | apLf  => exact apply_ap_setAp (·.pair.lf.toNat) (by rintro rfl rfl; exact congrArg _ (h.lf hr))
    | cursorW => exact apply_delay_setAp (·.w) (by rintro sel rfl; exact h.write sel hr)
    | cursorR => exact apply_delay_setAp (·.r) (by rintro sel rfl; exact h.read sel hr)
    | last    => exact apply_delay_setAp (·.last.toNat) (by rintro sel rfl; exact congrArg _ (h.last sel hr))
    | _ => simp [Engine.reg]
  words d i hi := apply_delay_setAp (·.buf.read i) (by rintro sel rfl; exact h.words sel i hi)

/-- Placing a pair moves its two read cursors and nothing else (R121, R100). -/
theorem Allpass.agreeOutside_place (c : Channel) (k : Fin 3) (a : Allpass) (len t : Nat) :
    Allpass.AgreeOutside c k a { a with pair := a.pair.place len t }
      ⟨[.cursorR (.ap c k .primary), .cursorR (.ap c k .secondary)], []⟩ where
  g _ := rfl
  ly _ := rfl
  lf _ := rfl
  write sel _ := by cases sel <;> rfl
  read sel h := absurd (by cases sel <;> simp) h
  last sel _ := by cases sel <;> rfl
  words sel _ _ := by cases sel <;> rfl

/-! ### The commands (R142, R123) -/

theorem requireRange_of_eq_true {ok : Bool} (r : Result) (h : ok = true) : requireRange ok r = r := by
  rw [h, requireRange_true]

theorem exec_apSetTime_running {s : State} {e : Engine} {c : Channel} {k : Fin 3} (time : Word) (hs : s.Running e)
    (hlen : 0 < e.len) :
    exec (.apSetTime ⟨c, k⟩ time) s
      = .next (s.complete (e.setAp c k ⟨(e.ap c k).g, (e.ap c k).pair.place e.len time.toNat⟩) s.nanDraws []) :=
  (onAllpass_running _ (apNumber?_fin c k) hs).trans (requireLength_pos _ hlen)

theorem exec_apFdpProcess_running {s : State} {e : Engine} {c : Channel} {k : Fin 3} (x : Word) (hs : s.Running e)
    (hok : (e.ap c k).pair.ok e.len = true) {y : Word} {p : Pair} {n : Nat}
    (hrun : (fdpProc e.len (e.ap c k).g (e.ap c k).pair x).run s.nanDraws = ((y, p), n)) :
    exec (.apFdpProcess ⟨c, k⟩ x) s = .next (s.complete (e.setAp c k ⟨(e.ap c k).g, p⟩) n [y]) := by
  refine (onAllpass_running _ (apNumber?_fin c k) hs).trans
    ((requireRange_of_eq_true _ (Pair.inRange_of_ok hok)).trans ?_)
  simp only [hrun]

/-- Settles O19: the command runs R121's placement on the pair it names, and the placement moves the read cursors only. -/
theorem apSetTimePlacesBothDelays : Obligations.ApSetTimePlacesBothDelays := by
  intro s e c k time hs hlen
  refine ⟨_, exec_apSetTime_running time hs hlen, fun sel => ?_,
    Engine.agreeOutside_setAp (Allpass.agreeOutside_place c k (e.ap c k) e.len time.toNat)⟩
  simp [Engine.reg, Engine.delay, Delay.place_r]

/-- Settles O20: the command runs FDP_PROCESS on the pair it names, and `fdpProc_step` says what every run of that does. -/
theorem apFdpProcessStepsPair : Obligations.ApFdpProcessStepsPair := by
  intro s e c k x hs hok
  exact ⟨_, _, _, exec_apFdpProcess_running x hs hok rfl, (fdpProc_step x hok s.nanDraws).1⟩

end Sys2Proof.Machine
end

section
/-! What AP_PROCESS answers and does to the allpass it names (spec/42_allpass.md R140, R143). -/

namespace Sys2Proof.Machine

/-- On a running block AP_PROCESS passes the checks of R271 and a sound pair's cursors exist, so it is one run of AP_PROC
from the state's count of draws. -/
theorem exec_apProcess_running {s : State} {e : Engine} {c : Channel} {k : Fin 3} (x : Word) (hs : s.Running e)
    (hok : (e.ap c k).pair.ok e.len = true) {out : Word} {a : Allpass} {n : Nat}
    (hrun : (apProc e.len (e.ap c k) x).run s.nanDraws = ((out, a), n)) :
    exec (.apProcess ⟨c, k⟩ x) s = .next (s.complete (e.setAp c k a) n [out]) := by
  refine (onAllpass_running _ (apNumber?_fin c k) hs).trans
    ((requireRange_of_eq_true _ (Pair.inRange_of_ok hok)).trans ?_)
  simp only [hrun]

/-- Settles O21: the command is one run of AP_PROC on the allpass it names, and `apProc_step` says that every run of that
steps the pair once and answers R140's formula, whatever NaN bits are drawn. -/
theorem apProcessAnswersAllpassFormula : Obligations.ApProcessAnswersAllpassFormula := by
  intro s e c k x hs hok
  obtain ⟨hstep, -⟩ := apProc_step x hok s.nanDraws
  exact ⟨_, _, _, exec_apProcess_running x hs hok rfl, hstep⟩

end Sys2Proof.Machine
end

section
/-! What DS_PROCESS answers and does to the downsampler it names (spec/43_downsampler.md R160, R161). -/

namespace Sys2Proof.Machine

/-- On a running block DS_PROCESS passes the checks of R271 and has none of its own, so it is one run of DS_PROC under the
operand ratio from the state's count of draws. -/
theorem exec_dsProcess_running {s : State} {e : Engine} {c : Channel} {k : Fin 4} (x ratio : Word) (hs : s.Running e)
    {out : Word} {d : Downsampler} {n : Nat}
    (hrun : (dsProc (e.dfd c k).ds x ratio).run s.nanDraws = ((out, d), n)) :
    exec (.dsProcess ⟨c, k⟩ x ratio) s = .next (s.complete (e.setDfd c k { e.dfd c k with ds := d }) n [out]) := by
  refine (onDegraded_running _ (dfdNumber?_fin c k) hs).trans ?_
  simp only [hrun]

/-- Settles O22: the command is one run of DS_PROC on the downsampler it names, and `dsProc_step` says that every run of
that advances, then latches, then answers the crossfade, whatever NaN bits are drawn. -/
theorem dsProcessAdvancesAndCrossfades : Obligations.DsProcessAdvancesAndCrossfades := by
  intro s e c k x ratio hs
  obtain ⟨hstep, -⟩ := dsProc_step (e.dfd c k).ds x ratio s.nanDraws
  exact ⟨_, _, _, exec_dsProcess_running x ratio hs rfl, hstep⟩

end Sys2Proof.Machine
end

section
/-! What DFD_PROCESS answers and does to the degraded feedback delay it names (spec/44_degraded_feedback_delay.md R183,
R186). -/

namespace Sys2Proof.Machine

/-- On a running block DFD_PROCESS passes the checks of R271 and a sound unit's cursors exist, so it is one run of DFD_PROC
from the state's count of draws. -/
theorem exec_dfdProcess_running {s : State} {e : Engine} {c : Channel} {k : Fin 4} (x : Word) (hs : s.Running e)
    (hok : (e.dfd c k).ok e.len = true) {y : Word} {q : Degraded} {n : Nat}
    (hrun : (dfdProc e.len (e.dfd c k) x).run s.nanDraws = ((y, q), n)) :
    exec (.dfdProcess ⟨c, k⟩ x) s = .next (s.complete (e.setDfd c k q) n [y]) := by
  refine (onDegraded_running _ (dfdNumber?_fin c k) hs).trans
    ((requireRange_of_eq_true _ (Degraded.inRange_of_ok hok)).trans ?_)
  simp only [hrun]

/-- Settles O27: the command is one run of DFD_PROC on the unit it names, and `dfdProc_step` says that every run of that
downsamples the secondary delay's raw output and stores the blend of the two, whatever NaN bits are drawn. -/
theorem dfdProcessStepsUnit : Obligations.DfdProcessStepsUnit := by
  intro s e c k x hs hok
  obtain ⟨hstep, -⟩ := dfdProc_step x hok s.nanDraws
  exact ⟨_, _, _, exec_dfdProcess_running x hs hok rfl, hstep⟩

end Sys2Proof.Machine
end

section
/-! What LFO_NEXT answers and does to the oscillator (spec/45_lfo.md R200, R201), and the two assumptions on SIN. -/

namespace Sys2Proof.Machine

/-! ### SIN (R200) -/

theorem F32.sin_posZero : F32.sin F32.posZero = F32.posZero := by simp [F32.sin]

/-- At a finite argument SIN is `+0.0`, which lies in the range, or a raw value that passed the range check. -/
theorem F32.sin_mem_unit_range {v : Word} (hv : F32.isFinite v = true) :
    F32.le F32.negOne (F32.sin v) = true ∧ F32.le (F32.sin v) F32.one = true := by
  have hzero : F32.le F32.negOne F32.posZero = true ∧ F32.le F32.posZero F32.one = true := by decide
  simp only [F32.sin]
  split_ifs with hv0 hraw
  · exact hzero
  · exact hzero
  · simpa [hv] using hraw

/-! ### The command (R201) -/

/-- On a running block LFO_NEXT passes the checks of R271 and has none of its own, so it is one run of LFO_PROC at the
engine's sample rate from the state's count of draws. -/
theorem exec_lfoNext_running {s : State} {e : Engine} (hs : s.Running e) {out : Word} {l : Lfo} {n : Nat}
    (hrun : (lfoProc e.sr e.lfo).run s.nanDraws = ((out, l), n)) :
    exec .lfoNext s = .next (s.complete { e with lfo := l } n [out]) := by
  refine (whenRunning_running _ hs).trans ?_
  simp only [hrun]

/-- Settles O28: the command is one run of LFO_PROC, and `lfoProc_step` says that every run of that answers SIN of the
squared angle before the advance and wraps the phase once, whatever NaN bits are drawn; the two facts about SIN are
R200's assumptions. -/
theorem lfoNextStepsOscillator : Obligations.LfoNextStepsOscillator := by
  refine ⟨fun s e hs => ?_, F32.sin_posZero, fun _ => F32.sin_mem_unit_range⟩
  exact ⟨_, _, _, exec_lfoNext_running hs rfl, lfoProc_step e.sr e.lfo s.nanDraws⟩

end Sys2Proof.Machine
end

section
/-! What the clamp at the end of a frame answers (spec/46_engine.md R226), from the order of the comparisons (R13). -/

namespace Sys2Proof.Machine

/-! ### Comparisons (R13) -/

theorem F32.lt_eq_true_iff {x y : Word} :
    F32.lt x y = true ↔ F32.isNaN x = false ∧ F32.isNaN y = false ∧ F32.orderKey x < F32.orderKey y := by
  simp [F32.lt, and_assoc]

theorem F32.le_eq_true_iff {x y : Word} :
    F32.le x y = true ↔ F32.isNaN x = false ∧ F32.isNaN y = false ∧ F32.orderKey x ≤ F32.orderKey y := by
  simp [F32.le, and_assoc]

theorem F32.lt_eq_false_of_isNaN_left {x : Word} (hx : F32.isNaN x = true) (y : Word) : F32.lt x y = false := by
  simp [F32.lt, hx]

theorem F32.lt_eq_false_of_isNaN_right (x : Word) {y : Word} (hy : F32.isNaN y = true) : F32.lt x y = false := by
  simp [F32.lt, hy]

theorem F32.lt_eq_false_of_le {x y : Word} (h : F32.le x y = true) : F32.lt y x = false := by
  obtain ⟨-, -, hxy⟩ := F32.le_eq_true_iff.mp h
  refine Bool.eq_false_iff.mpr fun hlt => ?_
  obtain ⟨-, -, hyx⟩ := F32.lt_eq_true_iff.mp hlt
  exact hyx.not_ge hxy

theorem F32.le_of_le_of_lt {x y z : Word} (hxy : F32.le x y = true) (hyz : F32.lt y z = true) : F32.le x z = true := by
  obtain ⟨hx, -, hkxy⟩ := F32.le_eq_true_iff.mp hxy
  obtain ⟨-, hz, hkyz⟩ := F32.lt_eq_true_iff.mp hyz
  exact F32.le_eq_true_iff.mpr ⟨hx, hz, hkxy.trans hkyz.le⟩

/-! ### The clamp (R226) -/

theorem clamp_of_not_lt {v th : Word} (hlo : F32.lt v (F32.neg th) = false) (hhi : F32.lt th v = false) :
    clamp v th = v := by
  simp [clamp, hlo, hhi]

theorem clamp_of_isNaN {v : Word} (th : Word) (hv : F32.isNaN v = true) : clamp v th = v :=
  clamp_of_not_lt (F32.lt_eq_false_of_isNaN_left hv _) (F32.lt_eq_false_of_isNaN_right _ hv)

theorem clamp_of_mem_range {v th : Word} (hlo : F32.le (F32.neg th) v = true) (hhi : F32.le v th = true) :
    clamp v th = v :=
  clamp_of_not_lt (F32.lt_eq_false_of_le hlo) (F32.lt_eq_false_of_le hhi)

theorem clamp_of_below {v th : Word} (h : F32.lt v (F32.neg th) = true) : clamp v th = F32.neg th := if_pos h

/-- The clamp compares with the lower end first, so a value above the range needs the ends in order. -/
theorem clamp_of_above {v th : Word} (hth : F32.le (F32.neg th) th = true) (h : F32.lt th v = true) :
    clamp v th = th := by
  have hlo : F32.lt v (F32.neg th) = false := F32.lt_eq_false_of_le (F32.le_of_le_of_lt hth h)
  simp [clamp, hlo, h]

/-- Settles O36, by the clamp's branches: both comparisons are false for a NaN and for a value in the range, and a value
above `th` is not below `-th` because `-th <= th` for both thresholds. -/
theorem clampPassesNaNAndInRange : Obligations.ClampPassesNaNAndInRange := by
  intro v th hth
  have hends : F32.le (F32.neg th) th = true := by
    rcases hth with rfl | rfl
    · decide
    · decide
  exact ⟨clamp_of_isNaN th, clamp_of_mem_range, clamp_of_above hends, clamp_of_below⟩

end Sys2Proof.Machine
end

section
/-! What NOP does, and which command words are its own (spec/47_control.md R250). -/

namespace Sys2Proof

/-- A command that decodes gives an instruction of the row its opcode names. -/
theorem opcode_of_decode {c : Command} {op : Opcode} {i : Instr} (hop : opcField c.word = op.code)
    (h : decode c = .ok i) : i.opcode = op := by
  obtain ⟨op', hcode, -, -, hbuild⟩ := decode_eq_ok.mp h
  rw [hop, op.ofCode?_code] at hcode
  cases hcode
  exact (buildInstr_eq_ok hbuild).1

/-- NOP is the one instruction of its row. -/
theorem Instr.eq_nop_of_opcode {i : Instr} (h : i.opcode = .nop) : i = .nop := by
  cases i with
  | nop => rfl
  | _ => cases h

/-- The one command with NOP's opcode that decodes is NOP's encoding. -/
theorem eq_of_decode_of_opcField_nop {c : Command} {i : Instr} (hop : opcField c.word = Opcode.nop.code)
    (h : decode c = .ok i) : c = ⟨0x00000000#32, []⟩ :=
  eq_of_decode_nop (Instr.eq_nop_of_opcode (opcode_of_decode hop h) ▸ h)

namespace Machine

theorem exec_nop (s : State) : exec .nop s = .next (s.reply []) := rfl

/-- Settles O3: NOP is the reply alone, and a nonzero word with its opcode fails to decode. -/
theorem nopOnlyAnswersOk : Obligations.NopOnlyAnswersOk := by
  refine ⟨exec_nop, rfl, fun s w rest hop hw => ?_⟩
  cases hd : decode ⟨w, []⟩ with
  | ok i =>
    have hc : (⟨w, []⟩ : Command) = ⟨0x00000000#32, []⟩ := eq_of_decode_of_opcField_nop hop hd
    exact absurd (Command.mk.inj hc).1 hw
  | error err => exact step_of_decode_error rfl hd

end Machine
end Sys2Proof
end

section
/-! What a command that fails leaves behind (spec/60_exceptions.md R272, R273): one of three states, and in none of them is
anything but STATUS written. -/

namespace Sys2Proof.Machine

/-! ### The three failures (R273) -/

/-- How a command `c` fails in a state `s` from which it has been taken: the code of its response, and the next state. -/
inductive Failure (c : Command) (s : State) : Code → State → Prop where
  /-- E_FAULTED. -/
  | refused : Failure c s .faulted s.failFaulted
  /-- An error of a command that decoded as ENG_INIT. -/
  | initFailed (code : Code) (hc : code ≠ .faulted) (hd : ∃ sr, decode c = .ok (.engInit sr)) :
      Failure c s code (s.failInit code)
  /-- An error of any other command, one that does not decode included. -/
  | failed (code : Code) (hc : code ≠ .faulted) (hd : ¬∃ sr, decode c = .ok (.engInit sr)) :
      Failure c s code (s.fail code)

theorem not_decode_engInit_of_error {c : Command} {err : DecodeError} (hd : decode c = .error err) :
    ¬∃ sr, decode c = .ok (.engInit sr) := by
  simp [hd]

theorem not_decode_engInit_of_exempt {c : Command} {i : Instr} (hd : decode c = .ok i) (hi : exempt i = false) :
    ¬∃ sr, decode c = .ok (.engInit sr) := by
  rintro ⟨sr, hsr⟩
  cases hd.symm.trans hsr
  cases hi

/-- Of the shapes of an answer, those with a code other than OK are the failures. -/
theorem Answer.failure {c : Command} {i : Instr} {s t : State} {r : Response} (ha : Answer i s t) (hd : decode c = .ok i)
    (hr : t.response = some r) (hne : r.code ≠ .ok) : Failure c s r.code t := by
  cases ha with
  | replied | constructed | completed =>
    obtain rfl := Option.some.inj hr
    exact absurd rfl hne
  | initFailed sr code hi hc =>
    obtain rfl := Option.some.inj hr
    exact .initFailed code (by rcases hc with rfl | rfl <;> decide) ⟨sr, hi ▸ hd⟩
  | refused =>
    obtain rfl := Option.some.inj hr
    exact .refused
  | failed code hi hc =>
    obtain rfl := Option.some.inj hr
    exact .failed code (by rcases hc with rfl | rfl | rfl | rfl <;> decide) (not_decode_engInit_of_exempt hd hi)

/-- A step whose response has a code other than OK ends in one of the three failures of the command it takes. -/
theorem step_failure {s t : State} {c : Command} {rest : List Command} {r : Response} (hp : s.pending = c :: rest)
    (hs : step s = .next t) (hr : t.response = some r) (hne : r.code ≠ .ok) :
    Failure c { s with pending := rest } r.code t := by
  rw [step_cons hp, runCommand] at hs
  cases hd : decode c with
  | ok i =>
    rw [hd] at hs
    exact (exec_next hs).failure hd hr hne
  | error err =>
    rw [hd] at hs
    obtain rfl := Host.Outcome.next.inj hs
    obtain rfl := Option.some.inj hr
    exact .failed .illegal (by decide) (not_decode_engInit_of_error hd)

/-! ### What a failure writes -/

/-- A failure writes STATUS and the response only (R272). -/
theorem Failure.eq_with_status {c : Command} {s t : State} {code : Code} (h : Failure c s code t) :
    t = { s with status := t.status, response := some ⟨code, []⟩ } := by
  cases h <;> rfl

/-- Settles O11: each of the three failures is the old state with a STATUS and an empty response. -/
theorem failedCommandWritesOnlyStatus : Obligations.FailedCommandWritesOnlyStatus := by
  intro s t c rest r hp hs hr hne
  exact (step_failure hp hs hr hne).eq_with_status

/-- Settles O12, by the three failures: each has one branch of R273, and its hypotheses shut out the other two. -/
theorem statusAfterFailedCommand : Obligations.StatusAfterFailedCommand := by
  intro s t c rest ⟨code, rs⟩ hp hs hr hne
  have hf : Failure c { s with pending := rest } code t := step_failure hp hs hr hne
  cases hf with
  | refused => exact ⟨fun _ => rfl, fun h => absurd rfl h, fun h => absurd rfl h⟩
  | initFailed _ hc hd =>
    refine ⟨fun h => absurd h hc, fun _ _ => ?_, fun _ h => absurd hd h⟩
    simp [statusAfterInitError]
  | failed _ hc hd =>
    exact ⟨fun h => absurd h hc, fun _ h => absurd h hd, fun _ _ =>
      ⟨statusInit_statusAfterError _ _, statusErr_statusAfterError _ _, statusCause_statusAfterError _ _⟩⟩

end Sys2Proof.Machine
end

section
/-! What every step keeps of the whole state (spec/10_state.md R34 to R41): one induction over the shapes of an answer, and
the invariant that follows from it. -/

namespace Sys2Proof.Machine

/-! ### From commands to steps -/

/-- What the queue does not carry, a failed decoding keeps and every command keeps, a step keeps. -/
theorem step_keeps {P : State → Prop} (hqueue : ∀ s rest, P s → P { s with pending := rest })
    (hillegal : ∀ s : State, P s → P (s.fail .illegal)) (hexec : ∀ i s t, P s → exec i s = .next t → P t) {s t : State}
    (hs : P s) (h : step s = .next t) : P t := by
  rcases step_cases s with ⟨-, h'⟩ | ⟨c, rest, -, -, h'⟩ | ⟨c, rest, i, -, -, h'⟩
  · exact Host.Outcome.next.inj (h'.symm.trans h) ▸ hs
  · exact Host.Outcome.next.inj (h'.symm.trans h) ▸ hillegal _ (hqueue s rest hs)
  · exact hexec i _ t (hqueue s rest hs) (h'.symm.trans h)

/-! ### The invariant, field by field -/

theorem State.ok_iff {s : State} :
    s.ok = true ↔ statusLegal s.status = true ∧ (statusInit s.status = true → s.engine.isSome = true)
      ∧ ∀ e, s.engine = some e → e.ok s.cfg = true := by
  have himp : ∀ a b : Bool, (!a || b) = true ↔ (a = true → b = true) := by decide
  rw [State.ok, Bool.and_eq_true, Bool.and_eq_true, himp, and_assoc, Option.all_eq_true]

theorem State.engine_ok {s : State} {e : Engine} (h : s.ok = true) (he : s.engine = some e) : e.ok s.cfg = true :=
  (State.ok_iff.mp h).2.2 e he

/-- Any error leaves the invariant: STATUS is legal again, with INIT as it was. -/
theorem State.fail_ok {s : State} {c : Code} (hc : c ≠ .ok) (h : s.ok = true) : (s.fail c).ok = true := by
  obtain ⟨-, hinit, he⟩ := State.ok_iff.mp h
  exact State.ok_iff.mpr ⟨statusLegal_afterError _ hc, by simpa using hinit, he⟩

/-- An ENG_INIT that fails leaves an uninitialised block, which needs no engine. -/
theorem State.failInit_ok {s : State} {c : Code} (hc : c ≠ .ok) (h : s.ok = true) : (s.failInit c).ok = true := by
  obtain ⟨-, -, he⟩ := State.ok_iff.mp h
  exact State.ok_iff.mpr ⟨statusLegal_afterInitError hc, by simp [statusAfterInitError], he⟩

/-! ### The engine ENG_INIT constructs is sound (R45) -/

theorem freshDelay_ok {len : Nat} (t : Nat) (hlen : 0 < len) : (freshDelay len t).ok len = true :=
  Delay.ok_iff.mpr ⟨hlen, Nat.mod_lt _ hlen, Memory.wf_zeroFill, Memory.within_zeroFill len⟩

theorem freshAllpass_ok {len : Nat} (t : Nat) (hlen : 0 < len) : (freshAllpass len t).pair.ok len = true :=
  Pair.ok_iff.mpr ⟨freshDelay_ok t hlen, freshDelay_ok t hlen⟩

theorem freshDegraded_ok {len : Nat} (t : Nat) (hlen : 0 < len) : (freshDegraded len t).ok len = true :=
  Degraded.ok_iff.mpr ⟨rfl, freshDelay_ok t hlen, freshDelay_ok t hlen⟩

theorem freshUnits_ok (cfg : Config.Params) (sr : Word) {len : Nat} (hlen : 0 < len) :
    (freshUnits cfg sr len).ok len = true :=
  Units.ok_iff.mpr ⟨freshAllpass_ok _ hlen, freshAllpass_ok _ hlen, freshAllpass_ok _ hlen, freshDegraded_ok _ hlen,
    freshDegraded_ok _ hlen, freshDegraded_ok _ hlen, freshDegraded_ok _ hlen⟩

theorem rateLegal_iff {cfg : Config.Params} {sr : Word} :
    rateLegal cfg sr = true
      ↔ F32.le F32.four sr = true ∧ F32.lt sr F32.posInf = true ∧ exceedsMaxLen cfg (bufferLength sr) = false := by
  simp [rateLegal, and_assoc]

theorem freshEngine_ok {cfg : Config.Params} {sr : Word} (h : rateLegal cfg sr = true) :
    (freshEngine cfg sr).ok cfg = true := by
  obtain ⟨hlo, hhi, -⟩ := rateLegal_iff.mp h
  have hlen : 0 < bufferLength sr := F32.bufferLength_pos hlo hhi
  refine Engine.ok_iff.mpr ⟨h, rfl, hlen, fun c => ?_⟩
  cases c <;> exact freshUnits_ok cfg sr hlen

/-! ### Every step keeps it -/

theorem Answer.ok {i : Instr} {s t : State} (ha : Answer i s t) (h : s.ok = true) : t.ok = true := by
  obtain ⟨hlegal, hinit, he⟩ := State.ok_iff.mp h
  cases ha with
  | replied | refused => exact State.ok_iff.mpr ⟨hlegal, hinit, he⟩
  | constructed sr hi hr hf =>
    refine State.ok_iff.mpr ⟨(by decide : statusLegal statusRunning = true), fun _ => rfl, fun e' he' => ?_⟩
    exact Option.some.inj he' ▸ freshEngine_ok hr
  | initFailed sr c hi hc => exact State.failInit_ok (by rcases hc with rfl | rfl <;> decide) h
  | failed c hi hc => exact State.fail_ok (by rcases hc with rfl | rfl | rfl | rfl <;> decide) h
  | completed e e' n rs hi hs hk =>
    refine State.ok_iff.mpr ⟨hlegal, fun _ => rfl, fun e'' he'' => ?_⟩
    exact Option.some.inj he'' ▸ hk.ok s.cfg (he e hs.engine)

/-- Settles O50, by the shapes of an answer: an error leaves a legal STATUS, ENG_INIT a sound engine, and a completed
command an engine that `Engine.Keeps` says is sound. -/
theorem stepKeepsInvariant : Obligations.StepKeepsInvariant := fun _ _ hs hstep =>
  step_keeps (P := fun s => s.ok = true) (fun _ _ h => h) (fun _ => State.fail_ok (by decide))
    (fun _ _ _ h hx => (exec_next hx).ok h) hs hstep

end Sys2Proof.Machine
end

section
/-! The decoder and the encoder are inverse to each other (spec/30_encoding.md R81 to R89; spec/20_memory.md R65). -/

namespace Sys2Proof

/-! ### The fields of an encoded word (R81) -/

theorem unitField_encodeUnit_fin (op : Opcode) (c : Channel) (k : Fin 8) :
    unitField (encodeUnit op ⟨c, k⟩) = ⟨c, k⟩ := by
  cases op <;> cases c <;> (revert k; decide)

theorem delayField_encodeDelay_fin (op : Opcode) (c : Channel) (k : Fin 8) (sel : DelaySel) (kind : HostKind) :
    delayField (encodeDelay op ⟨c, k, sel, kind⟩) = ⟨c, k, sel, kind⟩ := by
  cases op <;> cases c <;> cases sel <;> cases kind <;> (revert k; decide)

theorem unitField_encodeUnit (op : Opcode) {u : UnitAddr} (h : u.namesDegraded) : unitField (encodeUnit op u) = u :=
  unitField_encodeUnit_fin op u.ch ⟨u.idx, by omega⟩

theorem DelayAddr.idx_le_of_namesDelay {d : DelayAddr} (h : d.namesDelay = true) : d.idx ≤ 3 := by
  obtain ⟨c, k, sel, kind⟩ := d
  cases kind with
  | allpass => exact Nat.le_succ_of_le (of_decide_eq_true h : k ≤ 2)
  | degraded => exact of_decide_eq_true h

theorem delayField_encodeDelay (op : Opcode) {d : DelayAddr} (h : d.namesDelay = true) :
    delayField (encodeDelay op d) = d :=
  delayField_encodeDelay_fin op d.ch ⟨d.idx, by have := d.idx_le_of_namesDelay h; omega⟩ d.sel d.kind

/-! ### Decoding what was encoded, format by format -/

/-- A command that passes the checks of its row is built from it. -/
theorem decode_eq_buildInstr {c : Command} {op : Opcode}
    (hw : c.word &&& op.format.mask = op.matchWord ∧ opcField c.word = op.code) (hu : unitLegal op c.word = true) :
    decode c = buildInstr op c.word c.ops := by
  obtain ⟨hmask, hcode⟩ := hw
  simp [decode, hcode, Opcode.ofCode?_code, hmask, hu]

theorem unitLegal_of_format_n {op : Opcode} (hf : op.format = .n) (w : Word) : unitLegal op w = true := by
  cases op with
  | nop | engInit | engFrame | rdStatus | lfoSetFreq | lfoNext => rfl
  | _ => cases hf

theorem decode_matchWord {op : Opcode} (ops : List Word) (hf : op.format = .n) :
    decode ⟨op.matchWord, ops⟩ = buildInstr op op.matchWord ops :=
  decode_eq_buildInstr (Laws.OpcodeField.plain_word op) (unitLegal_of_format_n hf _)

theorem decode_encodeUnit {op : Opcode} {u : UnitAddr} (ops : List Word) (hf : op.format = .u) (h : u.namesDegraded)
    (hu : unitLegal op (encodeUnit op u) = true) :
    decode ⟨encodeUnit op u, ops⟩ = buildInstr op (encodeUnit op u) ops :=
  decode_eq_buildInstr (hf ▸ Laws.OpcodeField.unit_ok h) hu

theorem decode_encodeDelay {op : Opcode} {d : DelayAddr} (ops : List Word) (hf : op.format = .c)
    (h : d.namesDelay = true) (hu : unitLegal op (encodeDelay op d) = true) :
    decode ⟨encodeDelay op d, ops⟩ = buildInstr op (encodeDelay op d) ops :=
  decode_eq_buildInstr (hf ▸ Laws.OpcodeField.delay_ok h) hu

theorem decode_encode {i : Instr} (hi : i.wf = true) : decode (encode i) = .ok i := by
  cases i with
  | nop | engInit | engFrame | rdStatus | lfoSetFreq | lfoNext =>
    rw [encode, decode_matchWord _ rfl]
    rfl
  | cdSetTime d v | cdProcess d v =>
    have hfield := fun op => delayField_encodeDelay op (d := d) hi
    rw [encode, decode_encodeDelay _ rfl hi (by rw [unitLegal, hfield]; exact hi), buildInstr, hfield, operands1]
  | apSetG u v | apSetTime u v | apProcess u v | apFdpProcess u v =>
    have hu : u.namesDegraded := Nat.le_succ_of_le (of_decide_eq_true hi)
    have hfield := fun op => unitField_encodeUnit op hu
    rw [encode, decode_encodeUnit _ rfl hu (by rw [unitLegal, hfield]; exact hi), buildInstr, hfield, operands1]
  | dfdSetFeedback u v | dfdSetA u v | dfdSetAmount u v | dfdSetRatio u v | dfdSetTime u v | dfdProcess u v =>
    have hfield := fun op => unitField_encodeUnit op (of_decide_eq_true hi)
    rw [encode, decode_encodeUnit _ rfl (of_decide_eq_true hi) (by rw [unitLegal, hfield]; exact hi), buildInstr, hfield,
      operands1]
  | dsProcess u x r =>
    have hfield := fun op => unitField_encodeUnit op (of_decide_eq_true hi)
    rw [encode, decode_encodeUnit _ rfl (of_decide_eq_true hi) (by rw [unitLegal, hfield]; exact hi), buildInstr, hfield,
      operands2]

/-! ### The byte transport (R65) -/

theorem word_of_bytes (w : Word) :
    (w.extractLsb' 24 8 ++ w.extractLsb' 16 8 ++ w.extractLsb' 8 8 ++ w.extractLsb' 0 8 : Word) = w := by
  rw [BitVec.extractLsb'_append_extractLsb'_eq_extractLsb' (by rfl),
    BitVec.extractLsb'_append_extractLsb'_eq_extractLsb' (by rfl),
    BitVec.extractLsb'_append_extractLsb'_eq_extractLsb' (by rfl)]
  exact BitVec.extractLsb'_eq_self

theorem bytesToWords_flatMap (ws : List Word) : bytesToWords (ws.flatMap wordToBytes) = some ws := by
  induction ws with
  | nil => rfl
  | cons w ws ih =>
    rw [List.flatMap_cons, wordToBytes]
    simp only [List.cons_append, List.nil_append, bytesToWords, ih, Option.map_some, word_of_bytes]

/-- The transport changes nothing about what a command decodes to. -/
theorem decodeBytes_toBytes (c : Command) : decodeBytes c.toBytes = decode c := by
  rw [decodeBytes, Command.toBytes, bytesToWords_flatMap]

/-- Settles O43, format by format: the fields of an encoded word are the unit it was made of, and its bytes carry the same
words. -/
theorem decodeOfEncode : Obligations.DecodeOfEncode := fun i hi =>
  ⟨decode_encode hi, (decodeBytes_toBytes (encode i)).trans (decode_encode hi)⟩

/-! ### Encoding what was decoded -/

theorem bit_chField (w : Word) : (chField w).bit = w &&& 0x00800000#32 := by
  rw [show 0x00800000#32 = BitVec.twoPow 32 23 by decide, BitVec.and_twoPow]
  unfold chField
  split_ifs <;> rfl

theorem bit_selField (w : Word) : (selField w).bit = w &&& 0x00080000#32 := by
  rw [show 0x00080000#32 = BitVec.twoPow 32 19 by decide, BitVec.and_twoPow]
  unfold selField
  split_ifs <;> rfl

theorem bit_kindField (w : Word) : (kindField w).bit = w &&& 0x00040000#32 := by
  rw [show 0x00040000#32 = BitVec.twoPow 32 18 by decide, BitVec.and_twoPow]
  unfold kindField
  split_ifs <;> rfl

theorem idxBits_idxField (w : Word) : idxBits (idxField w) = w &&& 0x00700000#32 := by
  unfold idxField idxBits
  rw [BitVec.ofNat_toNat]
  ext i hi
  simp only [BitVec.getElem_shiftLeft, BitVec.getElem_and]
  interval_cases i <;> simp

/-- The bits of a format U word: those its row fixes, and the fields (R81). -/
theorem encodeUnit_unitField {op : Opcode} {w : Word} (hf : op.format = .u) (h : w &&& op.format.mask = op.matchWord) :
    encodeUnit op (unitField w) = w := by
  rw [hf] at h
  rw [encodeUnit, unitField, bit_chField, idxBits_idxField, ← h, ← BitVec.and_or_distrib_left,
    ← BitVec.and_or_distrib_left]
  exact BitVec.and_allOnes

theorem encodeDelay_delayField {op : Opcode} {w : Word} (hf : op.format = .c) (h : w &&& op.format.mask = op.matchWord) :
    encodeDelay op (delayField w) = w := by
  rw [hf] at h
  rw [encodeDelay, delayField, bit_chField, idxBits_idxField, bit_selField, bit_kindField, ← h,
    ← BitVec.and_or_distrib_left, ← BitVec.and_or_distrib_left, ← BitVec.and_or_distrib_left,
    ← BitVec.and_or_distrib_left]
  exact BitVec.and_allOnes

/-- Settles O44, row by row: a legal word has its row's fixed bits, its other bits are the fields, and the fields are the
unit of the instruction built. -/
theorem encodeOfDecode : Obligations.EncodeOfDecode := by
  rintro ⟨w, ops⟩ i h
  obtain ⟨op, -, hmask, hunit, hbuild⟩ := decode_eq_ok.mp h
  have hn : op.format = .n → op.matchWord = w := fun hf => by rw [← hmask, hf]; exact and_mask_n w
  cases op with
  | nop | rdStatus | lfoNext =>
    obtain ⟨rfl, rfl⟩ := operands0_eq_ok.mp hbuild
    exact ⟨congrArg (Command.mk · _) (hn rfl), rfl⟩
  | engInit | lfoSetFreq =>
    obtain ⟨a, rfl, rfl⟩ := operands1_eq_ok.mp hbuild
    exact ⟨congrArg (Command.mk · _) (hn rfl), rfl⟩
  | engFrame =>
    obtain ⟨_, _, _, _, _, _, _, rfl, rfl⟩ := operands7_eq_ok.mp hbuild
    exact ⟨congrArg (Command.mk · _) (hn rfl), rfl⟩
  | cdSetTime | cdProcess =>
    obtain ⟨a, rfl, rfl⟩ := operands1_eq_ok.mp hbuild
    exact ⟨congrArg (Command.mk · _) (encodeDelay_delayField rfl hmask), hunit⟩
  | dsProcess =>
    obtain ⟨a, b, rfl, rfl⟩ := operands2_eq_ok.mp hbuild
    exact ⟨congrArg (Command.mk · _) (encodeUnit_unitField rfl hmask), hunit⟩
  | _ =>
    obtain ⟨a, rfl, rfl⟩ := operands1_eq_ok.mp hbuild
    exact ⟨congrArg (Command.mk · _) (encodeUnit_unitField rfl hmask), hunit⟩

/-! ### Words of the rules' own examples (R90) and the step that runs one -/

/-- Settles O45, by running the decoder on the five words. -/
theorem knownWordsDecode : Obligations.KnownWordsDecode := by
  unfold Obligations.KnownWordsDecode
  decide

namespace Machine

/-- Settles O42: decoding is the only check before `exec`. -/
theorem stepRunsDecodedCommand : Obligations.StepRunsDecodedCommand := by
  intro s c rest i hp hd
  rw [step_cons hp, runCommand, hd]

end Machine
end Sys2Proof
end

section
/-! The checks of spec/60_exceptions.md R271 that come before a command's own (R274 to R276), and what the shapes of an
answer say of STATUS, the rate and the length (R270, R283, R34, R63). -/

namespace Sys2Proof.Machine

/-! ### The gates of a command -/

theorem slot?_of {d : DelayAddr} (h : d.namesDelay = true) : ∃ slot, slot? d = some slot :=
  Option.ne_none_iff_exists'.mp fun hnone => by simp [slot?_none.mp hnone] at h

theorem onAllpass_gated {u : UnitAddr} (s : State) (f : Engine → Fin 3 → Result) (h : u.namesAllpass) :
    ∃ g, onAllpass u s f = whenRunning s g :=
  ⟨_, by rw [onAllpass, apNumber?_of h]⟩

theorem onDegraded_gated {u : UnitAddr} (s : State) (f : Engine → Fin 4 → Result) (h : u.namesDegraded) :
    ∃ g, onDegraded u s f = whenRunning s g :=
  ⟨_, by rw [onDegraded, dfdNumber?_of h]⟩

theorem onDelay_gated {d : DelayAddr} (s : State) (f : Engine → Slot → Result) (h : d.namesDelay = true) :
    ∃ g, onDelay d s f = whenRunning s g := by
  obtain ⟨slot, hslot⟩ := slot?_of h
  exact ⟨_, by rw [onDelay, hslot]⟩

/-- Every legal command but NOP, ENG_INIT and RD_STATUS passes checks 2 and 3 of R271 before it does anything. -/
theorem exec_gated {i : Instr} (s : State) (hi : i.wf = true) (hx : exempt i = false) :
    ∃ f, exec i s = whenRunning s f := by
  cases i with
  | nop | engInit | rdStatus => cases hx
  | engFrame | lfoSetFreq | lfoNext => exact ⟨_, rfl⟩
  | cdSetTime | cdProcess => exact onDelay_gated s _ hi
  | apSetG | apSetTime | apProcess | apFdpProcess => exact onAllpass_gated s _ (of_decide_eq_true hi)
  | _ => exact onDegraded_gated s _ (of_decide_eq_true hi)

/-- An instruction that names no unit is illegal before any other check (log entry 14). -/
theorem exec_of_not_wf {i : Instr} (s : State) (hi : i.wf = false) : exec i s = .next (s.fail .illegal) := by
  cases i with
  | nop | engInit | rdStatus | engFrame | lfoSetFreq | lfoNext => cases hi
  | cdSetTime | cdProcess =>
    have hd := slot?_none.mpr hi
    simp only [exec, execCdSetTime, execCdProcess, onDelay, hd]
  | apSetG | apSetTime | apProcess | apFdpProcess =>
    have hu := apNumber?_none.mpr (of_decide_eq_false hi)
    simp only [exec, execApSetG, execApSetTime, execApProcess, execApFdpProcess, onAllpass, hu]
  | _ =>
    have hu := dfdNumber?_none.mpr (of_decide_eq_false hi)
    simp only [exec, execDfdSetFeedback, execDfdSetA, execDfdSetAmount, execDfdSetRatio, execDfdSetTime, execDfdProcess,
      execDsProcess, onDegraded, hu]

/-- Settles O8: check 2 is the first thing a legal command meets. -/
theorem faultedBlockRefusesWork : Obligations.FaultedBlockRefusesWork := by
  intro i s hi hx herr
  obtain ⟨f, hf⟩ := exec_gated s hi hx
  exact hf.trans (whenRunning_faulted f herr)

/-- Settles O9: check 3 follows, and R273's general branch writes STATUS. -/
theorem uninitialisedBlockRefusesWork : Obligations.UninitialisedBlockRefusesWork := by
  intro i s hi hx herr hinit
  obtain ⟨f, hf⟩ := exec_gated s hi hx
  refine ⟨statusAfterError .notInit s.status, hf.trans (whenRunning_notInit f herr hinit),
    statusErr_statusAfterError _ _, (statusInit_statusAfterError _ _).trans hinit, fun hcause => ?_⟩
  rw [statusCause_statusAfterError, if_pos hcause, Code.number]

/-- Settles O10: neither a failed decoding nor a unit that is not there reaches the checks of STATUS. -/
theorem illegalCommandAnswersIllegal : Obligations.IllegalCommandAnswersIllegal :=
  ⟨fun _ _ _ _ hp hd => step_of_decode_error hp hd, fun _ s hi => exec_of_not_wf s hi⟩

/-! ### The invariant reaches no fault (R61) -/

theorem whenRunning_answers {s : State} {f : Engine → Result} (h : s.ok = true)
    (hf : ∀ e, s.Running e → ∃ t, f e = .next t) : ∃ t, whenRunning s f = .next t := by
  cases herr : statusErr s.status with
  | true => exact ⟨_, whenRunning_faulted f herr⟩
  | false =>
    cases hinit : statusInit s.status with
    | false => exact ⟨_, whenRunning_notInit f herr hinit⟩
    | true =>
      obtain ⟨e, he⟩ := Option.isSome_iff_exists.mp ((State.ok_iff.mp h).2.1 hinit)
      have hs : s.Running e := ⟨herr, hinit, he⟩
      exact whenRunning_running f hs ▸ hf e hs

theorem onAllpass_answers {u : UnitAddr} {s : State} {f : Engine → Fin 3 → Result} (h : s.ok = true)
    (hf : ∀ e k, s.Running e → ∃ t, f e k = .next t) : ∃ t, onAllpass u s f = .next t := by
  unfold onAllpass
  split
  · exact ⟨_, rfl⟩
  · exact whenRunning_answers h fun e => hf e _

theorem onDegraded_answers {u : UnitAddr} {s : State} {f : Engine → Fin 4 → Result} (h : s.ok = true)
    (hf : ∀ e k, s.Running e → ∃ t, f e k = .next t) : ∃ t, onDegraded u s f = .next t := by
  unfold onDegraded
  split
  · exact ⟨_, rfl⟩
  · exact whenRunning_answers h fun e => hf e _

theorem onDelay_answers {d : DelayAddr} {s : State} {f : Engine → Slot → Result} (h : s.ok = true)
    (hf : ∀ e slot, s.Running e → ∃ t, f e slot = .next t) : ∃ t, onDelay d s f = .next t := by
  unfold onDelay
  split
  · exact ⟨_, rfl⟩
  · exact whenRunning_answers h fun e => hf e _

theorem Delay.inRange_of_ok {len : Nat} {d : Delay} (h : d.ok len = true) : d.inRange len = true := by
  obtain ⟨hw, hr, -, -⟩ := Delay.ok_iff.mp h
  simp [Delay.inRange, hw, hr]

theorem Engine.len_pos_of_ok {cfg : Config.Params} {e : Engine} (h : e.ok cfg = true) : 0 < e.len :=
  (Engine.ok_iff.mp h).2.2.1

theorem ite_next (p : Prop) [Decidable p] (t t' : State) :
    ∃ u, (if p then .next t else .next t' : Result) = .next u := by
  split_ifs <;> exact ⟨_, rfl⟩

/-- Under the invariant no command stops the block: a running block's engine passes the checks of length and range. -/
theorem exec_answers {i : Instr} {s : State} (h : s.ok = true) : ∃ t, exec i s = .next t := by
  have hok : ∀ e, s.Running e → e.ok s.cfg = true := fun e hs => State.engine_ok h hs.engine
  cases i with
  | nop | rdStatus => exact ⟨_, rfl⟩
  | engInit sr =>
    rw [exec, execEngInit]
    split_ifs <;> exact ⟨_, rfl⟩
  | engFrame l r g da di sp se =>
    refine whenRunning_answers h fun e hs => ?_
    cases amountOf di with
    | none => exact ⟨_, rfl⟩
    | some amount => exact ⟨_, requireRange_of_eq_true _ (Engine.inRange_of_ok (hok e hs))⟩
  | cdSetTime =>
    exact onDelay_answers h fun e d hs => ⟨_, requireLength_pos _ (Engine.len_pos_of_ok (hok e hs))⟩
  | cdProcess =>
    exact onDelay_answers h fun e d hs =>
      ⟨_, requireRange_of_eq_true _ (Delay.inRange_of_ok (Engine.delay_ok (hok e hs) d))⟩
  | apSetG => exact onAllpass_answers h fun _ _ _ => ⟨_, rfl⟩
  | apSetTime =>
    exact onAllpass_answers h fun e k hs => ⟨_, requireLength_pos _ (Engine.len_pos_of_ok (hok e hs))⟩
  | apProcess u | apFdpProcess u =>
    exact onAllpass_answers h fun e k hs =>
      ⟨_, requireRange_of_eq_true _ (Pair.inRange_of_ok (Engine.ap_ok (hok e hs) u.ch k))⟩
  | dfdSetFeedback | dfdSetA | dfdSetRatio | dsProcess => exact onDegraded_answers h fun _ _ _ => ⟨_, rfl⟩
  | dfdSetAmount => exact onDegraded_answers h fun _ _ _ => ite_next _ _ _
  | dfdSetTime =>
    exact onDegraded_answers h fun e k hs => ⟨_, requireLength_pos _ (Engine.len_pos_of_ok (hok e hs))⟩
  | dfdProcess u =>
    exact onDegraded_answers h fun e k hs =>
      ⟨_, requireRange_of_eq_true _ (Degraded.inRange_of_ok (Engine.dfd_ok (hok e hs) u.ch k))⟩
  | lfoSetFreq => exact whenRunning_answers h fun _ _ => ite_next _ _ _
  | lfoNext => exact whenRunning_answers h fun _ _ => ⟨_, rfl⟩

/-- Settles O51: an idle step and a failed decoding answer, and under the invariant so does every command. -/
theorem invariantNeverStops : Obligations.InvariantNeverStops := by
  intro s hs
  rcases step_cases s with ⟨-, h⟩ | ⟨c, rest, -, -, h⟩ | ⟨c, rest, i, -, -, h⟩
  · exact ⟨_, h⟩
  · exact ⟨_, h⟩
  · exact h ▸ exec_answers (s := { s with pending := rest }) hs

/-! ### STATUS.CAUSE (R270) -/

theorem statusCauseRecorded_iff {st : Word} :
    statusCauseRecorded st = true ↔ ∃ c : Code, c ≠ .faulted ∧ c.number = statusCause st := by
  simp only [statusCauseRecorded, List.any_eq_true, beq_iff_eq]
  constructor
  · rintro ⟨c, hc, h⟩
    exact ⟨c, by rintro rfl; simp at hc, h⟩
  · rintro ⟨c, hc, h⟩
    exact ⟨c, by cases c <;> simp at hc ⊢, h⟩

theorem statusCauseRecorded_of_cause_eq {st : Word} (c : Code) (hc : c ≠ .faulted) (h : statusCause st = c.number) :
    statusCauseRecorded st = true :=
  statusCauseRecorded_iff.mpr ⟨c, hc, h.symm⟩

theorem statusCauseRecorded_afterError {c : Code} {st : Word} (hc : c ≠ .faulted) (h : statusCauseRecorded st = true) :
    statusCauseRecorded (statusAfterError c st) = true := by
  by_cases h0 : statusCause st = 0#4
  · exact statusCauseRecorded_of_cause_eq c hc (by rw [statusCause_statusAfterError, if_pos h0])
  · obtain ⟨c', hc', h'⟩ := statusCauseRecorded_iff.mp h
    exact statusCauseRecorded_of_cause_eq c' hc' (by rw [statusCause_statusAfterError, if_neg h0, h'])

theorem Answer.statusCauseRecorded {i : Instr} {s t : State} (ha : Answer i s t)
    (h : statusCauseRecorded s.status = true) : statusCauseRecorded t.status = true := by
  cases ha with
  | replied | refused | completed => exact h
  | constructed => exact statusCauseRecorded_of_cause_eq .ok (by decide) (statusCause_statusOf _ _ _)
  | initFailed sr c hi hc =>
    exact statusCauseRecorded_of_cause_eq c (by rcases hc with rfl | rfl <;> decide) (statusCause_statusOf _ _ _)
  | failed c hi hc => exact statusCauseRecorded_afterError (by rcases hc with rfl | rfl | rfl | rfl <;> decide) h

/-- Settles O52: an error records its own code or keeps the first cause, and E_FAULTED keeps STATUS. -/
theorem causeIsARecordedCode : Obligations.CauseIsARecordedCode := fun _ _ hs hstep =>
  step_keeps (P := fun s => statusCauseRecorded s.status = true) (fun _ _ h => h)
    (fun _ => statusCauseRecorded_afterError (by decide)) (fun _ _ _ h hx => (exec_next hx).statusCauseRecorded h) hs hstep

/-! ### Leaving the faulted state (R283) -/

theorem Answer.engInit_of_leaves_fault {i : Instr} {s t : State} (ha : Answer i s t) (herr : statusErr s.status = true)
    (hclear : statusErr t.status = false) : ∃ sr, i = .engInit sr ∧ t = s.construct (freshEngine s.cfg sr) := by
  cases ha with
  | replied | refused => exact absurd (herr.symm.trans hclear) (by decide)
  | constructed sr hi => exact ⟨sr, hi, rfl⟩
  | initFailed sr c => exact absurd ((statusErr_statusOf false true c.number).symm.trans hclear) (by decide)
  | failed c => exact absurd ((statusErr_statusAfterError c s.status).symm.trans hclear) (by decide)
  | completed e e' n rs hi hs => exact absurd (herr.symm.trans hs.noErr) (by decide)

/-- Settles O13: of the shapes of an answer, only the constructed engine clears ERR. -/
theorem onlyEngInitLeavesFaultedState : Obligations.OnlyEngInitLeavesFaultedState := by
  intro s t herr hstep hclear
  rcases step_cases s with ⟨-, h⟩ | ⟨c, rest, -, -, h⟩ | ⟨c, rest, i, hp, hd, h⟩
  · obtain rfl := Host.Outcome.next.inj (h.symm.trans hstep)
    exact absurd (herr.symm.trans hclear) (by decide)
  · obtain rfl := Host.Outcome.next.inj (h.symm.trans hstep)
    exact absurd ((statusErr_statusAfterError .illegal s.status).symm.trans hclear) (by decide)
  · obtain ⟨sr, rfl, rfl⟩ := (exec_next (h.symm.trans hstep)).engInit_of_leaves_fault herr hclear
    exact ⟨c, rest, sr, hp, hd, (by decide : statusRunning = 0x00000001#32), rfl, rfl⟩

/-! ### The rate, the length and the OPEN parameters (R34, R63) -/

theorem Answer.cfg {i : Instr} {s t : State} (ha : Answer i s t) : t.cfg = s.cfg := by
  cases ha <;> rfl

theorem Answer.rate_and_length {i : Instr} {s t : State} {e : Engine} (ha : Answer i s t) (he : s.engine = some e) :
    (∃ e', t.engine = some e' ∧ e'.sr = e.sr ∧ e'.len = e.len)
      ∨ ∃ sr, i = .engInit sr ∧ t.response = some ⟨.ok, []⟩ := by
  cases ha with
  | replied | refused | initFailed | failed => exact .inl ⟨e, he, rfl, rfl⟩
  | constructed sr hi => exact .inr ⟨sr, hi, rfl⟩
  | completed e₀ e' n rs hi hs hk =>
    obtain rfl := Option.some.inj (hs.engine.symm.trans he)
    exact .inl ⟨e', rfl, hk.sr, hk.len⟩

/-- Settles O53: only the constructed engine has a rate and a length of its own. -/
theorem rateAndLengthFixedByEngInit : Obligations.RateAndLengthFixedByEngInit := by
  intro s t hstep
  rcases step_cases s with ⟨-, h⟩ | ⟨c, rest, -, -, h⟩ | ⟨c, rest, i, hp, hd, h⟩
  · obtain rfl := Host.Outcome.next.inj (h.symm.trans hstep)
    exact ⟨rfl, fun e he => .inl ⟨e, he, rfl, rfl⟩⟩
  · obtain rfl := Host.Outcome.next.inj (h.symm.trans hstep)
    exact ⟨rfl, fun e he => .inl ⟨e, he, rfl, rfl⟩⟩
  · have ha := exec_next (h.symm.trans hstep)
    refine ⟨ha.cfg, fun e he => (ha.rate_and_length he).imp_right ?_⟩
    rintro ⟨sr, rfl, hresp⟩
    exact ⟨c, rest, sr, hp, hd, hresp⟩

end Sys2Proof.Machine
end

section
/-! Power-on, ENG_INIT and RD_STATUS (spec/10_state.md R45, R46; spec/47_control.md R251, R252), the ranges of a sample
rate, a frequency and an intensity (spec/60_exceptions.md R277 to R279), and the commands that check them. -/

namespace Sys2Proof.Machine

/-! ### Power-on (R46) and RD_STATUS (R252) -/

/-- Settles O1: power-on's fields are written out in `State.reset`, and a step without a command is idle. -/
theorem powerOnStatusZeroEngineAbsent : Obligations.PowerOnStatusZeroEngineAbsent :=
  ⟨rfl, rfl, rfl, fun _ => step_nil⟩

/-- Settles O2: with no engine both invariants ask for a legal STATUS only. -/
theorem powerOnMeetsInvariants : Obligations.PowerOnMeetsInvariants := by
  unfold Obligations.PowerOnMeetsInvariants
  decide

theorem exec_rdStatus (s : State) : exec .rdStatus s = .next (s.reply [statusRead s.status]) := rfl

theorem getLsbD_statusRead (st : Word) {b : Nat} (hb : b < 32) :
    (statusRead st).getLsbD b = (st.getLsbD b && (b == 0 || b == 1 || (4 ≤ b && b ≤ 7 : Bool))) := by
  rw [statusRead, BitVec.getLsbD_and]
  congr 1
  interval_cases b <;> decide

theorem statusRead_of_legal {st : Word} (h : statusLegal st = true) : statusRead st = st :=
  beq_iff_eq.mp (Bool.and_eq_true_iff.mp h).1

/-- Settles O4: the word read is STATUS under the mask of its fields. -/
theorem readStatusAnswersStatus : Obligations.ReadStatusAnswersStatus := by
  refine ⟨fun s => ⟨_, exec_rdStatus s, fun _ => getLsbD_statusRead s.status⟩, fun s hs => ?_⟩
  exact (exec_rdStatus s).trans (by rw [statusRead_of_legal hs]; rfl)

/-! ### The buffer length (R34) -/

/-- Settles O6: the length is the quotient of the rate's units by those of 4.0. -/
theorem bufferLengthIsFloorOfQuarterRate : Obligations.BufferLengthIsFloorOfQuarterRate := by
  intro sr hlo hhi
  have hlen := F32.bufferLength_eq hlo hhi
  refine ⟨hlen ▸ Nat.div_mul_le_self _ _, ?_, F32.bufferLength_pos hlo hhi⟩
  rw [hlen, Nat.mul_comm]
  exact Nat.lt_mul_div_succ _ (by norm_num)

/-! ### Legal rates and frequencies (R277, R279) -/

theorem F32.le_eq_false_of_lt {x y : Word} (h : F32.lt x y = true) : F32.le y x = false := by
  refine Bool.eq_false_iff.mpr fun hle => ?_
  exact absurd h (by simp [F32.lt_eq_false_of_le hle])

theorem F32.le_eq_false_of_isNaN_right (x : Word) {y : Word} (hy : F32.isNaN y = true) : F32.le x y = false := by
  simp [F32.le, hy]

theorem exceedsMaxLen_eq_false_iff {cfg : Config.Params} {len : Nat} :
    exceedsMaxLen cfg len = false ↔ ∀ m, cfg.maxLen = some m → len ≤ m := by
  unfold exceedsMaxLen
  cases cfg.maxLen <;> simp

theorem rateLegal_eq_false_of {cfg : Config.Params} {sr : Word}
    (h : F32.isNaN sr = true ∨ F32.isInf sr = true ∨ F32.lt sr F32.four = true
      ∨ ∃ m, cfg.maxLen = some m ∧ m < bufferLength sr) : rateLegal cfg sr = false := by
  refine Bool.eq_false_iff.mpr fun hlegal => ?_
  obtain ⟨hlo, hhi, hmax⟩ := rateLegal_iff.mp hlegal
  obtain ⟨-, -, hmag⟩ := F32.le_four_iff hlo hhi
  rcases h with hnan | hinf | hlt | ⟨m, hm, hlen⟩
  · have := of_decide_eq_true hnan
    omega
  · have := of_decide_eq_true hinf
    omega
  · exact absurd hlt (by simp [F32.lt_eq_false_of_le hlo])
  · exact absurd (exceedsMaxLen_eq_false_iff.mp hmax m hm) (by omega)

theorem freqLegal_iff {sr f : Word} :
    freqLegal sr f = true ↔ F32.le F32.posZero f = true ∧ F32.lt f sr = true := by
  simp [freqLegal]

theorem freqLegal_eq_false_of {sr f : Word}
    (h : F32.isNaN f = true ∨ F32.lt f F32.posZero = true ∨ F32.le sr f = true) : freqLegal sr f = false := by
  rw [freqLegal, Bool.and_eq_false_iff]
  rcases h with hnan | hneg | hge
  · exact .inl (F32.le_eq_false_of_isNaN_right _ hnan)
  · exact .inl (F32.le_eq_false_of_lt hneg)
  · refine .inr (Bool.eq_false_iff.mpr fun hlt => ?_)
    exact absurd hge (by simp [F32.le_eq_false_of_lt hlt])

/-! ### ENG_INIT (R251) -/

theorem exec_engInit_ok {s : State} {sr : Word} (hr : rateLegal s.cfg sr = true) (hf : freqLegal sr s.cfg.lfoFreq = true) :
    exec (.engInit sr) s = .next (s.construct (freshEngine s.cfg sr)) := by
  simp [exec, execEngInit, hr, hf]

theorem exec_engInit_rate {s : State} {sr : Word} (hr : rateLegal s.cfg sr = false) :
    exec (.engInit sr) s = .next (s.failInit .rate) := by
  simp [exec, execEngInit, hr]

theorem exec_engInit_lfoFreq {s : State} {sr : Word} (hr : rateLegal s.cfg sr = true)
    (hf : freqLegal sr s.cfg.lfoFreq = false) : exec (.engInit sr) s = .next (s.failInit .lfoFreq) := by
  simp [exec, execEngInit, hr, hf]

/-- Settles O7: each hypothesis makes one check of ENG_INIT fail, and both failures are R273's branch for it. -/
theorem engInitRejectsBadRateOrFrequency : Obligations.EngInitRejectsBadRateOrFrequency :=
  ⟨fun _ _ hbad => exec_engInit_rate (rateLegal_eq_false_of hbad), fun _ _ hlo hhi hmax hbad =>
    exec_engInit_lfoFreq (rateLegal_iff.mpr ⟨hlo, hhi, exceedsMaxLen_eq_false_iff.mpr hmax⟩) (freqLegal_eq_false_of hbad)⟩

/-! ### The engine it constructs (R45) -/

@[simp] theorem freshEngine_ap (cfg : Config.Params) (sr : Word) (c : Channel) (k : Fin 3) :
    (freshEngine cfg sr).ap c k = freshAllpass (bufferLength sr) (apTime cfg k) := by
  cases c <;> fin_cases k <;> rfl

@[simp] theorem freshEngine_dfd (cfg : Config.Params) (sr : Word) (c : Channel) (k : Fin 4) :
    (freshEngine cfg sr).dfd c k = freshDegraded (bufferLength sr) (bankTime cfg sr k) := by
  cases c <;> fin_cases k <;> rfl

@[simp] theorem freshAllpass_delay (len t : Nat) (sel : DelaySel) :
    (freshAllpass len t).pair.delay sel = freshDelay len t := by
  cases sel <;> rfl

@[simp] theorem freshDegraded_delay (len t : Nat) (sel : DelaySel) :
    (freshDegraded len t).delay sel = freshDelay len t := by
  cases sel <;> rfl

theorem freshEngine_delay (cfg : Config.Params) (sr : Word) (d : Slot) :
    ∃ t, (freshEngine cfg sr).delay d = freshDelay (bufferLength sr) t := by
  cases d with
  | ap c k sel => exact ⟨apTime cfg k, by rw [Engine.delay, freshEngine_ap, freshAllpass_delay]⟩
  | dfd c k sel => exact ⟨bankTime cfg sr k, by rw [Engine.delay, freshEngine_dfd, freshDegraded_delay]⟩

/-- Settles O5: the constructed engine is made of fresh allpasses, fresh DFDs and fresh delays, whose fields are R45's. -/
theorem engInitConstructsEngine : Obligations.EngInitConstructsEngine := by
  intro s sr hlo hhi hmax hfpos hflt
  have hr : rateLegal s.cfg sr = true := rateLegal_iff.mpr ⟨hlo, hhi, exceedsMaxLen_eq_false_iff.mpr hmax⟩
  refine ⟨freshEngine s.cfg sr, exec_engInit_ok hr (freqLegal_iff.mpr ⟨hfpos, hflt⟩), rfl, rfl, rfl, fun d i => ?_,
    fun d => ?_, fun c k sel => ?_, fun c k sel => ?_, fun c k => ?_, fun c k => ?_⟩
  · obtain ⟨t, ht⟩ := freshEngine_delay s.cfg sr d
    rw [Engine.wordAt, ht]
    rfl
  · obtain ⟨t, ht⟩ := freshEngine_delay s.cfg sr d
    simp only [Engine.reg, ht]
    exact ⟨rfl, rfl⟩
  · simp only [Engine.reg, Engine.delay, freshEngine_ap, freshAllpass_delay]
    rfl
  · simp only [Engine.reg, Engine.delay, freshEngine_dfd, freshDegraded_delay]
    rfl
  · simp only [Engine.reg, freshEngine_ap]
    exact ⟨rfl, rfl, rfl⟩
  · simp only [Engine.reg, freshEngine_dfd]
    exact ⟨rfl, rfl, rfl, rfl, rfl, rfl, rfl, rfl⟩

/-! ### LFO_SET_FREQ (R202, R279) -/

theorem exec_lfoSetFreq_running {s : State} {e : Engine} (f : Word) (hs : s.Running e) :
    exec (.lfoSetFreq f) s = if freqLegal e.sr f then .next (s.complete { e with lfo := ⟨f, e.lfo.phase⟩ } s.nanDraws [])
      else .next (s.fail .lfoFreq) :=
  whenRunning_running _ hs

/-- Settles O29: the two clauses are the two branches of the check. -/
theorem lfoSetFreqChecksRange : Obligations.LfoSetFreqChecksRange := by
  intro s e f hs
  refine ⟨fun hpos hlt => ?_, fun hbad => ?_⟩
  · exact (exec_lfoSetFreq_running f hs).trans (if_pos (freqLegal_iff.mpr ⟨hpos, hlt⟩))
  · exact (exec_lfoSetFreq_running f hs).trans (if_neg (by simp [freqLegal_eq_false_of hbad]))

/-! ### The intensity of ENG_FRAME (R220, R278) -/

theorem F32.units_lt_of_magBits_lt {v w : Word} (h : F32.magBits v < F32.magBits w) : F32.units v < F32.units w :=
  F32.unitsOfBits_strictMono h

/-- A negative intensity above -1.0 is less than one in magnitude. -/
theorem units_lt_one_of_negOne_lt {di : Word} (h : F32.lt F32.negOne di = true) (hneg : F32.isNeg di = true) :
    F32.units di < 2 ^ 149 := by
  obtain ⟨-, -, hkey⟩ := F32.lt_eq_true_iff.mp h
  have hone : F32.orderKey F32.negOne = -0x3F800000 ∧ F32.magBits F32.one = 0x3F800000 ∧ F32.units F32.one = 2 ^ 149 := by
    decide
  obtain ⟨hkey1, hmag1, hunits1⟩ := hone
  rw [hkey1, F32.orderKey, if_pos hneg] at hkey
  exact hunits1 ▸ F32.units_lt_of_magBits_lt (by omega)

/-- The largest binary32 below 2^31 is 2^31 - 128. -/
theorem units_le_of_lt_twoPow31 {di : Word} (h : F32.lt di F32.twoPow31 = true) (hneg : F32.isNeg di = false) :
    F32.units di ≤ (2 ^ 31 - 128) * 2 ^ 149 := by
  obtain ⟨-, -, hkey⟩ := F32.lt_eq_true_iff.mp h
  have hbound : F32.orderKey F32.twoPow31 = 0x4F000000 ∧ F32.unitsOfBits 0x4EFFFFFF = (2 ^ 31 - 128) * 2 ^ 149 := by decide
  obtain ⟨hkey31, hunits⟩ := hbound
  rw [hkey31, F32.orderKey, if_neg (by simp [hneg])] at hkey
  exact hunits ▸ F32.unitsOfBits_strictMono.monotone (by omega)

theorem amountOf_of_mem_range {di : Word} (hlo : F32.lt F32.negOne di = true) (hhi : F32.lt di F32.twoPow31 = true) :
    amountOf di = some (if F32.isNeg di then 0 else F32.truncNat di) := by
  simp [amountOf, hlo, hhi]

theorem amountOf_eq_none_of {di : Word}
    (h : F32.isNaN di = true ∨ F32.le di F32.negOne = true ∨ F32.le F32.twoPow31 di = true) : amountOf di = none := by
  refine if_neg fun hin => ?_
  obtain ⟨hlo, hhi⟩ := Bool.and_eq_true_iff.mp hin
  rcases h with hnan | hle | hge
  · exact absurd hlo (by simp [F32.lt_eq_false_of_isNaN_right _ hnan])
  · exact absurd hlo (by simp [F32.lt_eq_false_of_le hle])
  · exact absurd hhi (by simp [F32.lt_eq_false_of_le hge])

theorem exec_engFrame_amount {s : State} {e : Engine} {di : Word} (l r g da sp se : Word) (hs : s.Running e)
    (ha : amountOf di = none) : exec (.engFrame l r g da di sp se) s = .next (s.fail .amount) := by
  refine (whenRunning_running _ hs).trans ?_
  simp only [ha]

/-- Settles O32: a negative intensity in range is below one in magnitude, a non-negative one is at most 2^31 - 128, and
outside the range the check fails. -/
theorem intensityTruncatesOrFails : Obligations.IntensityTruncatesOrFails := by
  refine ⟨fun di hlo hhi => ⟨_, amountOf_of_mem_range hlo hhi, ?_⟩, fun s e l r g da di sp se hs hbad =>
    exec_engFrame_amount l r g da sp se hs (amountOf_eq_none_of hbad)⟩
  cases hneg : F32.isNeg di with
  | true => simpa using units_lt_one_of_negOne_lt hlo hneg
  | false =>
    simp only [Bool.false_eq_true, if_false, F32.truncNat]
    refine ⟨Nat.div_le_of_le_mul ?_, Nat.div_mul_le_self _ _, ?_⟩
    · rw [Nat.mul_comm]
      exact units_le_of_lt_twoPow31 hhi hneg
    · rw [Nat.mul_comm]
      exact Nat.lt_mul_div_succ _ (by norm_num)

end Sys2Proof.Machine
end

section
/-! What replacing one unit of the engine leaves unchanged (spec/10_state.md R36 to R42), with the settings and the
placements that touch one register each. -/

namespace Sys2Proof.Machine

/-! ### One circular delay -/

/-- The registers and the buffer words of the delay `d` that `m` does not name are the same in `v'` as in `v`. -/
structure Delay.AgreeOutside (d : Slot) (v v' : Delay) (m : Touched) : Prop where
  write : .cursorW d ∉ m.regs → v'.w = v.w
  read  : .cursorR d ∉ m.regs → v'.r = v.r
  last  : .last d ∉ m.regs → v'.last = v.last
  words : ∀ i, (d, i) ∉ m.words → v'.buf.read i = v.buf.read i

theorem Delay.AgreeOutside.refl (d : Slot) (v : Delay) (m : Touched) : Delay.AgreeOutside d v v m :=
  ⟨fun _ => rfl, fun _ => rfl, fun _ => rfl, fun _ _ => rfl⟩

/-- A placement moves the read cursor (R100). -/
theorem Delay.agreeOutside_place {d : Slot} {m : Touched} (v : Delay) (len t : Nat) (hr : .cursorR d ∈ m.regs) :
    Delay.AgreeOutside d v (v.place len t) m :=
  ⟨fun _ => rfl, fun h => absurd hr h, fun _ => rfl, fun _ _ => rfl⟩

/-- A CD_PROCESS moves both cursors, sets `last` and writes the word at the write cursor (R102). -/
theorem Delay.agreeOutside_cdProc {d : Slot} {m : Touched} (v : Delay) (len : Nat) (x : Word) (hw : .cursorW d ∈ m.regs)
    (hr : .cursorR d ∈ m.regs) (hl : .last d ∈ m.regs) (hword : (d, v.w) ∈ m.words) :
    Delay.AgreeOutside d v (cdProc len v x).2 m :=
  ⟨fun h => absurd hw h, fun h => absurd hr h, fun h => absurd hl h, fun i hi =>
    Memory.read_write_other x (by rintro rfl; exact hi hword)⟩

/-! ### One allpass -/

theorem Allpass.agreeOutside_of_delays {c : Channel} {k : Fin 3} {a a' : Allpass} {m : Touched}
    (hg : .apG c k ∉ m.regs → a'.g = a.g) (hly : .apLy c k ∉ m.regs → a'.pair.ly = a.pair.ly)
    (hlf : .apLf c k ∉ m.regs → a'.pair.lf = a.pair.lf)
    (hd : ∀ sel, Delay.AgreeOutside (.ap c k sel) (a.pair.delay sel) (a'.pair.delay sel) m) :
    Allpass.AgreeOutside c k a a' m where
  g := hg
  ly := hly
  lf := hlf
  write sel := (hd sel).write
  read sel := (hd sel).read
  last sel := (hd sel).last
  words sel := (hd sel).words

/-! ### One degraded feedback delay -/

/-- The registers and the buffer words of `DFD[c][k]` that `m` does not name are the same in `q'` as in `q`. -/
structure Degraded.AgreeOutside (c : Channel) (k : Fin 4) (q q' : Degraded) (m : Touched) : Prop where
  fb     : .dfdFb c k ∉ m.regs → q'.fb = q.fb
  a      : .dfdA c k ∉ m.regs → q'.a = q.a
  ratio  : .dfdRatio c k ∉ m.regs → q'.ratio = q.ratio
  ly     : .dfdLy c k ∉ m.regs → q'.ly = q.ly
  lf     : .dfdLf c k ∉ m.regs → q'.lf = q.lf
  amount : .dsAmount c k ∉ m.regs → q'.ds.amount = q.ds.amount
  cnt    : .dsCnt c k ∉ m.regs → q'.ds.cnt = q.ds.cnt
  held   : .dsHeld c k ∉ m.regs → q'.ds.held = q.ds.held
  delays : ∀ sel, Delay.AgreeOutside (.dfd c k sel) (q.delay sel) (q'.delay sel) m

/-- A quantity of one DFD is kept by a replacement that keeps it in the DFD replaced. -/
theorem Engine.apply_dfd_setDfd {α : Type} (f : Degraded → α) {e : Engine} {c c' : Channel} {k j : Fin 4} {q : Degraded}
    (h : c' = c → j = k → f q = f (e.dfd c k)) : f ((e.setDfd c k q).dfd c' j) = f (e.dfd c' j) := by
  by_cases hu : c' = c ∧ j = k
  · obtain ⟨rfl, rfl⟩ := hu
    simpa using h rfl rfl
  · simp [hu]

/-- A quantity of one circular delay is kept by a replacement of a DFD that keeps it in that DFD's own delays. -/
theorem Engine.apply_delay_setDfd {α : Type} (f : Delay → α) {e : Engine} {c : Channel} {k : Fin 4} {q : Degraded} {d : Slot}
    (h : ∀ sel, d = .dfd c k sel → f (q.delay sel) = f ((e.dfd c k).delay sel)) :
    f ((e.setDfd c k q).delay d) = f (e.delay d) := by
  cases d with
  | ap c' j sel => simp [Engine.delay]
  | dfd c' j sel => exact apply_dfd_setDfd (fun b => f (b.delay sel)) (by rintro rfl rfl; exact h sel rfl)

/-- The frame of one DFD is the frame of the engine that holds it: every register and word of another unit is kept. -/
theorem Engine.agreeOutside_setDfd {e : Engine} {c : Channel} {k : Fin 4} {q : Degraded} {m : Touched}
    (h : Degraded.AgreeOutside c k (e.dfd c k) q m) : e.AgreeOutside (e.setDfd c k q) m where
  regs r hr := by
    cases r with
    | dfdFb    => exact apply_dfd_setDfd (·.fb.toNat) (by rintro rfl rfl; exact congrArg _ (h.fb hr))
    | dfdA     => exact apply_dfd_setDfd (·.a.toNat) (by rintro rfl rfl; exact congrArg _ (h.a hr))
    | dfdRatio => exact apply_dfd_setDfd (·.ratio.toNat) (by rintro rfl rfl; exact congrArg _ (h.ratio hr))
    | dfdLy    => exact apply_dfd_setDfd (·.ly.toNat) (by rintro rfl rfl; exact congrArg _ (h.ly hr))
    | dfdLf    => exact apply_dfd_setDfd (·.lf.toNat) (by rintro rfl rfl; exact congrArg _ (h.lf hr))
    | dsAmount => exact apply_dfd_setDfd (·.ds.amount) (by rintro rfl rfl; exact h.amount hr)
    | dsCnt    => exact apply_dfd_setDfd (·.ds.cnt) (by rintro rfl rfl; exact h.cnt hr)
    | dsHeld   => exact apply_dfd_setDfd (·.ds.held.toNat) (by rintro rfl rfl; exact congrArg _ (h.held hr))
    | cursorW  => exact apply_delay_setDfd (·.w) (by rintro sel rfl; exact (h.delays sel).write hr)
    | cursorR  => exact apply_delay_setDfd (·.r) (by rintro sel rfl; exact (h.delays sel).read hr)
    | last     => exact apply_delay_setDfd (·.last.toNat) (by rintro sel rfl; exact congrArg _ ((h.delays sel).last hr))
    | _ => simp [Engine.reg]
  words d i hi := apply_delay_setDfd (·.buf.read i) (by rintro sel rfl; exact (h.delays sel).words i hi)

/-! ### One slot, and the Lfo -/

/-- The frame of one delay is the frame of the unit that holds it, and so of the engine. -/
theorem Engine.agreeOutside_setDelay {e : Engine} {d : Slot} {v : Delay} {m : Touched}
    (h : Delay.AgreeOutside d (e.delay d) v m) : e.AgreeOutside (e.setDelay d v) m := by
  cases d with
  | ap c k sel =>
    refine agreeOutside_setAp (Allpass.agreeOutside_of_delays (fun _ => rfl) (fun _ => Pair.setDelay_ly _ _ _)
      (fun _ => Pair.setDelay_lf _ _ _) fun sel' => ?_)
    rw [Pair.delay_setDelay]
    split_ifs with hsel
    · exact hsel ▸ h
    · exact .refl _ _ _
  | dfd c k sel =>
    have hds := Degraded.setDelay_ds (e.dfd c k) sel v
    refine agreeOutside_setDfd ⟨fun _ => Degraded.setDelay_fb _ _ _, fun _ => Degraded.setDelay_a _ _ _,
      fun _ => Degraded.setDelay_ratio _ _ _, fun _ => Degraded.setDelay_ly _ _ _, fun _ => Degraded.setDelay_lf _ _ _,
      fun _ => hds ▸ rfl, fun _ => hds ▸ rfl, fun _ => hds ▸ rfl, fun sel' => ?_⟩
    rw [Degraded.delay_setDelay]
    split_ifs with hsel
    · exact hsel ▸ h
    · exact .refl _ _ _

theorem Engine.agreeOutside_lfo {e : Engine} {l : Lfo} {m : Touched} (hf : .lfoFreq ∉ m.regs → l.freq = e.lfo.freq)
    (hp : .lfoPhase ∉ m.regs → l.phase = e.lfo.phase) : e.AgreeOutside { e with lfo := l } m where
  regs r hr := by
    cases r with
    | lfoFreq => exact congrArg BitVec.toNat (hf hr)
    | lfoPhase => exact congrArg BitVec.toNat (hp hr)
    | _ => rfl
  words _ _ _ := rfl

/-! ### Setting one coefficient -/

theorem Allpass.agreeOutside_setG (c : Channel) (k : Fin 3) (a : Allpass) (g : Word) :
    Allpass.AgreeOutside c k a { a with g := g } ⟨[.apG c k], []⟩ :=
  agreeOutside_of_delays (fun h => absurd (List.mem_singleton.mpr rfl) h) (fun _ => rfl) (fun _ => rfl) fun _ => .refl _ _ _

/-- Replacing the four settings of a DFD leaves every setting that is replaced by itself, and the rest of the unit. -/
theorem Degraded.agreeOutside_configure {c : Channel} {k : Fin 4} {q : Degraded} {fb a ratio : Word} {n : Nat} {m : Touched}
    (hfb : .dfdFb c k ∉ m.regs → fb = q.fb) (ha : .dfdA c k ∉ m.regs → a = q.a)
    (hn : .dsAmount c k ∉ m.regs → n = q.ds.amount) (hratio : .dfdRatio c k ∉ m.regs → ratio = q.ratio) :
    Degraded.AgreeOutside c k q (q.configure fb a n ratio) m where
  fb := hfb
  a := ha
  ratio := hratio
  ly _ := rfl
  lf _ := rfl
  amount := hn
  cnt _ := rfl
  held _ := rfl
  delays _ := .refl _ _ _

theorem Degraded.agreeOutside_setFb (c : Channel) (k : Fin 4) (q : Degraded) (fb : Word) :
    Degraded.AgreeOutside c k q { q with fb := fb } ⟨[.dfdFb c k], []⟩ :=
  agreeOutside_configure (a := q.a) (n := q.ds.amount) (ratio := q.ratio)
    (fun h => absurd (List.mem_singleton.mpr rfl) h) (fun _ => rfl) (fun _ => rfl) fun _ => rfl

theorem Degraded.agreeOutside_setA (c : Channel) (k : Fin 4) (q : Degraded) (a : Word) :
    Degraded.AgreeOutside c k q { q with a := a } ⟨[.dfdA c k], []⟩ :=
  agreeOutside_configure (fb := q.fb) (n := q.ds.amount) (ratio := q.ratio) (fun _ => rfl)
    (fun h => absurd (List.mem_singleton.mpr rfl) h) (fun _ => rfl) fun _ => rfl

theorem Degraded.agreeOutside_setRatio (c : Channel) (k : Fin 4) (q : Degraded) (ratio : Word) :
    Degraded.AgreeOutside c k q { q with ratio := ratio } ⟨[.dfdRatio c k], []⟩ :=
  agreeOutside_configure (fb := q.fb) (a := q.a) (n := q.ds.amount) (fun _ => rfl) (fun _ => rfl) (fun _ => rfl)
    fun h => absurd (List.mem_singleton.mpr rfl) h

theorem Degraded.agreeOutside_setAmount (c : Channel) (k : Fin 4) (q : Degraded) (n : Nat) :
    Degraded.AgreeOutside c k q { q with ds := { q.ds with amount := n } } ⟨[.dsAmount c k], []⟩ :=
  agreeOutside_configure (fb := q.fb) (a := q.a) (ratio := q.ratio) (fun _ => rfl) (fun _ => rfl)
    (fun h => absurd (List.mem_singleton.mpr rfl) h) fun _ => rfl

/-- Placing a DFD moves its two read cursors and nothing else (R185, R100). -/
theorem Degraded.agreeOutside_place (c : Channel) (k : Fin 4) (q : Degraded) (len t : Nat) :
    Degraded.AgreeOutside c k q (q.place len t)
      ⟨[.cursorR (.dfd c k .primary), .cursorR (.dfd c k .secondary)], []⟩ where
  fb _ := rfl
  a _ := rfl
  ratio _ := rfl
  ly _ := rfl
  lf _ := rfl
  amount _ := rfl
  cnt _ := rfl
  held _ := rfl
  delays sel := by cases sel <;> exact Delay.agreeOutside_place _ _ _ (by simp)

@[simp] theorem Degraded.delay_place (len : Nat) (q : Degraded) (t : Nat) (sel : DelaySel) :
    (q.place len t).delay sel = (q.delay sel).place len t := by
  cases sel <;> rfl

end Sys2Proof.Machine
end

section
/-! The setters of one register and CD_PROCESS (spec/40 to spec/45), and what the commands of one unit leave unchanged. -/

namespace Sys2Proof.Machine

open F32 (Always)

/-! ### What each command is on a running block -/

theorem exec_apSetG_running {s : State} {e : Engine} {c : Channel} {k : Fin 3} (g : Word) (hs : s.Running e) :
    exec (.apSetG ⟨c, k⟩ g) s = .next (s.complete (e.setAp c k { e.ap c k with g := g }) s.nanDraws []) :=
  onAllpass_running _ (apNumber?_fin c k) hs

theorem exec_dfdSetFeedback_running {s : State} {e : Engine} {c : Channel} {k : Fin 4} (fb : Word) (hs : s.Running e) :
    exec (.dfdSetFeedback ⟨c, k⟩ fb) s = .next (s.complete (e.setDfd c k { e.dfd c k with fb := fb }) s.nanDraws []) :=
  onDegraded_running _ (dfdNumber?_fin c k) hs

theorem exec_dfdSetA_running {s : State} {e : Engine} {c : Channel} {k : Fin 4} (a : Word) (hs : s.Running e) :
    exec (.dfdSetA ⟨c, k⟩ a) s = .next (s.complete (e.setDfd c k { e.dfd c k with a := a }) s.nanDraws []) :=
  onDegraded_running _ (dfdNumber?_fin c k) hs

theorem exec_dfdSetRatio_running {s : State} {e : Engine} {c : Channel} {k : Fin 4} (ratio : Word) (hs : s.Running e) :
    exec (.dfdSetRatio ⟨c, k⟩ ratio) s
      = .next (s.complete (e.setDfd c k { e.dfd c k with ratio := ratio }) s.nanDraws []) :=
  onDegraded_running _ (dfdNumber?_fin c k) hs

theorem exec_dfdSetAmount_running {s : State} {e : Engine} {c : Channel} {k : Fin 4} (n : Word) (hs : s.Running e) :
    exec (.dfdSetAmount ⟨c, k⟩ n) s = if i32 n < 0 then .next (s.fail .amount) else
      .next (s.complete (e.setDfd c k { e.dfd c k with ds := { (e.dfd c k).ds with amount := (i32 n).toNat } })
        s.nanDraws []) :=
  onDegraded_running _ (dfdNumber?_fin c k) hs

theorem exec_dfdSetTime_running {s : State} {e : Engine} {c : Channel} {k : Fin 4} (time : Word) (hs : s.Running e) :
    exec (.dfdSetTime ⟨c, k⟩ time) s = requireLength e.len
      (.next (s.complete (e.setDfd c k ((e.dfd c k).place e.len time.toNat)) s.nanDraws [])) :=
  onDegraded_running _ (dfdNumber?_fin c k) hs

theorem exec_cdProcess_running {s : State} {e : Engine} {a : DelayAddr} {d : Slot} (x : Word) (hs : s.Running e)
    (ha : slot? a = some d) :
    exec (.cdProcess a x) s = requireRange ((e.delay d).inRange e.len)
      (.next (s.complete (e.setDelay d (cdProc e.len (e.delay d) x).2) s.nanDraws [(cdProc e.len (e.delay d) x).1])) :=
  onDelay_running _ ha hs

/-! ### The setters (R141, R180 to R185) -/

/-- Settles O18: the register set is the allpass's own, and the replaced allpass agrees in every other. -/
theorem apSetGStoresCoefficient : Obligations.ApSetGStoresCoefficient := by
  intro s e c k g hs
  refine ⟨_, exec_apSetG_running g hs, ?_, Engine.agreeOutside_setAp (Allpass.agreeOutside_setG c k _ g)⟩
  simp [Engine.reg]

/-- Settles O24: as for the allpass, one register of the DFD each. -/
theorem dfdSettersStoreCoefficients : Obligations.DfdSettersStoreCoefficients := by
  intro s e c k v hs
  refine ⟨⟨_, exec_dfdSetFeedback_running v hs, ?_, Engine.agreeOutside_setDfd (Degraded.agreeOutside_setFb c k _ v)⟩,
    ⟨_, exec_dfdSetA_running v hs, ?_, Engine.agreeOutside_setDfd (Degraded.agreeOutside_setA c k _ v)⟩,
    ⟨_, exec_dfdSetRatio_running v hs, ?_, Engine.agreeOutside_setDfd (Degraded.agreeOutside_setRatio c k _ v)⟩⟩
  · simp [Engine.reg]
  · simp [Engine.reg]
  · simp [Engine.reg]

theorem i32_of_lt {w : Word} (h : w.toNat < 2 ^ 31) : i32 w = w.toNat := by
  rw [i32, BitVec.toInt_eq_toNat_of_lt (by omega)]

theorem i32_neg_of_le {w : Word} (h : 2 ^ 31 ≤ w.toNat) : i32 w < 0 := by
  have := w.isLt
  rw [i32, BitVec.toInt_eq_toNat_cond, if_neg (by omega)]
  omega

/-- Settles O25: the two clauses are the two signs of the i32. -/
theorem dfdSetAmountChecksSign : Obligations.DfdSetAmountChecksSign := by
  intro s e c k v hs
  refine ⟨fun hv => ?_, fun hv => (exec_dfdSetAmount_running v hs).trans (if_pos (i32_neg_of_le hv))⟩
  have hi := i32_of_lt hv
  refine ⟨_, (exec_dfdSetAmount_running v hs).trans (if_neg (by omega)), ?_,
    Engine.agreeOutside_setDfd (Degraded.agreeOutside_setAmount c k _ _)⟩
  simp [Engine.reg, hi]

/-- Settles O26: the command places the DFD it names, and the placement moves the read cursors only. -/
theorem dfdSetTimePlacesBothDelays : Obligations.DfdSetTimePlacesBothDelays := by
  intro s e c k time hs hlen
  refine ⟨_, (exec_dfdSetTime_running time hs).trans (requireLength_pos _ hlen), fun sel => ?_,
    Engine.agreeOutside_setDfd (Degraded.agreeOutside_place c k _ e.len time.toNat)⟩
  simp [Engine.reg, Engine.delay, Delay.place_r]

/-! ### CD_PROCESS (R102) -/

/-- Settles O15: a sound delay's cursors exist, so the command is one run of `cdProc`, which `cdProc_pushed` describes. -/
theorem cdProcessPushesOneSample : Obligations.CdProcessPushesOneSample := by
  intro s e a d x hs ha hok
  exact ⟨_, _, (exec_cdProcess_running x hs ha).trans (requireRange_of_eq_true _ (Delay.inRange_of_ok hok)),
    cdProc_pushed _ _ _ (Delay.wf_of_ok hok)⟩

/-! ### A command that answers OK ran on a running block -/

theorem running_of_ok {i : Instr} {s t : State} {e : Engine} {rs : List Word} (hx : exempt i = false)
    (he : s.engine = some e) (hok : t.response = some ⟨.ok, rs⟩) (h : exec i s = .next t) : s.Running e := by
  cases exec_next h with
  | replied rs' hi => rcases hi with rfl | rfl <;> cases hx
  | constructed sr hi | initFailed sr c hi =>
    subst hi
    cases hx
  | refused =>
    have hcode : Code.faulted = .ok := congrArg Response.code (Option.some.inj hok)
    cases hcode
  | failed c _ hc =>
    obtain rfl : c = .ok := congrArg Response.code (Option.some.inj hok)
    exact absurd hc (by decide)
  | completed e₀ e' n rs' _ hs =>
    obtain rfl := Option.some.inj (hs.engine.symm.trans he)
    exact hs

/-- A completed command keeps STATUS, the parameters and the queue. -/
theorem State.frame_of_complete {s t : State} {e e' : Engine} {n : Nat} {rs : List Word} {m : Touched}
    (h : (.next (s.complete e' n rs) : Result) = .next t) (hm : e.AgreeOutside e' m) : s.Frame t e m := by
  obtain rfl := Host.Outcome.next.inj h
  exact ⟨rfl, rfl, rfl, e', rfl, hm⟩

/-- Settles O38: each setter that answers OK replaced one register of one unit, or of the Lfo. -/
theorem coefficientSettersFrame : Obligations.CoefficientSettersFrame := by
  intro s t e v rs he hok
  refine ⟨fun c k h => ?_, fun c k => ⟨fun h => ?_, fun h => ?_, fun h => ?_, fun h => ?_⟩, fun h => ?_⟩ <;>
    have hs := running_of_ok rfl he hok h
  · exact State.frame_of_complete ((exec_apSetG_running v hs).symm.trans h)
      (Engine.agreeOutside_setAp (Allpass.agreeOutside_setG c k _ v))
  · exact State.frame_of_complete ((exec_dfdSetFeedback_running v hs).symm.trans h)
      (Engine.agreeOutside_setDfd (Degraded.agreeOutside_setFb c k _ v))
  · exact State.frame_of_complete ((exec_dfdSetA_running v hs).symm.trans h)
      (Engine.agreeOutside_setDfd (Degraded.agreeOutside_setA c k _ v))
  · exact State.frame_of_complete ((exec_dfdSetRatio_running v hs).symm.trans h)
      (Engine.agreeOutside_setDfd (Degraded.agreeOutside_setRatio c k _ v))
  · replace h := (exec_dfdSetAmount_running v hs).symm.trans h
    split_ifs at h with hneg
    · obtain rfl := Host.Outcome.next.inj h
      cases hok
    · exact State.frame_of_complete h (Engine.agreeOutside_setDfd (Degraded.agreeOutside_setAmount c k _ _))
  · replace h := (exec_lfoSetFreq_running v hs).symm.trans h
    split_ifs at h with hlegal
    · exact State.frame_of_complete h
        (Engine.agreeOutside_lfo (fun hm => absurd (List.mem_singleton.mpr rfl) hm) fun _ => rfl)
    · obtain rfl := Host.Outcome.next.inj h
      cases hok

/-- Settles O39: each time setter that answers OK placed the delays it names. -/
theorem timeSettersFrame : Obligations.TimeSettersFrame := by
  intro s t e v rs he hok
  refine ⟨fun a d ha h => ?_, fun c k h => ?_, fun c k h => ?_⟩ <;> have hs := running_of_ok rfl he hok h
  · exact State.frame_of_complete (requireLength_next.mp ((onDelay_running _ ha hs).symm.trans h)).2
      (Engine.agreeOutside_setDelay (Delay.agreeOutside_place _ _ _ (List.mem_singleton.mpr rfl)))
  · exact State.frame_of_complete (requireLength_next.mp ((onAllpass_running _ (apNumber?_fin c k) hs).symm.trans h)).2
      (Engine.agreeOutside_setAp (Allpass.agreeOutside_place c k _ _ _))
  · exact State.frame_of_complete (requireLength_next.mp ((exec_dfdSetTime_running v hs).symm.trans h)).2
      (Engine.agreeOutside_setDfd (Degraded.agreeOutside_place c k _ _ _))

/-! ### What the process operations write, whatever the state of the unit -/

/-- A step of the Lfo keeps its frequency (R200). -/
theorem LfoStep.freq_eq {sr out : Word} {l l' : Lfo} (h : LfoStep sr l out l') : l'.freq = l.freq := by
  obtain ⟨t, arg, inc, p, -, -, -, -, -, -, hfreq⟩ := h
  exact hfreq

/-- Both delays of a pair are pushed once (R120). -/
theorem fdpProc_pushes (len : Nat) (fb : Word) (p : Pair) (x : Word) :
    Always (fdpProc len fb p x) fun r => ∀ sel, ∃ v, r.2.delay sel = (cdProc len (p.delay sel) v).2 :=
  .bind (F32.mul_prod _ _) fun _ _ => .bind (F32.add_sum _ _) fun _ _ => .pure fun sel => by
    cases sel <;> exact ⟨_, rfl⟩

/-- What AP_PROC keeps and pushes (R140): the coefficient stays, and both delays of the pair are pushed once. -/
structure Allpass.PushedOnce (len : Nat) (a a' : Allpass) : Prop where
  g      : a'.g = a.g
  delays : ∀ sel, ∃ v, a'.pair.delay sel = (cdProc len (a.pair.delay sel) v).2

theorem apProc_pushes (len : Nat) (a : Allpass) (x : Word) :
    Always (apProc len a x) fun r => Allpass.PushedOnce len a r.2 :=
  .bind (fdpProc_pushes len a.g a.pair x) fun _ hp => .bind (F32.mul_prod _ _) fun _ _ => .bind (F32.mul_prod _ _) fun _ _ =>
    .bind (F32.sub_diff _ _) fun _ _ => .bind (F32.mul_prod _ _) fun _ _ => .bind (F32.add_sum _ _) fun _ _ => .pure ⟨rfl, hp⟩

/-- What DFD_PROC keeps and pushes (R183): the four settings stay, and both delays are pushed once. -/
structure Degraded.PushedOnce (len : Nat) (q q' : Degraded) : Prop where
  fb     : q'.fb = q.fb
  a      : q'.a = q.a
  ratio  : q'.ratio = q.ratio
  amount : q'.ds.amount = q.ds.amount
  delays : ∀ sel, ∃ v, q'.delay sel = (cdProc len (q.delay sel) v).2

theorem dfdProc_pushes (len : Nat) (q : Degraded) (x : Word) :
    Always (dfdProc len q x) fun r => Degraded.PushedOnce len q r.2 :=
  .bind (F32.mul_prod _ _) fun _ _ => .bind (F32.add_sum _ _) fun _ _ => .bind (dsProc_step _ _ _) fun _ hd =>
    .bind (crossfade_of _ _ _) fun _ _ => .pure ⟨rfl, rfl, rfl, hd.1.amount, fun sel => by cases sel <;> exact ⟨_, rfl⟩⟩

/-! ### The frames of the process commands -/

@[simp] theorem Touched.regs_and (m n : Touched) : (m.and n).regs = m.regs ++ n.regs := rfl
@[simp] theorem Touched.words_and (m n : Touched) : (m.and n).words = m.words ++ n.words := rfl
@[simp] theorem Engine.pushTouches_regs (e : Engine) (d : Slot) :
    (e.pushTouches d).regs = [.cursorW d, .cursorR d, .last d] := rfl
@[simp] theorem Engine.pushTouches_words (e : Engine) (d : Slot) : (e.pushTouches d).words = [(d, (e.delay d).w)] := rfl

theorem Engine.agreeOutside_pushTouches (e : Engine) (d : Slot) (x : Word) :
    e.AgreeOutside (e.setDelay d (cdProc e.len (e.delay d) x).2) (e.pushTouches d) :=
  agreeOutside_setDelay (Delay.agreeOutside_cdProc _ _ _ (by simp) (by simp) (by simp) (by simp))

theorem Engine.agreeOutside_pairTouches {e : Engine} {c : Channel} {k : Fin 3} {a : Allpass}
    (h : Allpass.PushedOnce e.len (e.ap c k) a) : e.AgreeOutside (e.setAp c k a) (e.pairTouches c k) := by
  refine agreeOutside_setAp (Allpass.agreeOutside_of_delays (fun _ => h.g)
    (fun hm => absurd (by simp [pairTouches]) hm) (fun hm => absurd (by simp [pairTouches]) hm) fun sel => ?_)
  obtain ⟨v, hv⟩ := h.delays sel
  rw [hv]
  cases sel <;>
    exact Delay.agreeOutside_cdProc _ _ _ (by simp [pairTouches]) (by simp [pairTouches]) (by simp [pairTouches])
      (by simp [pairTouches, delay])

theorem Engine.agreeOutside_dfdTouches {e : Engine} {c : Channel} {k : Fin 4} {q : Degraded}
    (h : Degraded.PushedOnce e.len (e.dfd c k) q) : e.AgreeOutside (e.setDfd c k q) (e.dfdTouches c k) := by
  refine agreeOutside_setDfd ⟨fun _ => h.fb, fun _ => h.a, fun _ => h.ratio,
    fun hm => absurd (by simp [dfdTouches]) hm, fun hm => absurd (by simp [dfdTouches]) hm, fun _ => h.amount,
    fun hm => absurd (by simp [dfdTouches]) hm, fun hm => absurd (by simp [dfdTouches]) hm, fun sel => ?_⟩
  obtain ⟨v, hv⟩ := h.delays sel
  rw [hv]
  cases sel <;>
    exact Delay.agreeOutside_cdProc _ _ _ (by simp [dfdTouches]) (by simp [dfdTouches]) (by simp [dfdTouches])
      (by simp [dfdTouches, delay])

theorem Degraded.agreeOutside_ds {c : Channel} {k : Fin 4} {q : Degraded} {d : Downsampler} (h : d.amount = q.ds.amount) :
    Degraded.AgreeOutside c k q { q with ds := d } ⟨[.dsCnt c k, .dsHeld c k], []⟩ where
  fb _ := rfl
  a _ := rfl
  ratio _ := rfl
  ly _ := rfl
  lf _ := rfl
  amount _ := h
  cnt h := absurd (by simp) h
  held h := absurd (by simp) h
  delays _ := .refl _ _ _

/-- Settles O40: a process command that answers OK is one run of its operation, which pushes each delay of its unit once
and writes the unit's own outputs, counter or phase. -/
theorem processCommandsFrame : Obligations.ProcessCommandsFrame := by
  intro s t e x y rs he hok
  refine ⟨fun a d ha h => ?_, fun c k => ⟨fun h => ?_, fun h => ?_⟩, fun c k => ⟨fun h => ?_, fun h => ?_⟩, fun h => ?_⟩ <;>
    have hs := running_of_ok rfl he hok h
  · exact State.frame_of_complete (requireRange_next.mp ((exec_cdProcess_running x hs ha).symm.trans h)).2
      (e.agreeOutside_pushTouches d x)
  · exact State.frame_of_complete (requireRange_next.mp ((onAllpass_running _ (apNumber?_fin c k) hs).symm.trans h)).2
      (Engine.agreeOutside_pairTouches (apProc_pushes e.len _ x s.nanDraws))
  · exact State.frame_of_complete (requireRange_next.mp ((onAllpass_running _ (apNumber?_fin c k) hs).symm.trans h)).2
      (Engine.agreeOutside_pairTouches ⟨rfl, fdpProc_pushes e.len _ _ x s.nanDraws⟩)
  · exact State.frame_of_complete (requireRange_next.mp ((onDegraded_running _ (dfdNumber?_fin c k) hs).symm.trans h)).2
      (Engine.agreeOutside_dfdTouches (dfdProc_pushes e.len _ x s.nanDraws))
  · obtain ⟨hstep, -⟩ := dsProc_step (e.dfd c k).ds x y s.nanDraws
    exact State.frame_of_complete ((exec_dsProcess_running x y hs rfl).symm.trans h)
      (Engine.agreeOutside_setDfd (Degraded.agreeOutside_ds hstep.amount))
  · have hfreq := (lfoProc_step e.sr e.lfo s.nanDraws).freq_eq
    exact State.frame_of_complete ((exec_lfoNext_running hs rfl).symm.trans h)
      (Engine.agreeOutside_lfo (fun _ => hfreq) fun hm => absurd (List.mem_singleton.mpr rfl) hm)

end Sys2Proof.Machine
end

section
/-! Runs of one delay and of one downsampler: the delay relation of spec/40_circular_delay.md R103 and R104, and the latch
pattern of spec/43_downsampler.md R162. -/

namespace Sys2Proof.Machine

/-! ### Cursors on a ring -/

/-- The distance between two cursors stays as it is when both advance. -/
theorem ring_distance_advance {len w r : Nat} (hw : w < len) (hr : r < len) :
    ((w + 1) % len + len - (r + 1) % len) % len = (w + len - r) % len := by
  have hmod : ∀ i, i < len → (i + 1) % len = if i + 1 = len then 0 else i + 1 := fun i hi => by
    split_ifs with h
    · rw [h, Nat.mod_self]
    · exact Nat.mod_eq_of_lt (by omega)
  rw [hmod w hw, hmod r hr]
  split_ifs with h1 h2 h2
  · congr 1
    omega
  · rw [show w + len - r = 0 + len - (r + 1) + len by omega, Nat.add_mod_right]
  · rw [show w + 1 + len - 0 = w + len - r + len by omega, Nat.add_mod_right]
  · congr 1
    omega

/-- `n < len` places after `r` stands `w` exactly when `n` is the distance from `r` to `w`. -/
theorem ring_add_eq_iff {len w r n : Nat} (hw : w < len) (hr : r < len) (hn : n < len) :
    (r + n) % len = w ↔ n = (w + len - r) % len := by
  have hdist : (w + len - r) % len = if r ≤ w then w - r else w + len - r := by
    split_ifs with h
    · rw [show w + len - r = w - r + len by omega, Nat.add_mod_right, Nat.mod_eq_of_lt (by omega)]
    · exact Nat.mod_eq_of_lt (by omega)
  have hsum : (r + n) % len = if r + n < len then r + n else r + n - len := by
    split_ifs with h
    · exact Nat.mod_eq_of_lt h
    · rw [Nat.mod_eq_sub_mod (by omega), Nat.mod_eq_of_lt (by omega)]
  rw [hdist, hsum]
  split_ifs <;> omega

/-! ### The delay relation (R103) -/

theorem Delay.outputAfter_nil (len : Nat) (d : Delay) (x : Word) : d.outputAfter len [] x = (cdProc len d x).1 := rfl

theorem Delay.outputAfter_cons (len : Nat) (d : Delay) (y : Word) (ys : List Word) (x : Word) :
    d.outputAfter len (y :: ys) x = (cdProc len d y).2.outputAfter len ys x := rfl

/-- The word a delay answers after calls with `xs`: an input of `(w - r) mod L` calls before, or an earlier word. -/
theorem Delay.outputAfter_eq {len : Nat} {d : Delay} (xs : List Word) (x : Word) (h : d.ok len = true) :
    d.outputAfter len xs x =
      if (d.w + len - d.r) % len ≤ xs.length then (xs ++ [x]).getD (xs.length - (d.w + len - d.r) % len) 0x00000000#32
      else d.buf.read ((d.r + xs.length) % len) := by
  induction xs generalizing d with
  | nil =>
    obtain ⟨hw, hr, hwf, -⟩ := Delay.ok_iff.mp h
    have hmeet : d.r = d.w ↔ 0 = (d.w + len - d.r) % len := by
      rw [← ring_add_eq_iff hw hr (by omega), Nat.add_zero, Nat.mod_eq_of_lt hr]
    rw [Delay.outputAfter_nil, (cdProc_pushed len d x hwf).result]
    by_cases hrw : d.r = d.w
    · rw [if_pos hrw, ← hmeet.mp hrw, if_pos (Nat.zero_le _)]
      rfl
    · have hne : ¬ (d.w + len - d.r) % len ≤ 0 := fun hle => hrw (hmeet.mpr (by omega))
      rw [if_neg hrw, List.length_nil, if_neg hne, Nat.add_zero, Nat.mod_eq_of_lt hr]
  | cons y ys ih =>
    obtain ⟨hw, hr, hwf, -⟩ := Delay.ok_iff.mp h
    have hp := cdProc_pushed len d y hwf
    rw [Delay.outputAfter_cons, ih (cdProc_ok y h), hp.write, hp.read, ring_distance_advance hw hr, Nat.mod_add_mod,
      List.length_cons, List.cons_append, show d.r + 1 + ys.length = d.r + (ys.length + 1) by omega]
    generalize hD : (d.w + len - d.r) % len = D
    have hlt : D < len := hD ▸ Nat.mod_lt _ (by omega)
    rcases Nat.lt_trichotomy D (ys.length + 1) with hbefore | hnow | hlater
    · rw [if_pos (by omega), if_pos (by omega), show ys.length + 1 - D = ys.length - D + 1 by omega, List.getD_cons_succ]
    · have hat : (d.r + D) % len = d.w := (ring_add_eq_iff hw hr hlt).mpr hD.symm
      rw [if_neg (by omega), if_pos (by omega), ← hnow, hat, Nat.sub_self, List.getD_cons_zero, hp.stored]
    · have hnot : (d.r + (ys.length + 1)) % len ≠ d.w := fun heq => by
        have := (ring_add_eq_iff hw hr (by omega)).mp heq
        omega
      rw [if_neg (by omega), if_neg (by omega), hp.others _ hnot]

/-- Settles O16: the relation holds by induction over the calls, and a fresh buffer reads as the zero fill. -/
theorem delayReturnsInputDelayed : Obligations.DelayReturnsInputDelayed :=
  fun _ _ xs x hok => ⟨Delay.outputAfter_eq xs x hok, fun _ i => Memory.read_zeroFill i⟩

/-! ### The impulse (R104) -/

theorem Delay.outputAfter_of_distance_zero {len : Nat} {d : Delay} (xs : List Word) (x : Word) (hok : d.ok len = true)
    (h : (d.w + len - d.r) % len = 0) : d.outputAfter len xs x = x := by
  rw [Delay.outputAfter_eq xs x hok, h, if_pos (Nat.zero_le _), Nat.sub_zero]
  simp

/-- The first `n` words of the impulse and the next one are the impulse's first `n + 1` words. -/
theorem impulse_take_append (n : Nat) :
    (F32.one :: List.replicate n F32.posZero).take n ++ [if n = 0 then F32.one else F32.posZero]
      = F32.one :: List.replicate n F32.posZero := by
  cases n with
  | zero => rfl
  | succ n => simp [List.replicate_succ']

theorem impulse_getD (n i : Nat) :
    (F32.one :: List.replicate n F32.posZero).getD i 0x00000000#32 = if i = 0 then F32.one else F32.posZero := by
  cases i with
  | zero => rfl
  | succ i =>
    rw [List.getD_cons_succ, if_neg (by omega), List.getD_eq_getElem?_getD, List.getElem?_replicate]
    split_ifs <;> rfl

/-- Settles O17: a fresh delay's distance is its time, so the relation of R103 answers the impulse's word at `n - t`; and a
delay of time 0 has distance 0. -/
theorem impulseAppearsAtDelayTime : Obligations.ImpulseAppearsAtDelayTime := by
  refine ⟨fun len t n ht => ?_, fun len d xs x hok => ?_⟩
  · have hdist : ((freshDelay len t).w + len - (freshDelay len t).r) % len = t := by
      have := ring_distance_back (w := 0) (len := len) (by omega) ht
      simpa [freshDelay, Nat.mod_eq_of_lt ht] using this
    rw [Delay.outputAfter_eq _ _ (freshDelay_ok t (by omega)), hdist, impulse_take_append, impulse_getD]
    have hlen : ((F32.one :: List.replicate n F32.posZero).take n).length = n := by simp
    rw [hlen]
    by_cases htn : t ≤ n
    · rw [if_pos htn]
      exact if_congr (by omega) rfl rfl
    · rw [if_neg htn, if_neg (by omega)]
      rfl
  · have hw : d.w < len := (Delay.ok_iff.mp hok).1
    exact Delay.outputAfter_of_distance_zero xs x (Delay.place_ok 0 hok)
      ((Delay.place_effective_delay 0 hw).trans (Nat.zero_mod len))

/-! ### The latch pattern (R162) -/

theorem Downsampler.advance_cnt (d : Downsampler) (x : Word) : (d.advance x).cnt = (d.cnt + 2) % (d.amount + 1) := rfl

theorem Downsampler.advance_amount (d : Downsampler) (x : Word) : (d.advance x).amount = d.amount := rfl

theorem Downsampler.advance_held (d : Downsampler) (x : Word) :
    (d.advance x).held = if (d.cnt + 2) % (d.amount + 1) = 0 then x else d.held := rfl

theorem Downsampler.afterAll_concat (d : Downsampler) (xs : List Word) (x : Word) :
    d.afterAll (xs ++ [x]) = (d.afterAll xs).advance x := by
  induction xs generalizing d with
  | nil => rfl
  | cons y ys ih => exact ih (d.advance y)

/-- The amount stays, and the counter's residue is the start plus two for each call. -/
theorem Downsampler.afterAll_counter (d : Downsampler) (xs : List Word) :
    (d.afterAll xs).amount = d.amount
      ∧ (d.afterAll xs).cnt % (d.amount + 1) = (d.cnt + 2 * xs.length) % (d.amount + 1) := by
  induction xs generalizing d with
  | nil => exact ⟨rfl, rfl⟩
  | cons y ys ih =>
    obtain ⟨hamount, hcnt⟩ := ih (d.advance y)
    refine ⟨hamount, hcnt.trans ?_⟩
    rw [Downsampler.advance_amount, Downsampler.advance_cnt, Nat.mod_add_mod, List.length_cons]
    congr 1
    omega

/-- The counter that the last call of a run sees. -/
theorem Downsampler.afterAll_next_counter (d : Downsampler) (xs : List Word) :
    ((d.afterAll xs).cnt + 2) % ((d.afterAll xs).amount + 1) = (d.cnt + 2 * (xs.length + 1)) % (d.amount + 1) := by
  obtain ⟨hamount, hcnt⟩ := d.afterAll_counter xs
  rw [hamount, Nat.add_mod, hcnt, ← Nat.add_mod, Nat.mul_add, ← Nat.add_assoc]

/-- An odd counter stays odd under an even modulus, so it is never 0 and nothing latches. -/
theorem Downsampler.afterAll_held_of_odd {d : Downsampler} (xs : List Word) (hm : (d.amount + 1) % 2 = 0)
    (hc : d.cnt % 2 = 1) : (d.afterAll xs).held = d.held := by
  induction xs generalizing d with
  | nil => rfl
  | cons y ys ih =>
    have hodd : (d.cnt + 2) % (d.amount + 1) % 2 = 1 := by
      rw [Nat.mod_mod_of_dvd _ (Nat.dvd_of_mod_eq_zero hm)]
      omega
    exact (ih (d := d.advance y) hm hodd).trans (by rw [Downsampler.advance_held, if_neg (by omega)])

/-- Settles O23: the last call of a run sees the counter of `afterAll_next_counter`, and an odd counter never latches. -/
theorem latchPatternFollowsModulus : Obligations.LatchPatternFollowsModulus := by
  refine ⟨fun d xs x => ?_, fun d xs hm hc => Downsampler.afterAll_held_of_odd xs hm hc⟩
  rw [Downsampler.afterAll_concat, Downsampler.advance_cnt, Downsampler.advance_held, Downsampler.afterAll_next_counter]
  exact ⟨rfl, rfl⟩

end Sys2Proof.Machine
end

section
/-! ENG_FRAME (spec/46_engine.md): what every run of it writes and answers, whatever the state of the units. -/

namespace Sys2Proof.Machine

open F32 (Always)

/-! ### The units (R222 to R224) -/

@[simp] theorem Units.broadcast_dfd (u : Units) (g a : Word) (n : Nat) (ratio : Word) (k : Fin 4) :
    (u.broadcast g a n ratio).dfd k = (u.dfd k).configure g a n ratio := by
  fin_cases k <;> rfl

@[simp] theorem Units.broadcast_ap_pair (u : Units) (g a : Word) (n : Nat) (ratio : Word) (k : Fin 3) :
    ((u.broadcast g a n ratio).ap k).pair = (u.ap k).pair := by
  fin_cases k <;> rfl

/-- Every delay of the channel is pushed once, and the settings of its units stay. -/
structure Units.PushedOnce (len : Nat) (u u' : Units) : Prop where
  ap  : ∀ k, Allpass.PushedOnce len (u.ap k) (u'.ap k)
  dfd : ∀ k, Degraded.PushedOnce len (u.dfd k) (u'.dfd k)

theorem Units.bank_pushes (len : Nat) (u : Units) (b : Word) :
    Always (u.bank len b) fun r =>
      (∀ k, Degraded.PushedOnce len (u.dfd k) (r.2.dfd k)) ∧ ∀ k, r.2.ap k = u.ap k :=
  .bind (dfdProc_pushes len u.dfd0 b) fun _ h0 => .bind (dfdProc_pushes len u.dfd1 b) fun _ h1 =>
    .bind (dfdProc_pushes len u.dfd2 b) fun _ h2 => .bind (dfdProc_pushes len u.dfd3 b) fun _ h3 =>
    .bind (F32.add_sum _ _) fun _ _ => .bind (F32.add_sum _ _) fun _ _ => .bind (F32.add_sum _ _) fun _ _ =>
    .bind (F32.mul_prod _ _) fun _ _ => .pure
      ⟨fun k => by fin_cases k <;> assumption, fun k => by fin_cases k <;> rfl⟩

theorem Units.cascade_pushes (len : Nat) (u : Units) (w : Word) :
    Always (u.cascade len w) fun r =>
      (∀ k, Allpass.PushedOnce len (u.ap k) (r.2.ap k)) ∧ ∀ k, r.2.dfd k = u.dfd k :=
  .bind (apProc_pushes len u.ap0 w) fun _ h0 => .bind (apProc_pushes len u.ap1 _) fun _ h1 =>
    .bind (apProc_pushes len u.ap2 _) fun _ h2 => .pure
      ⟨fun k => by fin_cases k <;> assumption, fun k => by fin_cases k <;> rfl⟩

/-! ### The outputs (R226, R230) -/

theorem F32.le_of_not_lt {x y : Word} (hx : F32.isNaN x = false) (hy : F32.isNaN y = false) (h : F32.lt y x = false) :
    F32.le x y = true := by
  refine F32.le_eq_true_iff.mpr ⟨hx, hy, not_lt.mp fun hlt => ?_⟩
  exact absurd (F32.lt_eq_true_iff.mpr ⟨hy, hx, hlt⟩) (by simp [h])

/-- A threshold R221 gives: it and its negation are numbers, in order. -/
structure IsThreshold (th : Word) : Prop where
  num     : F32.isNaN th = false
  numNeg  : F32.isNaN (F32.neg th) = false
  ordered : F32.le (F32.neg th) th = true

theorem isThreshold_quarter : IsThreshold F32.quarter := ⟨by decide, by decide, by decide⟩

theorem isThreshold_one : IsThreshold F32.one := ⟨by decide, by decide, by decide⟩

theorem F32.le_refl {x : Word} (hx : F32.isNaN x = false) : F32.le x x = true :=
  F32.le_eq_true_iff.mpr ⟨hx, hx, le_rfl⟩

/-- A clamped value is a NaN or in the range, by the branches of the clamp. -/
theorem clamp_bounded {th : Word} (v : Word) (hth : IsThreshold th) : F32.NaNOrWithin th (clamp v th) := by
  by_cases hbelow : F32.lt v (F32.neg th) = true
  · rw [clamp_of_below hbelow]
    exact .inr ⟨F32.le_refl hth.numNeg, hth.ordered⟩
  by_cases habove : F32.lt th v = true
  · rw [clamp_of_above hth.ordered habove]
    exact .inr ⟨hth.ordered, F32.le_refl hth.num⟩
  rw [Bool.not_eq_true] at hbelow habove
  rw [clamp_of_not_lt hbelow habove]
  cases hv : F32.isNaN v with
  | true => exact .inl hv
  | false => exact .inr ⟨F32.le_of_not_lt hth.numNeg hv hbelow, F32.le_of_not_lt hv hth.num habove⟩

theorem mix_bounded {th : Word} (g c3 dry : Word) (hth : IsThreshold th) :
    Always (mix g c3 dry th) (F32.NaNOrWithin th) :=
  .bind (F32.mul_prod _ _) fun _ _ => .bind (F32.add_sum _ _) fun v _ => .pure (clamp_bounded v hth)

/-- Steps 2 to 5 of one channel: broadcast, one push of every delay, and an output within the threshold. -/
theorem Units.frame_pushes {len : Nat} {u : Units} {k : Coeffs} (b dry : Word) (hth : IsThreshold k.th) :
    Always (u.frame len k b dry) fun r =>
      Units.PushedOnce len (u.broadcast k.g k.a k.amount k.ratio) r.2 ∧ F32.NaNOrWithin k.th r.1 := by
  refine .bind (Units.bank_pushes len _ b) fun r1 h1 => .bind (Units.cascade_pushes len _ _) fun r2 h2 =>
    .bind (mix_bounded _ _ _ hth) fun out ho => .pure ⟨⟨fun j => ?_, fun j => ?_⟩, ho⟩
  · exact h1.2 j ▸ h2.1 j
  · exact h2.2 j ▸ h1.1 j

/-- The threshold that R221 resolves. -/
theorem ModeStep.th_eq {sr g gs g' th : Word} {l l' : Lfo} (h : ModeStep sr l g gs g' th l') :
    th = if F32.lt F32.wackyAbove gs = true then F32.quarter else F32.one := by
  unfold ModeStep at h
  split_ifs at h ⊢ with hw hf
  · exact h.1
  · exact h.2.1
  · exact h.2.1

theorem ModeStep.isThreshold {sr g gs g' th : Word} {l l' : Lfo} (h : ModeStep sr l g gs g' th l') : IsThreshold th := by
  rw [h.th_eq]
  split_ifs
  · exact isThreshold_quarter
  · exact isThreshold_one

/-- What a frame leaves and answers (R221 to R226), whatever the state of the units. -/
structure FrameWrites (e : Engine) (amount : Nat) (g damping speed selector : Word) (k : Coeffs) (outs : Word × Word)
    (e' : Engine) : Prop where
  mode     : ModeStep e.sr e.lfo g selector k.g k.th e'.lfo
  damping  : F32.Diff F32.one damping k.a
  amount   : k.amount = amount
  ratio    : k.ratio = speed
  units    : ∀ c, Units.PushedOnce e.len ((e.units c).broadcast k.g k.a k.amount k.ratio) (e'.units c)
  sr       : e'.sr = e.sr
  len      : e'.len = e.len
  outLeft  : F32.NaNOrWithin k.th outs.1
  outRight : F32.NaNOrWithin k.th outs.2

theorem engineFrame_writes (e : Engine) (amount : Nat) (leftIn rightIn g damping speed selector : Word) :
    Always (engineFrame e amount leftIn rightIn g damping speed selector) fun r =>
      ∃ k, FrameWrites e amount g damping speed selector k r.1 r.2 :=
  .bind (resolveMode_step _ _ _ _) fun m hm => .bind (F32.sub_diff _ _) fun a hda =>
    .bind (Units.frame_pushes (k := ⟨m.1, m.2.1, a, amount, speed⟩) leftIn leftIn hm.isThreshold) fun _ hl =>
    .bind (Units.frame_pushes (k := ⟨m.1, m.2.1, a, amount, speed⟩) leftIn rightIn hm.isThreshold) fun _ hr =>
    .pure ⟨⟨m.1, m.2.1, a, amount, speed⟩, hm, hda, rfl, rfl, fun c => by cases c; exacts [hl.1, hr.1], rfl, rfl, hl.2, hr.2⟩

/-! ### The command (R228) -/

theorem exec_engFrame_running {s : State} {e : Engine} {amount : Nat} {di : Word} (l r g da sp se : Word)
    (hs : s.Running e) (ha : amountOf di = some amount) {R : ((Word × Word) × Engine) × Nat}
    (hrun : (engineFrame e amount l r g da sp se).run s.nanDraws = R) :
    exec (.engFrame l r g da di sp se) s
      = requireRange e.inRange (.next (s.complete R.1.2 R.2 [R.1.1.1, R.1.1.2])) := by
  refine (whenRunning_running _ hs).trans ?_
  simp only [ha, hrun]

/-- A frame that answers OK ran on a running block with an accepted intensity, and is one run of `engineFrame`. -/
theorem engFrame_completed {s t : State} {l r g da di sp se : Word} {rs : List Word}
    (h : exec (.engFrame l r g da di sp se) s = .next t) (hok : t.response = some ⟨.ok, rs⟩) :
    ∃ e amount k outs e' n, s.Running e ∧ amountOf di = some amount ∧ FrameWrites e amount g da sp se k outs e'
      ∧ t = s.complete e' n [outs.1, outs.2] := by
  have hcode : ∀ c, s.fail c = t → c = .ok := by
    rintro c rfl
    exact congrArg Response.code (Option.some.inj hok)
  rcases whenRunning_next h with ⟨-, rfl⟩ | ⟨-, -, ht⟩ | ⟨e, hs, -⟩
  · have hfaulted : Code.faulted = .ok := congrArg Response.code (Option.some.inj hok)
    cases hfaulted
  · cases hcode _ ht.symm
  · cases ha : amountOf di with
    | none => cases hcode _ (Host.Outcome.next.inj ((exec_engFrame_amount l r g da sp se hs ha).symm.trans h))
    | some amount =>
      obtain ⟨k, hk⟩ := engineFrame_writes e amount l r g da sp se s.nanDraws
      obtain ⟨-, ht⟩ := requireRange_next.mp ((exec_engFrame_running l r g da sp se hs ha rfl).symm.trans h)
      exact ⟨e, amount, k, _, _, _, hs, rfl, hk, (Host.Outcome.next.inj ht).symm⟩

/-- Settles O33: the range check passes on a sound block, and `engineFrame_step` says what every run of the frame does. -/
theorem frameRunsTheWholeNetwork : Obligations.FrameRunsTheWholeNetwork := by
  intro s e l r g da di sp se amount hs hok ha
  obtain ⟨-, -, -, hu⟩ := Engine.ok_iff.mp hok
  obtain ⟨hstep, -⟩ := engineFrame_step l r g da sp se (hu .left) (hu .right) (amountOf_lt ha) s.nanDraws
  exact ⟨_, _, _, _, (exec_engFrame_running l r g da sp se hs ha rfl).trans
    (requireRange_of_eq_true _ (Engine.inRange_of_ok hok)), hstep⟩

/-- Settles O35: both outputs are clamped to the threshold the mode resolves. -/
theorem frameOutputsAreBounded : Obligations.FrameOutputsAreBounded := by
  intro s t l r g da di sp se rs h hok
  obtain ⟨e, amount, k, outs, e', n, -, -, hk, rfl⟩ := engFrame_completed h hok
  obtain rfl : [outs.1, outs.2] = rs := congrArg Response.results (Option.some.inj hok)
  refine ⟨rfl, fun y hy => ?_⟩
  rw [← hk.mode.th_eq]
  rcases List.mem_pair.mp hy with rfl | rfl
  · exact hk.outLeft
  · exact hk.outRight

/-- Settles O34: the units are broadcast to first, and the rest of the frame keeps every setting. -/
theorem frameBroadcastsCoefficients : Obligations.FrameBroadcastsCoefficients := by
  intro s t e e' l r g da di sp se rs he h hok he'
  obtain ⟨e₀, amount, k, outs, e₁, n, hs, ha, hk, rfl⟩ := engFrame_completed h hok
  obtain rfl := Option.some.inj (hs.engine.symm.trans he)
  obtain rfl := Option.some.inj he'
  have hmode := hk.mode
  refine ⟨k.g, k.a, amount, hk.damping, ha, fun hw => ?_, fun hw => ?_, fun c => ?_⟩
  · rw [ModeStep, if_pos hw] at hmode
    exact hmode.2
  · rw [ModeStep, if_neg (by simp [hw])] at hmode
    split_ifs at hmode ⊢ with hf
    · exact hmode.1
    · exact hmode.1
  · obtain ⟨hap, hdfd⟩ := hk.units c
    refine ⟨(hap 0).g, (hap 1).g, (hap 2).g, fun j => ?_⟩
    obtain ⟨hfb, hda, hratio, hamount, -⟩ := hdfd j
    rw [Units.broadcast_dfd] at hfb hda hratio hamount
    exact ⟨hfb, hda, hamount.trans hk.amount, hratio.trans hk.ratio⟩

theorem cdProc_read_other (len : Nat) (d : Delay) (x : Word) {i : Nat} (hi : i ≠ d.w) :
    (cdProc len d x).2.buf.read i = d.buf.read i :=
  Memory.read_write_other x hi

/-- A frame pushes each delay once, so it writes at the write cursor only. -/
theorem FrameWrites.wordAt_other {e e' : Engine} {amount : Nat} {g da sp se : Word} {k : Coeffs} {outs : Word × Word}
    (h : FrameWrites e amount g da sp se k outs e') {d : Slot} {i : Nat} (hi : i ≠ (e.delay d).w) :
    e'.wordAt d i = e.wordAt d i := by
  cases d with
  | ap c j sel =>
    obtain ⟨v, hv⟩ := ((h.units c).ap j).delays sel
    rw [Units.broadcast_ap_pair] at hv
    exact (congrArg (fun d => d.buf.read i) hv).trans (cdProc_read_other _ _ v hi)
  | dfd c j sel =>
    obtain ⟨v, hv⟩ := ((h.units c).dfd j).delays sel
    have hconf : (((e.units c).broadcast k.g k.a k.amount k.ratio).dfd j).delay sel = e.delay (.dfd c j sel) := by
      rw [Units.broadcast_dfd]
      cases sel <;> rfl
    rw [hconf] at hv
    exact (congrArg (fun d => d.buf.read i) hv).trans (cdProc_read_other _ _ v hi)

/-- The Lfo's frequency stays in every mode, and its phase unless the mode is wacky (R221). -/
theorem ModeStep.lfo_frame {sr g gs g' th : Word} {l l' : Lfo} (h : ModeStep sr l g gs g' th l') :
    l'.freq = l.freq ∧ (F32.lt F32.wackyAbove gs = false → l'.phase = l.phase) := by
  unfold ModeStep at h
  split_ifs at h with hw hf
  · obtain ⟨-, osc, depth, hstep, -⟩ := h
    exact ⟨hstep.freq_eq, fun hn => absurd hw (by simp [hn])⟩
  · obtain ⟨-, -, rfl⟩ := h
    exact ⟨rfl, fun _ => rfl⟩
  · obtain ⟨-, -, rfl⟩ := h
    exact ⟨rfl, fun _ => rfl⟩

/-- Settles O41: what a run of the frame writes is `FrameWrites`, and the completion keeps the rest of the state. -/
theorem engFrameFrame : Obligations.EngFrameFrame := by
  intro s t e l r g da di sp se rs he h hok
  obtain ⟨e₀, amount, k, outs, e', n, hs, -, hk, rfl⟩ := engFrame_completed h hok
  obtain rfl := Option.some.inj (hs.engine.symm.trans he)
  obtain ⟨hfreq, hphase⟩ := hk.mode.lfo_frame
  exact ⟨rfl, rfl, rfl, e', rfl, hk.sr, hk.len, hfreq, hphase, fun d i hi => hk.wordAt_other hi⟩

/-! ### The right input (R227) -/

/-- From the same count of draws, the results of `m` and `m'` have the same `f`. -/
def F32.Same {α β : Type} (f : α → β) (m m' : F32.Drawn α) : Prop := ∀ n, f (m.run n).1 = f (m'.run n).1

theorem F32.Same.bind {α β γ : Type} {f : β → γ} {m : F32.Drawn α} {k k' : α → F32.Drawn β}
    (h : ∀ a, F32.Same f (k a) (k' a)) : F32.Same f (m >>= k) (m >>= k') :=
  fun _ => h _ _

/-- What the continuations do with equal parts of two results, they do alike. -/
theorem F32.Same.bind_of_same {α β γ δ : Type} {p : α → δ} {f : β → γ} {m m' : F32.Drawn α} {k k' : α → F32.Drawn β}
    (h : F32.Same p m m') (hk : ∀ a a' n n', p a = p a' → f ((k a).run n).1 = f ((k' a').run n').1) :
    F32.Same f (m >>= k) (m' >>= k') :=
  fun n => hk _ _ _ _ (h n)

/-- The dry input of a channel reaches its output only. -/
theorem Units.frame_dry (len : Nat) (u : Units) (k : Coeffs) (b dry dry' : Word) :
    F32.Same Prod.snd (u.frame len k b dry) (u.frame len k b dry') :=
  .bind fun _ => .bind fun r => fun _ => Eq.trans (b := r.2) rfl rfl

/-- The right input of a frame reaches neither the engine nor the left output. -/
theorem engineFrame_rightIn (e : Engine) (amount : Nat) (leftIn r r' g damping speed selector : Word) :
    F32.Same (fun x => (x.2, x.1.1)) (engineFrame e amount leftIn r g damping speed selector)
      (engineFrame e amount leftIn r' g damping speed selector) := by
  refine .bind fun m => .bind fun a => .bind fun l => .bind_of_same (Units.frame_dry _ _ _ _ r r') ?_
  rintro ⟨_, u⟩ ⟨_, u'⟩ n n' (rfl : u = u')
  rfl

/-- The two next states have one engine and one STATUS, and their responses one code and one first word. -/
def State.SameButRight (t t' : State) : Prop :=
  t.engine = t'.engine ∧ t.status = t'.status
    ∧ ∃ resp resp', t.response = some resp ∧ t'.response = some resp' ∧ resp.code = resp'.code
      ∧ resp.results.head? = resp'.results.head?

theorem State.SameButRight.refl {t : State} {resp : Response} (h : t.response = some resp) : t.SameButRight t :=
  ⟨rfl, rfl, resp, resp, h, h, rfl, rfl⟩

theorem State.SameButRight.complete (s : State) {e e' : Engine} {outs outs' : Word × Word} (n n' : Nat) (he : e = e')
    (hleft : outs.1 = outs'.1) :
    (s.complete e n [outs.1, outs.2]).SameButRight (s.complete e' n' [outs'.1, outs'.2]) :=
  ⟨congrArg some he, rfl, _, _, rfl, rfl, rfl, congrArg some hleft⟩

/-- Settles O37: the checks of a frame do not read the right input, and neither does what leads to the engine and the left
output. -/
theorem rightInputReachesRightOutputOnly : Obligations.RightInputReachesRightOutputOnly := by
  intro s t t' l r r' g da di sp se h h'
  rcases whenRunning_next h with ⟨herr, rfl⟩ | ⟨herr, hinit, rfl⟩ | ⟨e, hs, -⟩
  · obtain rfl := Host.Outcome.next.inj (h'.symm.trans (whenRunning_faulted _ herr))
    exact State.SameButRight.refl rfl
  · obtain rfl := Host.Outcome.next.inj (h'.symm.trans (whenRunning_notInit _ herr hinit))
    exact State.SameButRight.refl rfl
  · cases ha : amountOf di with
    | none =>
      obtain rfl := Host.Outcome.next.inj (h.symm.trans (exec_engFrame_amount l r g da sp se hs ha))
      obtain rfl := Host.Outcome.next.inj (h'.symm.trans (exec_engFrame_amount l r' g da sp se hs ha))
      exact State.SameButRight.refl rfl
    | some amount =>
      obtain ⟨-, ht⟩ := requireRange_next.mp ((exec_engFrame_running l r g da sp se hs ha rfl).symm.trans h)
      obtain ⟨-, ht'⟩ := requireRange_next.mp ((exec_engFrame_running l r' g da sp se hs ha rfl).symm.trans h')
      have hsame := Prod.mk.inj (engineFrame_rightIn e amount l r r' g da sp se s.nanDraws)
      rw [← Host.Outcome.next.inj ht, ← Host.Outcome.next.inj ht']
      exact State.SameButRight.complete s _ _ hsame.1 hsame.2

end Sys2Proof.Machine
end

section
/-! Binary32 arithmetic and comparisons (spec/00_scope.md R12 to R14; spec/60_exceptions.md R280): `roundBits` is the
nearest magnitude, ties to even, and every operation is one rounding of the exact value or one of the special cases. -/

namespace Sys2Proof.Machine.F32

/-! ### Rounding to the nearest magnitude -/

theorem unitsOfBits_zero : unitsOfBits 0 = 0 := rfl

theorem unitsOfBits_eq_zero_iff {m : Nat} : unitsOfBits m = 0 ↔ m = 0 :=
  unitsOfBits_strictMono.injective.eq_iff' unitsOfBits_zero

/-- Another integer is at least as far from `a / b` as `roundDiv a b`, and as far only when that is even. -/
theorem roundDiv_nearest (a : Nat) {b n : Nat} (hb : 0 < b) (hn : n ≠ roundDiv a b) :
    ((roundDiv a b * b : Int) - a).natAbs ≤ ((n * b : Int) - a).natAbs
      ∧ (((n * b : Int) - a).natAbs = ((roundDiv a b * b : Int) - a).natAbs → roundDiv a b % 2 = 0) := by
  obtain ⟨hlo, hhi⟩ := roundDiv_near a hb
  have heven := roundDiv_tie a hb
  generalize roundDiv a b = r at *
  have hstep : n * b + b ≤ r * b ∨ r * b + b ≤ n * b := by
    rcases Nat.lt_or_gt_of_ne hn with hlt | hgt
    · exact .inl (by rw [← Nat.succ_mul]; exact Nat.mul_le_mul_right b hlt)
    · exact .inr (by rw [← Nat.succ_mul]; exact Nat.mul_le_mul_right b hgt)
  generalize hr : r * b = rb at *
  generalize hm : n * b = nb at *
  rw [show (r * b : Int) = (rb : Int) by rw [← hr]; push_cast; rfl,
    show (n * b : Int) = (nb : Int) by rw [← hm]; push_cast; rfl]
  constructor
  · omega
  · intro heq
    exact heven (by omega)

/-- With `k` the last kept place of `a / b`, every magnitude is a multiple of `2^k` or lies below the binade of `a / b`. -/
theorem unitsOfBits_multiple_or_below (k m : Nat) :
    (∃ n, unitsOfBits m = n * 2 ^ k) ∨ (0 < k ∧ unitsOfBits m < 2 ^ 23 * 2 ^ k) := by
  obtain ⟨k', r', rfl, hk', hr'⟩ := exists_build m
  rw [unitsOfBits_build hk' hr'.le]
  rcases Nat.lt_or_ge k' k with hlt | hge
  · refine .inr ⟨by omega, ?_⟩
    calc r' * 2 ^ k' < 2 ^ 24 * 2 ^ k' := Nat.mul_lt_mul_of_pos_right hr' (Nat.two_pow_pos k')
      _ = 2 ^ 23 * 2 ^ (k' + 1) := by ring
      _ ≤ 2 ^ 23 * 2 ^ k := Nat.mul_le_mul_left _ (Nat.pow_le_pow_right (by norm_num) hlt)
  · refine .inl ⟨r' * 2 ^ (k' - k), ?_⟩
    rw [Nat.mul_assoc, ← pow_add, Nat.sub_add_cancel hge]

/-- The binade of `a / b` starts at `2^23 * 2^k` when `k` is positive. -/
theorem binade_le {a b : Nat} (hb : 0 < b) (hk : 0 < (a / b).log2 - 23) :
    2 ^ 23 * 2 ^ ((a / b).log2 - 23) * b ≤ a := by
  have hne : a / b ≠ 0 := fun h => by simp [h] at hk
  have hlog : 2 ^ 23 * 2 ^ ((a / b).log2 - 23) ≤ a / b := by
    rw [← pow_add, Nat.add_sub_cancel' (by omega)]
    exact Nat.log2_self_le hne
  exact (Nat.le_div_iff_mul_le hb).mp hlog

/-- The unbounded rounding of `a / b`: no magnitude is nearer, and one as near makes the significand even. -/
theorem significand_nearest (a : Nat) {b : Nat} (hb : 0 < b) (m' : Nat) :
    let k := (a / b).log2 - 23
    let r := roundDiv a (b * 2 ^ k)
    unitsOfBits m' ≠ r * 2 ^ k →
      ((r * 2 ^ k * b : Int) - a).natAbs ≤ distance a b m'
        ∧ (distance a b m' = ((r * 2 ^ k * b : Int) - a).natAbs → r % 2 = 0) := by
  intro k r hne
  have hB : 0 < b * 2 ^ k := Nat.mul_pos hb (Nat.two_pow_pos k)
  have hr : (r * 2 ^ k * b : Int) = (r * (b * 2 ^ k : Nat) : Int) := by push_cast; ring
  rcases unitsOfBits_multiple_or_below k m' with ⟨n, hn⟩ | ⟨hk, hbelow⟩
  · have hu : (unitsOfBits m' * b : Int) = (n * (b * 2 ^ k : Nat) : Int) := by rw [hn]; push_cast; ring
    rw [distance, hr, hu]
    exact roundDiv_nearest a hB fun h => hne (by rw [hn, h])
  · -- `2^23` is a nearer significand than any value below the binade
    have hstart : 2 ^ 23 * 2 ^ k * b ≤ a := binade_le hb hk
    have hlt : unitsOfBits m' * b < 2 ^ 23 * 2 ^ k * b := Nat.mul_lt_mul_of_pos_right hbelow hb
    have hnear : ((r * 2 ^ k * b : Int) - a).natAbs ≤ (((2 ^ 23 * 2 ^ k * b : Nat) : Int) - a).natAbs := by
      rcases eq_or_ne (2 ^ 23) r with heq | hne'
      · rw [← heq]; push_cast; rfl
      · have := (roundDiv_nearest a hB hne').1
        rw [hr]
        refine this.trans (le_of_eq ?_)
        congr 2
        push_cast
        ring
    rw [distance, show (unitsOfBits m' * b : Int) = ((unitsOfBits m' * b : Nat) : Int) by push_cast; rfl]
    generalize unitsOfBits m' * b = u at *
    generalize 2 ^ 23 * 2 ^ k * b = v at *
    constructor
    · omega
    · intro heq
      omega

/-- From half a unit in the last place above the largest finite value on, and only then, the rounding is infinity. -/
theorem roundBits_eq_inf_iff {a b : Nat} (hb : 0 < b) :
    roundBits a b = 0x7F800000 ↔ ((2 ^ 24 - 1) * 2 ^ 253 + 2 ^ 252) * b ≤ a := by
  constructor
  · intro h
    by_contra hlt
    obtain ⟨-, hr, he⟩ := roundBits_parts a b
    generalize hk : (a / b).log2 - 23 = k at *
    have hk253 : k ≤ 253 := by
      have hq : a / b < 2 ^ 277 := Nat.div_lt_of_lt_mul (by rw [Nat.mul_comm]; omega)
      by_cases h0 : a / b = 0
      · rw [← hk, h0]; simp
      · have := (Nat.log2_lt h0).mpr hq
        omega
    rcases Nat.lt_or_ge k 253 with hsmall | hbig
    · omega
    · obtain rfl : k = 253 := le_antisymm hk253 hbig
      have hnear := (roundDiv_near a (b := b * 2 ^ 253) (Nat.mul_pos hb (Nat.two_pow_pos _))).2
      have hsig : roundDiv a (b * 2 ^ 253) < 2 ^ 24 := by
        by_contra hge
        have := Nat.mul_le_mul_right (b * 2 ^ 253) (not_lt.mp hge)
        omega
      omega
  · intro h
    refine le_antisymm (roundBits_le a b) ?_
    have hmid : roundBits ((2 ^ 24 - 1) * 2 ^ 253 + 2 ^ 252) 1 = 0x7F800000 := by decide
    rw [← hmid]
    exact roundBits_mono (by norm_num) hb (by omega)

/-- `roundBits` rounds to the nearest magnitude, ties to even (R12). -/
theorem roundsTo_roundBits (a : Nat) {b : Nat} (hb : 0 < b) : RoundsTo a b (roundBits a b) := by
  obtain ⟨hk, hr, he⟩ := roundBits_parts a b
  have hnear := fun m' => significand_nearest a hb m'
  simp only at hnear
  generalize (a / b).log2 - 23 = k at *
  generalize roundDiv a (b * 2 ^ k) = r at *
  have hu := unitsOfBits_build hk hr
  have hfinite : roundBits a b < 0x7F800000 → roundBits a b = k * 2 ^ 23 + r := by omega
  have hdist : distance a b (k * 2 ^ 23 + r) = ((r * 2 ^ k * b : Int) - a).natAbs := by
    rw [distance, hu]; push_cast; rfl
  refine ⟨roundBits_le a b, fun hm m' _ => ?_, fun hm m' _ hne heq => ?_, roundBits_eq_inf_iff hb⟩
  · rw [hfinite hm, hdist]
    by_cases hsame : unitsOfBits m' = r * 2 ^ k
    · rw [distance, hsame]; push_cast; exact le_rfl
    · exact (hnear m' hsame).1
  · rw [hfinite hm] at hne heq ⊢
    have hne' : unitsOfBits m' ≠ r * 2 ^ k := fun h => hne (unitsOfBits_strictMono.injective (h.trans hu.symm))
    have := (hnear m' hne').2 (heq.trans hdist)
    omega

end Sys2Proof.Machine.F32
end

section
/-! The operations of binary32 on every kind of word (spec/00_scope.md R12 to R14; spec/60_exceptions.md R280). -/

namespace Sys2Proof.Machine.F32

/-! ### Kinds of words -/

theorem isFinite_iff {v : Word} : isFinite v = true ↔ isNaN v = false ∧ isInf v = false := by
  simp only [isFinite, isNaN, isInf, decide_eq_true_eq, decide_eq_false_iff_not]
  omega

theorem isInf_of {v : Word} (h : isInf v = true) : isNaN v = false ∧ isFinite v = false ∧ isZero v = false := by
  simp only [isFinite, isNaN, isInf, isZero, decide_eq_true_eq, decide_eq_false_iff_not] at *
  omega

theorem isZero_of {v : Word} (h : isZero v = true) : isNaN v = false ∧ isInf v = false := by
  simp only [isNaN, isInf, isZero, decide_eq_true_eq, decide_eq_false_iff_not] at *
  omega

@[simp] theorem isNaN_neg (v : Word) : isNaN (neg v) = isNaN v := by simp [isNaN]
@[simp] theorem isInf_neg (v : Word) : isInf (neg v) = isInf v := by simp [isInf]
@[simp] theorem isFinite_neg (v : Word) : isFinite (neg v) = isFinite v := by simp [isFinite]
@[simp] theorem units_neg (v : Word) : units (neg v) = units v := by simp [units]

theorem signedUnits_neg (v : Word) : signedUnits (neg v) = -signedUnits v := by
  simp only [signedUnits, isNeg_neg, units_neg]
  cases isNeg v <;> simp

theorem units_eq_zero_iff {v : Word} : units v = 0 ↔ isZero v = true := by
  rw [units, unitsOfBits_eq_zero_iff, isZero, decide_eq_true_eq]

/-- A word is determined by its sign and its magnitude. -/
theorem eq_of_isNeg_of_magBits {v w : Word} (hs : isNeg v = isNeg w) (hm : magBits v = magBits w) : v = w := by
  rw [← pack_isNeg_magBits v, ← pack_isNeg_magBits w, hs, hm]

theorem eq_negZero_iff {v : Word} : v = negZero ↔ isNeg v = true ∧ isZero v = true := by
  refine ⟨by rintro rfl; decide, fun ⟨hs, hz⟩ => eq_of_isNeg_of_magBits (hs.trans (by decide)) ?_⟩
  exact (of_decide_eq_true hz).trans (by decide)

theorem eq_posZero_iff {v : Word} : v = posZero ↔ isNeg v = false ∧ isZero v = true := by
  refine ⟨by rintro rfl; decide, fun ⟨hs, hz⟩ => eq_of_isNeg_of_magBits (hs.trans (by decide)) ?_⟩
  exact (of_decide_eq_true hz).trans (by decide)

theorem neg_eq_negZero_iff {v : Word} : neg v = negZero ↔ v = posZero := by
  simp [eq_negZero_iff, eq_posZero_iff, isZero]

/-- An infinity is the one of its sign. -/
theorem eq_pack_of_isInf {v : Word} (h : isInf v = true) : v = pack (isNeg v) 0x7F800000 := by
  rw [← of_decide_eq_true h, pack_isNeg_magBits]

/-! ### Comparisons (R13) -/

/-- The keys of the comparisons order words as their values do. -/
theorem orderKey_lt_iff {x y : Word} : orderKey x < orderKey y ↔ signedUnits x < signedUnits y := by
  have hlt : ∀ v w, units v < units w ↔ magBits v < magBits w := fun v w => unitsOfBits_strictMono.lt_iff_lt
  have hzero : ∀ v, units v = 0 ↔ magBits v = 0 := fun v => unitsOfBits_eq_zero_iff
  have hxy := hlt x y
  have hyx := hlt y x
  have hx := hzero x
  have hy := hzero y
  unfold orderKey signedUnits
  split_ifs <;> omega

theorem lt_iff_signedUnits {x y : Word} (hx : isNaN x = false) (hy : isNaN y = false) :
    lt x y = true ↔ signedUnits x < signedUnits y := by
  rw [lt_eq_true_iff, orderKey_lt_iff]
  simp [hx, hy]

theorem le_iff_signedUnits {x y : Word} (hx : isNaN x = false) (hy : isNaN y = false) :
    le x y = true ↔ signedUnits x ≤ signedUnits y := by
  rw [le_eq_true_iff, ← not_lt, orderKey_lt_iff, not_lt]
  simp [hx, hy]

/-- Settles O49: both comparisons test their operands for NaN, and the keys order words as their values do. -/
theorem comparisonsFollowValues : Obligations.ComparisonsFollowValues := by
  refine fun x y => ⟨fun hnan => ?_, fun hx hy => ⟨lt_iff_signedUnits hx hy, le_iff_signedUnits hx hy⟩⟩
  rcases hnan with h | h
  · simp [lt, le, h]
  · simp [lt, le, h]

/-! ### Finite operands (R12) -/

/-- The exact sum is rounded once, and a sum that is zero has the sign R12 gives it. -/
theorem addNum_finite {x y : Word} (hx : isFinite x = true) (hy : isFinite y = true) :
    addNum x y = some (if signedUnits x + signedUnits y = 0 then (if isNeg x && isNeg y then negZero else posZero)
      else pack (decide (signedUnits x + signedUnits y < 0)) (roundBits (signedUnits x + signedUnits y).natAbs 1)) := by
  obtain ⟨hxn, hxi⟩ := isFinite_iff.mp hx
  obtain ⟨hyn, hyi⟩ := isFinite_iff.mp hy
  simp only [addNum, hxn, hyn, hxi, hyi, Bool.or_self, Bool.false_eq_true, if_false]
  split_ifs <;> rfl

theorem mulNum_finite {x y : Word} (hx : isFinite x = true) (hy : isFinite y = true) :
    mulNum x y = some (pack (isNeg x != isNeg y) (roundBits (units x * units y) (2 ^ 149))) := by
  obtain ⟨hxn, hxi⟩ := isFinite_iff.mp hx
  obtain ⟨hyn, hyi⟩ := isFinite_iff.mp hy
  simp only [mulNum, hxn, hyn, hxi, hyi, Bool.or_self, Bool.false_eq_true, if_false]

theorem divNum_finite {x y : Word} (hx : isFinite x = true) (hy : isFinite y = true) (hy0 : isZero y = false) :
    divNum x y = some (pack (isNeg x != isNeg y) (roundBits (units x * 2 ^ 149) (units y))) := by
  obtain ⟨hxn, hxi⟩ := isFinite_iff.mp hx
  obtain ⟨hyn, hyi⟩ := isFinite_iff.mp hy
  simp only [divNum, hxn, hyn, hxi, hyi, hy0, Bool.or_self, Bool.false_eq_true, if_false]

theorem magBits_pack_roundBits (s : Bool) (a b : Nat) : magBits (pack s (roundBits a b)) = roundBits a b :=
  magBits_pack s (lt_of_le_of_lt (roundBits_le a b) (by norm_num))

theorem isNeg_pack_roundBits (s : Bool) (a b : Nat) : isNeg (pack s (roundBits a b)) = s :=
  isNeg_pack s (lt_of_le_of_lt (roundBits_le a b) (by norm_num))

theorem roundsTo_pack (s : Bool) (a : Nat) {b : Nat} (hb : 0 < b) : RoundsTo a b (magBits (pack s (roundBits a b))) := by
  rw [magBits_pack_roundBits]
  exact roundsTo_roundBits a hb

/-- A sum that is exactly zero is of two negative words only when both are `-0.0`. -/
theorem isNeg_both_iff_of_sum_zero {x y : Word} (h : signedUnits x + signedUnits y = 0) :
    (isNeg x && isNeg y) = true ↔ x = negZero ∧ y = negZero := by
  rw [Bool.and_eq_true, eq_negZero_iff, eq_negZero_iff, ← units_eq_zero_iff, ← units_eq_zero_iff]
  refine ⟨fun ⟨hx, hy⟩ => ?_, fun ⟨hx, hy⟩ => ⟨hx.1, hy.1⟩⟩
  simp only [signedUnits, hx, hy, if_true] at h
  exact ⟨⟨hx, by omega⟩, hy, by omega⟩

/-- The sum of finite words, as R12 says it. -/
theorem addNum_rounds {x y : Word} (hx : isFinite x = true) (hy : isFinite y = true) :
    ∃ z, addNum x y = some z ∧ RoundsTo (signedUnits x + signedUnits y).natAbs 1 (magBits z)
      ∧ (signedUnits x + signedUnits y < 0 → isNeg z = true) ∧ (0 < signedUnits x + signedUnits y → isNeg z = false)
      ∧ (signedUnits x + signedUnits y = 0 → z = if x = negZero ∧ y = negZero then negZero else posZero) := by
  refine ⟨_, addNum_finite hx hy, ?_⟩
  by_cases hsum : signedUnits x + signedUnits y = 0
  · rw [if_pos hsum]
    refine ⟨hsum ▸ ?_, by omega, by omega, fun _ => if_congr (isNeg_both_iff_of_sum_zero hsum) rfl rfl⟩
    split_ifs <;> exact roundsTo_roundBits 0 one_pos
  · rw [if_neg hsum, isNeg_pack_roundBits]
    exact ⟨roundsTo_pack _ _ one_pos, decide_eq_true, fun h => decide_eq_false (by omega), fun h => absurd h hsum⟩

/-- Unary minus flips bit 31 and keeps the others (R12). -/
theorem getLsbD_neg (v : Word) {b : Nat} (hb : b < 32) : (neg v).getLsbD b = (v.getLsbD b != (b == 31)) := by
  rw [neg, BitVec.getLsbD_xor]
  have hmask : ∀ b, b < 32 → (0x80000000#32).getLsbD b = (b == 31) := by decide
  rw [hmask b hb, Bool.bne_eq_xor]

/-- Settles O48: each result is `roundBits` of the exact magnitude under the exact sign, and a difference is the sum with
the negation. -/
theorem arithmeticRoundsToNearestEven : Obligations.ArithmeticRoundsToNearestEven := by
  refine ⟨fun x y hx hy => ⟨addNum_rounds hx hy, ?_, ?_, fun hy0 => ?_⟩, fun v b hb => getLsbD_neg v hb⟩
  · simpa only [subNum, signedUnits_neg, ← sub_eq_add_neg, neg_eq_negZero_iff]
      using addNum_rounds hx ((isFinite_neg y).trans hy)
  · exact ⟨_, mulNum_finite hx hy, roundsTo_pack _ _ (by norm_num), isNeg_pack_roundBits _ _ _⟩
  · have hpos : 0 < units y := Nat.pos_of_ne_zero fun h => by simp [units_eq_zero_iff.mp h] at hy0
    exact ⟨_, divNum_finite hx hy hy0, roundsTo_pack _ _ hpos, isNeg_pack_roundBits _ _ _⟩

/-! ### Infinities, zero divisors and NaNs (R12, R14, R280) -/

theorem addNum_inf_left {x y : Word} (hx : isInf x = true) (hy : isNaN y = false)
    (h : isInf y = true → isNeg x = isNeg y) : addNum x y = some x := by
  cases hyi : isInf y with
  | true => simp [addNum, (isInf_of hx).1, hy, hx, h hyi]
  | false => simp [addNum, (isInf_of hx).1, hy, hx, hyi]

theorem addNum_inf_right {x y : Word} (hx : isFinite x = true) (hy : isInf y = true) : addNum x y = some y := by
  obtain ⟨hxn, hxi⟩ := isFinite_iff.mp hx
  simp [addNum, hxn, hxi, (isInf_of hy).1, hy]

theorem mulNum_inf {x y : Word} (hx : isNaN x = false) (hy : isNaN y = false) (hinf : isInf x = true ∨ isInf y = true)
    (hx0 : isZero x = false) (hy0 : isZero y = false) : mulNum x y = some (pack (isNeg x != isNeg y) 0x7F800000) := by
  have h : (isInf x || isInf y) = true := by simpa using hinf
  simp [mulNum, hx, hy, h, hx0, hy0]

theorem divNum_inf_left {x y : Word} (hx : isInf x = true) (hy : isFinite y = true) :
    divNum x y = some (pack (isNeg x != isNeg y) 0x7F800000) := by
  obtain ⟨hyn, hyi⟩ := isFinite_iff.mp hy
  simp [divNum, (isInf_of hx).1, hyn, hx, hyi]

theorem divNum_inf_right {x y : Word} (hx : isFinite x = true) (hy : isInf y = true) :
    divNum x y = some (pack (isNeg x != isNeg y) 0) := by
  obtain ⟨hxn, hxi⟩ := isFinite_iff.mp hx
  simp [divNum, hxn, hxi, (isInf_of hy).1, hy]

theorem divNum_zero_right {x y : Word} (hx : isFinite x = true) (hx0 : isZero x = false) (hy : isZero y = true) :
    divNum x y = some (pack (isNeg x != isNeg y) 0x7F800000) := by
  obtain ⟨hxn, hxi⟩ := isFinite_iff.mp hx
  obtain ⟨hyn, hyi⟩ := isZero_of hy
  simp [divNum, hxn, hxi, hyn, hyi, hx0, hy]

/-! Which results are NaNs: every other pair of operands has one of the results above. -/

theorem isFinite_of_not {v : Word} (hn : ¬isNaN v = true) (hi : ¬isInf v = true) : isFinite v = true :=
  isFinite_iff.mpr ⟨Bool.eq_false_iff.mpr hn, Bool.eq_false_iff.mpr hi⟩

theorem addNum_eq_none_iff (x y : Word) :
    addNum x y = none ↔ isNaN x = true ∨ isNaN y = true ∨ (isInf x = true ∧ isInf y = true ∧ isNeg x ≠ isNeg y) := by
  constructor
  · intro h
    by_contra! hnot
    obtain ⟨hx, hy, hopp⟩ := hnot
    by_cases hxi : isInf x = true
    · simp [addNum_inf_left hxi (Bool.eq_false_iff.mpr hy) (hopp hxi)] at h
    by_cases hyi : isInf y = true
    · simp [addNum_inf_right (isFinite_of_not hx hxi) hyi] at h
    · simp [addNum_finite (isFinite_of_not hx hxi) (isFinite_of_not hy hyi)] at h
  · rintro (hx | hy | ⟨hx, hy, hopp⟩)
    · simp [addNum, hx]
    · simp [addNum, hy]
    · simp [addNum, hx, hy, hopp]

theorem mulNum_eq_none_iff (x y : Word) :
    mulNum x y = none ↔ isNaN x = true ∨ isNaN y = true ∨ (isZero x = true ∧ isInf y = true)
      ∨ (isInf x = true ∧ isZero y = true) := by
  constructor
  · intro h
    by_contra! hnot
    obtain ⟨hx, hy, hzi, hiz⟩ := hnot
    by_cases hinf : isInf x = true ∨ isInf y = true
    · have hx0 : isZero x = false := Bool.eq_false_iff.mpr fun h0 =>
        hinf.elim (fun hi => by simp [(isInf_of hi).2.2] at h0) (hzi h0)
      have hy0 : isZero y = false := Bool.eq_false_iff.mpr fun h0 =>
        hinf.elim (fun hi => hiz hi h0) fun hi => by simp [(isInf_of hi).2.2] at h0
      simp [mulNum_inf (Bool.eq_false_iff.mpr hx) (Bool.eq_false_iff.mpr hy) hinf hx0 hy0] at h
    · obtain ⟨hxi, hyi⟩ := not_or.mp hinf
      simp [mulNum_finite (isFinite_of_not hx hxi) (isFinite_of_not hy hyi)] at h
  · rintro (hx | hy | ⟨hx, hy⟩ | ⟨hx, hy⟩)
    · simp [mulNum, hx]
    · simp [mulNum, hy]
    · simp [mulNum, hx, hy]
    · simp [mulNum, hx, hy]

theorem divNum_eq_none_iff (x y : Word) :
    divNum x y = none ↔ isNaN x = true ∨ isNaN y = true ∨ (isInf x = true ∧ isInf y = true)
      ∨ (isZero x = true ∧ isZero y = true) := by
  constructor
  · intro h
    by_contra! hnot
    obtain ⟨hx, hy, hii, hzz⟩ := hnot
    by_cases hxi : isInf x = true
    · simp [divNum_inf_left hxi (isFinite_of_not hy (hii hxi))] at h
    have hxf := isFinite_of_not hx hxi
    by_cases hyi : isInf y = true
    · simp [divNum_inf_right hxf hyi] at h
    by_cases hy0 : isZero y = true
    · simp [divNum_zero_right hxf (Bool.eq_false_iff.mpr fun hx0 => hzz hx0 hy0) hy0] at h
    · simp [divNum_finite hxf (isFinite_of_not hy hyi) (Bool.eq_false_iff.mpr hy0)] at h
  · rintro (hx | hy | ⟨hx, hy⟩ | ⟨hx, hy⟩)
    · simp [divNum, hx]
    · simp [divNum, hy]
    · simp [divNum, hx, hy]
    · obtain ⟨hxn, hxi⟩ := isZero_of hx
      obtain ⟨hyn, hyi⟩ := isZero_of hy
      simp [divNum, hxn, hxi, hyn, hyi, hx, hy]

/-- The word whose sign is negative exactly when the operands' signs differ. -/
theorem pack_sign (x y : Word) {m : Nat} {p n : Word} (hp : pack false m = p) (hn : pack true m = n) :
    pack (isNeg x != isNeg y) m = if isNeg x = isNeg y then p else n := by
  split_ifs with h
  · rw [bne_eq_false_iff_eq.mpr h, hp]
  · rw [bne_iff_ne.mpr h, hn]

/-- Settles O54: each clause is one branch of its operation, and a difference is the sum with the negation. -/
theorem arithmeticOfInfinitiesZerosAndNaNs : Obligations.ArithmeticOfInfinitiesZerosAndNaNs := by
  intro x y inf zero hinf hzero
  have hpinf : pack (isNeg x != isNeg y) 0x7F800000 = inf := (pack_sign x y (by decide) (by decide)).trans hinf.symm
  have hpzero : pack (isNeg x != isNeg y) 0 = zero := (pack_sign x y (by decide) (by decide)).trans hzero.symm
  refine ⟨⟨addNum_eq_none_iff x y, fun hx hy => ?_, addNum_inf_right, fun hx hy hs => ?_⟩,
    ⟨?_, fun hx hy => ?_, fun hx hy => ?_, fun hx hy hs => ?_⟩,
    ⟨mulNum_eq_none_iff x y, fun hx hy hy0 => ?_, fun hy hx hx0 => ?_⟩,
    ⟨divNum_eq_none_iff x y, fun hx hy => ?_, fun hx hy => ?_, fun hx hx0 hy => ?_⟩⟩
  · obtain ⟨hyn, hyi⟩ := isFinite_iff.mp hy
    exact addNum_inf_left hx hyn (by simp [hyi])
  · exact addNum_inf_left hx (isInf_of hy).1 fun _ => hs
  · have := addNum_eq_none_iff x (neg y)
    simpa [subNum] using this
  · obtain ⟨hyn, hyi⟩ := isFinite_iff.mp hy
    exact addNum_inf_left hx (by simpa using hyn) (by simp [hyi])
  · have hy' : isInf (neg y) = true := by simpa using hy
    rw [subNum, addNum_inf_right hx hy', eq_pack_of_isInf hy', isNeg_neg]
    cases isNeg y <;> decide
  · exact addNum_inf_left hx (by simpa using (isInf_of hy).1) fun _ => by simpa [Bool.eq_not] using hs
  · exact hpinf ▸ mulNum_inf (isInf_of hx).1 hy (.inl hx) (isInf_of hx).2.2 hy0
  · exact hpinf ▸ mulNum_inf hx (isInf_of hy).1 (.inr hy) hx0 (isInf_of hy).2.2
  · exact hpinf ▸ divNum_inf_left hx hy
  · exact hpzero ▸ divNum_inf_right hx hy
  · exact hpinf ▸ divNum_zero_right hx hx0 hy

end Sys2Proof.Machine.F32
end

section
/-! The Lfo's phase and output (spec/45_lfo.md R200 to R204): one step keeps the phase in `[0, 1)` and answers a value in
`[-1.0, 1.0]`, and no other command writes the phase. -/

namespace Sys2Proof.Machine

namespace F32

/-! ### Bounds on one operation -/

/-- A number that is not negative, with magnitude bits at most `m`. -/
structure UpTo (m : Nat) (v : Word) : Prop where
  nonneg : isNeg v = false
  le     : magBits v ≤ m

theorem UpTo.isFinite {m : Nat} {v : Word} (h : UpTo m v) (hm : m < 0x7F800000) : isFinite v = true :=
  decide_eq_true (lt_of_le_of_lt h.le hm)

theorem UpTo.units_le {m : Nat} {v : Word} (h : UpTo m v) : units v ≤ unitsOfBits m :=
  unitsOfBits_strictMono.monotone h.le

theorem UpTo.signedUnits_eq {m : Nat} {v : Word} (h : UpTo m v) : signedUnits v = units v := by
  simp [signedUnits, h.nonneg]

/-- The bits of a number that is not negative are its magnitude bits. -/
theorem toNat_lt_iff_upTo {m : Nat} {v : Word} (hm : m < 2 ^ 31) : v.toNat < m + 1 ↔ UpTo m v := by
  constructor
  · intro h
    have hneg : isNeg v = false := by
      rw [isNeg, BitVec.msb_eq_decide, decide_eq_false_iff_not]
      omega
    exact ⟨hneg, by rw [magBits_of_nonneg hneg]; omega⟩
  · intro h
    have hle := h.le
    rw [magBits_of_nonneg h.nonneg] at hle
    omega

theorem upTo_pack_roundBits {a b m : Nat} (hb : 0 < b) (hm : m ≤ 0x7F800000) (h : a ≤ unitsOfBits m * b) :
    UpTo m (pack false (roundBits a b)) :=
  ⟨isNeg_pack_roundBits _ _ _, by rw [magBits_pack_roundBits]; exact roundBits_le_of_le hb hm h⟩

/-- A sum between 0 and the value of `m` whose first operand is not negative. -/
theorem addNum_upTo {x y : Word} {m : Nat} (hx : isFinite x = true) (hy : isFinite y = true) (hxs : isNeg x = false)
    (hm : m ≤ 0x7F800000) (hlo : 0 ≤ signedUnits x + signedUnits y) (hhi : signedUnits x + signedUnits y ≤ unitsOfBits m) :
    ∃ z, addNum x y = some z ∧ UpTo m z := by
  refine ⟨_, addNum_finite hx hy, ?_⟩
  split_ifs with hsum hneg
  · simp [hxs] at hneg
  · exact ⟨by decide, Nat.zero_le m⟩
  · rw [decide_eq_false (by omega)]
    exact upTo_pack_roundBits one_pos hm (by omega)

theorem mulNum_upTo {x y : Word} {m m₁ m₂ : Nat} (hx : UpTo m₁ x) (hy : UpTo m₂ y) (h₁ : m₁ < 0x7F800000)
    (h₂ : m₂ < 0x7F800000) (hm : m ≤ 0x7F800000) (h : unitsOfBits m₁ * unitsOfBits m₂ ≤ unitsOfBits m * 2 ^ 149) :
    ∃ z, mulNum x y = some z ∧ UpTo m z := by
  refine ⟨_, mulNum_finite (hx.isFinite h₁) (hy.isFinite h₂), ?_⟩
  rw [hx.nonneg, hy.nonneg, bne_self_eq_false]
  exact upTo_pack_roundBits (by norm_num) hm ((Nat.mul_le_mul hx.units_le hy.units_le).trans h)

theorem Yields.eq_of_some {o : Option Word} {w z : Word} (h : Yields o z) (ho : o = some w) : z = w := by
  subst ho
  exact h

/-! ### A frequency below the rate -/

/-- Distinct magnitudes differ by at least the 2^24th part of the larger. -/
theorem unitsOfBits_gap {m m' : Nat} (h : m < m') : unitsOfBits m * 2 ^ 24 ≤ (2 ^ 24 - 1) * unitsOfBits m' := by
  have hmono : unitsOfBits m ≤ unitsOfBits (m' - 1) := unitsOfBits_strictMono.monotone (by omega)
  refine (Nat.mul_le_mul_right _ hmono).trans ?_
  obtain ⟨k, r, hkr, hk, hr⟩ := exists_build m'
  rw [hkr, unitsOfBits_build hk hr.le]
  by_cases hlow : k = 0 ∨ 2 ^ 23 ≤ r - 1
  · -- the predecessor is in the same binade
    rw [show k * 2 ^ 23 + r - 1 = k * 2 ^ 23 + (r - 1) by omega, unitsOfBits_build hlow (by omega)]
    calc (r - 1) * 2 ^ k * 2 ^ 24 = (r - 1) * 2 ^ 24 * 2 ^ k := by ring
      _ ≤ (2 ^ 24 - 1) * r * 2 ^ k := Nat.mul_le_mul_right _ (by omega)
      _ = (2 ^ 24 - 1) * (r * 2 ^ k) := by ring
  · -- the predecessor of a power of two is the largest of the binade below
    obtain ⟨j, rfl⟩ : ∃ j, k = j + 1 := ⟨k - 1, by omega⟩
    obtain rfl : r = 2 ^ 23 := by omega
    rw [show (j + 1) * 2 ^ 23 + 2 ^ 23 - 1 = j * 2 ^ 23 + (2 ^ 24 - 1) by omega,
      unitsOfBits_build (.inr (by norm_num)) (by norm_num)]
    exact le_of_eq (by rw [pow_succ]; ring)

/-- A number that is negative as a zero only has a value from 0 to that of its magnitude bits. -/
theorem signedUnits_mem {v : Word} {m : Nat} (hneg : isNeg v = true → magBits v = 0) (hm : magBits v ≤ m) :
    0 ≤ signedUnits v ∧ signedUnits v ≤ unitsOfBits m := by
  have hle : units v ≤ unitsOfBits m := unitsOfBits_strictMono.monotone hm
  unfold signedUnits
  split_ifs with hs
  · rw [units, hneg hs, unitsOfBits_zero]
    omega
  · omega

theorem neg_zero_of_freqLegal {sr freq : Word} (hf : freqLegal sr freq = true) (h : isNeg freq = true) :
    magBits freq = 0 := by
  obtain ⟨-, -, hkey⟩ := le_eq_true_iff.mp (freqLegal_iff.mp hf).1
  rw [show orderKey posZero = 0 by decide, orderKey, if_pos h] at hkey
  omega

theorem magBits_lt_of_freqLegal {sr freq : Word} (hf : freqLegal sr freq = true) (hs : isNeg sr = false)
    (hpos : 0 < magBits sr) : magBits freq < magBits sr := by
  obtain ⟨-, -, hkey⟩ := lt_eq_true_iff.mp (freqLegal_iff.mp hf).2
  rw [show orderKey sr = magBits sr by simp [orderKey, hs], orderKey] at hkey
  split_ifs at hkey with hneg
  · exact neg_zero_of_freqLegal hf hneg ▸ hpos
  · omega

/-- `0 <= freq / sr <= 1 - 2^-24`, as a legal frequency lies below the rate (R279, R277). -/
theorem divNum_freq {freq sr : Word} (hf : freqLegal sr freq = true) (hlo : le four sr = true) (hhi : lt sr posInf = true) :
    ∃ inc, divNum freq sr = some inc ∧ isFinite inc = true ∧ 0 ≤ signedUnits inc
      ∧ signedUnits inc ≤ unitsOfBits 0x3F7FFFFF := by
  obtain ⟨hs, hslo, hshi⟩ := le_four_iff hlo hhi
  have hmag : magBits freq < magBits sr := magBits_lt_of_freqLegal hf hs (by omega)
  have hz : isZero sr = false := decide_eq_false (by omega)
  have hpos : 0 < units sr := Nat.pos_of_ne_zero fun h => by simp [units_eq_zero_iff.mp h] at hz
  have hbits : roundBits (units freq * 2 ^ 149) (units sr) ≤ 0x3F7FFFFF := by
    refine roundBits_le_of_le hpos (by norm_num) ?_
    calc units freq * 2 ^ 149 = units freq * 2 ^ 24 * 2 ^ 125 := by ring
      _ ≤ (2 ^ 24 - 1) * units sr * 2 ^ 125 := Nat.mul_le_mul_right _ (unitsOfBits_gap hmag)
      _ = unitsOfBits 0x3F7FFFFF * units sr := by
        rw [show unitsOfBits 0x3F7FFFFF = (2 ^ 24 - 1) * 2 ^ 125 by decide]
        ring
  refine ⟨_, divNum_finite (decide_eq_true (by omega)) (decide_eq_true hshi) hz, decide_eq_true ?_,
    signedUnits_mem (fun hneg => ?_) ?_⟩ <;> rw [magBits_pack_roundBits]
  · omega
  · rw [isNeg_pack_roundBits, hs, Bool.bne_false] at hneg
    rw [units, neg_zero_of_freqLegal hf hneg]
    exact Nat.le_zero.mp (roundBits_le_of_le hpos (by norm_num) (by simp [unitsOfBits_zero]))
  · exact hbits

end F32

/-! ### The phase (R200, R203) -/

/-- The largest binary32 below 1.0 bounds a phase below 1.0. -/
theorem phase_lt_one_iff {p : Word} : p.toNat < F32.one.toNat ↔ F32.UpTo 0x3F7FFFFF p := by
  rw [show F32.one.toNat = 0x3F7FFFFF + 1 by decide]
  exact F32.toNat_lt_iff_upTo (by norm_num)

/-- Below 2.0, one conditional subtraction of 1.0 leaves a phase below 1.0. -/
theorem wrapped_upTo {p phase : Word} (hp : F32.UpTo 0x3FFFFFFF p)
    (h : if F32.le F32.one p = true then F32.Diff p F32.one phase else phase = p) : F32.UpTo 0x3F7FFFFF phase := by
  have hpf : F32.isFinite p = true := hp.isFinite (by norm_num)
  have hkey : F32.le F32.one p = true ↔ 0x3F800000 ≤ F32.magBits p := by
    rw [F32.le_eq_true_iff, show F32.orderKey F32.one = 0x3F800000 by decide, F32.orderKey, hp.nonneg]
    have h1 : F32.isNaN F32.one = false := by decide
    simp [h1, (F32.isFinite_iff.mp hpf).1]
  split_ifs at h with hle
  · have hone : F32.signedUnits (F32.neg F32.one) = -2 ^ 149 := by decide
    have hlow : F32.unitsOfBits 0x3F800000 ≤ F32.units p := F32.unitsOfBits_strictMono.monotone (hkey.mp hle)
    have hhigh : F32.units p ≤ F32.unitsOfBits 0x3FFFFFFF := hp.units_le
    have h1 : F32.unitsOfBits 0x3F800000 = 2 ^ 149 := by decide
    have h2 : F32.unitsOfBits 0x3FFFFFFF ≤ F32.unitsOfBits 0x3F7FFFFF + 2 ^ 149 := by decide
    obtain ⟨z, hz, hup⟩ := F32.addNum_upTo (m := 0x3F7FFFFF) hpf (by decide : F32.isFinite (F32.neg F32.one) = true)
      hp.nonneg (by norm_num) (by rw [hone, hp.signedUnits_eq]; omega) (by rw [hone, hp.signedUnits_eq]; omega)
    exact h.eq_of_some hz ▸ hup
  · have := mt hkey.mpr hle
    exact h ▸ ⟨hp.nonneg, by omega⟩

/-- One step of the Lfo keeps the phase below 1.0: the advance stays below 2.0. -/
theorem LfoStep.phase_upTo {sr out : Word} {l l' : Lfo} (h : LfoStep sr l out l') (hlo : F32.le F32.four sr = true)
    (hhi : F32.lt sr F32.posInf = true) (hf : freqLegal sr l.freq = true) (hp : F32.UpTo 0x3F7FFFFF l.phase) :
    F32.UpTo 0x3F7FFFFF l'.phase := by
  obtain ⟨t, arg, inc, p, -, -, -, hquot, hsum, hwrap, -⟩ := h
  obtain ⟨inc', hinc, hfin, hpos, hle⟩ := F32.divNum_freq hf hlo hhi
  obtain rfl := hquot.eq_of_some hinc
  have hbound : F32.unitsOfBits 0x3F7FFFFF + F32.unitsOfBits 0x3F7FFFFF ≤ F32.unitsOfBits 0x3FFFFFFF := by decide
  have hphase := hp.units_le
  obtain ⟨z, hz, hup⟩ := F32.addNum_upTo (m := 0x3FFFFFFF) (hp.isFinite (by norm_num)) hfin hp.nonneg (by norm_num)
    (by rw [hp.signedUnits_eq]; omega) (by rw [hp.signedUnits_eq]; omega)
  exact wrapped_upTo (hsum.eq_of_some hz ▸ hup) hwrap

/-! ### The output (R204) -/

/-- The angle's square is finite at a phase below 1.0, so SIN answers a value in its range. -/
theorem LfoStep.out_mem_unit_range {sr out : Word} {l l' : Lfo} (h : LfoStep sr l out l')
    (hp : F32.UpTo 0x3F7FFFFF l.phase) : F32.le F32.negOne out = true ∧ F32.le out F32.one = true := by
  obtain ⟨t, arg, inc, p, hangle, hsquare, hsine, -⟩ := h
  have htau : F32.UpTo 0x40C90FDB F32.tau := ⟨by decide, by decide⟩
  obtain ⟨t', ht', htup⟩ := F32.mulNum_upTo (m := 0x40C90FDB) hp htau (by norm_num) (by norm_num) (by norm_num) (by decide)
  obtain rfl := hangle.eq_of_some ht'
  -- 0x42200000 is 40.0, above TAU squared
  obtain ⟨arg', harg', hargup⟩ := F32.mulNum_upTo (m := 0x42200000) htup htup (by norm_num) (by norm_num) (by norm_num)
    (by decide)
  obtain rfl := hsquare.eq_of_some harg'
  have hsin := F32.sin_mem_unit_range (hargup.isFinite (by norm_num))
  have hnum : F32.sinNum arg = some (F32.sin arg) := if_neg (by simp [(F32.le_eq_true_iff.mp hsin.2).1])
  exact hsine.eq_of_some hnum ▸ hsin

/-! ### The invariant of the Lfo -/

theorem Engine.lfoOk_iff {e : Engine} :
    e.lfoOk = true ↔ freqLegal e.sr e.lfo.freq = true ∧ F32.UpTo 0x3F7FFFFF e.lfo.phase := by
  rw [Engine.lfoOk, Bool.and_eq_true, decide_eq_true_eq, phase_lt_one_iff]

theorem State.lfoOk_iff {s : State} : s.lfoOk = true ↔ ∀ e, s.engine = some e → e.lfoOk = true := by
  rw [State.lfoOk, Option.all_eq_true]

theorem State.Running.lfoOk {s : State} {e : Engine} (hs : s.Running e) (h : s.lfoOk = true) : e.lfoOk = true :=
  State.lfoOk_iff.mp h e hs.engine

/-- Settles O31: the invariant bounds the phase, and the output is SIN of the squared angle before the advance. -/
theorem lfoOutputStaysInRange : Obligations.LfoOutputStaysInRange := by
  intro s e hs _ hlfo
  exact ⟨_, _, exec_lfoNext_running hs rfl, rfl,
    (lfoProc_step e.sr e.lfo s.nanDraws).out_mem_unit_range (Engine.lfoOk_iff.mp (hs.lfoOk hlfo)).2⟩

/-- What a command can do to the Lfo: nothing, set a legal frequency, or one step (R200, R202). -/
inductive Engine.LfoMove (e e' : Engine) : Prop where
  | kept (h : e'.lfo = e.lfo)
  | tuned (hf : freqLegal e.sr e'.lfo.freq = true) (hp : e'.lfo.phase = e.lfo.phase)
  | stepped (out : Word) (h : LfoStep e.sr e.lfo out e'.lfo)

/-- Under a legal rate each of them keeps the invariant. -/
theorem Engine.LfoMove.lfoOk {cfg : Config.Params} {e e' : Engine} (h : e.LfoMove e') (hsr : e'.sr = e.sr)
    (hok : e.ok cfg = true) (hlfo : e.lfoOk = true) : e'.lfoOk = true := by
  obtain ⟨hf, hp⟩ := Engine.lfoOk_iff.mp hlfo
  obtain ⟨hlo, hhi, -⟩ := rateLegal_iff.mp (Engine.ok_iff.mp hok).1
  rw [Engine.lfoOk_iff, hsr]
  cases h with
  | kept h => exact h ▸ ⟨hf, hp⟩
  | tuned hf' hp' => exact ⟨hf', hp' ▸ hp⟩
  | stepped out h => exact ⟨h.freq_eq ▸ hf, h.phase_upTo hlo hhi hf hp⟩

/-- Whatever engine `t` has, its Lfo moved as a command moves it. -/
def State.LfoMoved (e : Engine) (t : State) : Prop := ∀ e', t.engine = some e' → e.LfoMove e'

theorem State.LfoMoved.of_fail {s : State} {e : Engine} (hs : s.Running e) (c : Code) : (s.fail c).LfoMoved e :=
  fun _ he' => .kept (congrArg Engine.lfo (Option.some.inj (he'.symm.trans hs.engine)))

theorem State.LfoMoved.of_complete {s t : State} {e e' : Engine} {n : Nat} {rs : List Word}
    (h : (.next (s.complete e' n rs) : Result) = .next t) (hm : e.LfoMove e') : t.LfoMoved e := by
  obtain rfl := Host.Outcome.next.inj h
  exact fun e'' he'' => Option.some.inj he'' ▸ hm

section
variable {s t : State} {e : Engine} (hs : s.Running e)
include hs

theorem State.LfoMoved.of_whenRunning {f : Engine → Result} (h : whenRunning s f = .next t)
    (hf : f e = .next t → t.LfoMoved e) : t.LfoMoved e :=
  hf ((whenRunning_running f hs).symm.trans h)

theorem State.LfoMoved.of_onAllpass {u : UnitAddr} {f : Engine → Fin 3 → Result} (h : onAllpass u s f = .next t)
    (hf : ∀ k, f e k = .next t → t.LfoMoved e) : t.LfoMoved e := by
  rcases onAllpass_next h with ⟨-, rfl⟩ | ⟨k, -, hk⟩
  · exact .of_fail hs _
  · exact .of_whenRunning hs hk (hf k)

theorem State.LfoMoved.of_onDegraded {u : UnitAddr} {f : Engine → Fin 4 → Result} (h : onDegraded u s f = .next t)
    (hf : ∀ k, f e k = .next t → t.LfoMoved e) : t.LfoMoved e := by
  rcases onDegraded_next h with ⟨-, rfl⟩ | ⟨k, -, hk⟩
  · exact .of_fail hs _
  · exact .of_whenRunning hs hk (hf k)

theorem State.LfoMoved.of_onDelay {d : DelayAddr} {f : Engine → Slot → Result} (h : onDelay d s f = .next t)
    (hf : ∀ k, f e k = .next t → t.LfoMoved e) : t.LfoMoved e := by
  rcases onDelay_next h with ⟨-, rfl⟩ | ⟨k, -, hk⟩
  · exact .of_fail hs _
  · exact .of_whenRunning hs hk (hf k)

end

/-- The mode of a frame steps the Lfo or leaves it (R221). -/
theorem ModeStep.lfoMove {e e' : Engine} {g gs g' th : Word} (h : ModeStep e.sr e.lfo g gs g' th e'.lfo) : e.LfoMove e' := by
  unfold ModeStep at h
  split_ifs at h with hw hf
  · obtain ⟨-, osc, depth, hstep, -⟩ := h
    exact .stepped osc hstep
  · exact .kept h.2.2
  · exact .kept h.2.2

/-- No command on a running block moves the Lfo otherwise. -/
theorem exec_lfoMoved {i : Instr} {s t : State} {e : Engine} (hs : s.Running e) (hx : exempt i = false)
    (h : exec i s = .next t) : t.LfoMoved e := by
  cases i with
  | nop | engInit | rdStatus => cases hx
  | engFrame l r g da di sp se =>
    cases ha : amountOf di with
    | none =>
      obtain rfl := Host.Outcome.next.inj ((exec_engFrame_amount l r g da sp se hs ha).symm.trans h)
      exact .of_fail hs _
    | some amount =>
      obtain ⟨k, hk⟩ := engineFrame_writes e amount l r g da sp se s.nanDraws
      exact .of_complete (requireRange_next.mp ((exec_engFrame_running l r g da sp se hs ha rfl).symm.trans h)).2
        hk.mode.lfoMove
  | lfoSetFreq f =>
    replace h := (exec_lfoSetFreq_running f hs).symm.trans h
    split_ifs at h with hf
    · exact .of_complete h (.tuned hf rfl)
    · obtain rfl := Host.Outcome.next.inj h
      exact .of_fail hs _
  | lfoNext => exact .of_complete ((exec_lfoNext_running hs rfl).symm.trans h) (.stepped _ (lfoProc_step e.sr e.lfo _))
  | cdSetTime => exact .of_onDelay hs h fun k h => .of_complete (requireLength_next.mp h).2 (.kept (by simp))
  | cdProcess => exact .of_onDelay hs h fun k h => .of_complete (requireRange_next.mp h).2 (.kept (by simp))
  | apSetG => exact .of_onAllpass hs h fun k h => .of_complete h (.kept (by simp))
  | apSetTime => exact .of_onAllpass hs h fun k h => .of_complete (requireLength_next.mp h).2 (.kept (by simp))
  | apProcess | apFdpProcess =>
    exact .of_onAllpass hs h fun k h => .of_complete (requireRange_next.mp h).2 (.kept (by simp))
  | dfdSetFeedback | dfdSetA | dfdSetRatio | dsProcess =>
    exact .of_onDegraded hs h fun k h => .of_complete h (.kept (by simp))
  | dfdSetAmount =>
    refine .of_onDegraded hs h fun k h => ?_
    split_ifs at h with hneg
    · obtain rfl := Host.Outcome.next.inj h
      exact .of_fail hs _
    · exact .of_complete h (.kept (by simp))
  | dfdSetTime => exact .of_onDegraded hs h fun k h => .of_complete (requireLength_next.mp h).2 (.kept (by simp))
  | dfdProcess => exact .of_onDegraded hs h fun k h => .of_complete (requireRange_next.mp h).2 (.kept (by simp))

theorem freshEngine_lfoOk {cfg : Config.Params} {sr : Word} (hf : freqLegal sr cfg.lfoFreq = true) :
    (freshEngine cfg sr).lfoOk = true :=
  Engine.lfoOk_iff.mpr ⟨hf, (by decide : F32.isNeg F32.posZero = false), Nat.zero_le _⟩

theorem exec_lfoOk {i : Instr} {s t : State} (h : exec i s = .next t) (hok : s.ok = true) (hlfo : s.lfoOk = true) :
    t.lfoOk = true := by
  cases exec_next h with
  | replied | refused | initFailed | failed => exact hlfo
  | constructed sr hi hr hf => exact State.lfoOk_iff.mpr fun e he => Option.some.inj he ▸ freshEngine_lfoOk hf
  | completed e e' n rs hx hs hk =>
    have hmove : e.LfoMove e' := exec_lfoMoved hs hx h e' rfl
    refine State.lfoOk_iff.mpr fun e'' he'' => Option.some.inj he'' ▸ ?_
    exact hmove.lfoOk hk.sr (State.engine_ok hok hs.engine) (hs.lfoOk hlfo)

/-- Settles O30: the two invariants are kept together, since the rate that State.ok bounds bounds the phase's advance. -/
theorem phaseStaysInUnitInterval : Obligations.PhaseStaysInUnitInterval := fun _ _ hok hlfo hstep =>
  (step_keeps (P := fun s => s.ok = true ∧ s.lfoOk = true) (fun _ _ h => h)
    (fun _ h => ⟨State.fail_ok (by decide) h.1, h.2⟩)
    (fun _ _ _ h hx => ⟨(exec_next hx).ok h.1, exec_lfoOk hx h.1 h.2⟩) ⟨hok, hlfo⟩ hstep).2

end Sys2Proof.Machine
end
